-- ==== Sys2Proof/Word.lean ====
section
/-! DEFINITION. The word types of the block: every wire and port field is one unsigned byte (00_scope R8), and two
response fields have nine bits (10_state R28). -/
namespace Sys2Proof

/-- One unsigned byte (00_scope R8, R9). -/
abbrev Byte := BitVec 8

/-- The nine-bit counts of the response, `RESP.CONSUMED` and `RESP.WRITTEN` (10_state R28). -/
abbrev Count9 := BitVec 9

end Sys2Proof
end

