-- ==== Sys2Proof/Config.lean ====
section
/-! DEFINITION. The constants of 00_scope R6 and the literals of 93 I1, each under a name of its own with the DOC's
value, the op-code numbers of 30_encoding R79, and the parameters of 00_scope R7. No number of these tables is written
anywhere else in the definitions. -/
namespace Sys2Proof.Config

/-! The frame constants of R6. -/

/-- Frame start byte, frame offset 0. -/
def HDR : Byte := 0xAA
/-- Acknowledge / not-acknowledge command id. -/
def CMD_ACKNAK : Byte := 0xFF
/-- Power-control command id. -/
def CMD_POWER : Byte := 0x11
/-- Panel-on-off command id. -/
def CMD_PANEL : Byte := 0xF9
/-- Broadcast target id. -/
def TGT_BCAST : Byte := 0xFE
/-- ASCII "A", the positive-acknowledgement byte. PRESUMED by the spec itself: the value 0x41 is from general
knowledge (93 I21). -/
def ACK_BYTE : Byte := 0x41
/-- Largest payload length. -/
def MAX_N : Nat := 255
/-- Bytes before the payload of a frame (offsets 0 to 3), and of a request (R78). -/
def PREFIX_LEN : Nat := 4
/-- `FRAME_LEN(N)`, the bytes of a frame with payload length `n`: the prefix, the payload, the checksum. -/
def frameLen (n : Nat) : Nat := PREFIX_LEN + n + 1
/-- Payload offset of the status byte in a status reply. -/
def STATUS_OFFSET : Nat := 2
/-- The longest frame, `FRAME_LEN(MAX_N)` = 260 bytes (R71). -/
def MAX_FRAME : Nat := frameLen MAX_N
/-- The most `RxRead` calls one RECEIVE issues (41 R130): every read brings a byte, and a decode of 260 bytes is never
incomplete. -/
def READ_BOUND : Nat := MAX_FRAME

/-! The payload bytes of 30_encoding R75, "intentionally asymmetric": one name each. -/

/-- Payload byte of power on. -/
def PL_POWER_ON : Byte := 0x01
/-- Payload byte of power off. -/
def PL_POWER_OFF : Byte := 0x00
/-- Payload byte of panel on. -/
def PL_PANEL_ON : Byte := 0x00
/-- Payload byte of panel off. -/
def PL_PANEL_OFF : Byte := 0x01

/-! The status bytes of 30_encoding R77, asymmetric again: one name each. -/

/-- Status byte meaning power on. -/
def ST_POWER_ON : Byte := 0x00
/-- Status byte meaning power off. -/
def ST_POWER_OFF : Byte := 0x01
/-- Status byte meaning panel off. -/
def ST_PANEL_OFF : Byte := 0x00
/-- Status byte meaning panel on. -/
def ST_PANEL_ON : Byte := 0x01

/-! The op-codes of 30_encoding R79 (the spec's own numbers, 92 D3). -/

def OP_ENCODE : Byte := 0x01
def OP_DECODE : Byte := 0x02
def OP_SEND : Byte := 0x03
def OP_RECEIVE : Byte := 0x04
def OP_SEND_ACK : Byte := 0x05
def OP_A_POWER_ON : Byte := 0x10
def OP_A_POWER_OFF : Byte := 0x11
def OP_A_PANEL_ON : Byte := 0x12
def OP_A_PANEL_OFF : Byte := 0x13
def OP_A_QUERY_POWER : Byte := 0x14
def OP_A_QUERY_PANEL : Byte := 0x15
def OP_B_POWER_ON : Byte := 0x20
def OP_B_POWER_OFF : Byte := 0x21
def OP_B_PANEL_ON : Byte := 0x22
def OP_B_PANEL_OFF : Byte := 0x23

/-- The values of the OPEN parameter `P_DECODE_ORDER` (R7, 40 R103): where the header test stands among the length
tests of a decode. -/
inductive DecodeOrder where
  | lengthFirst
  | prefixFirst
  | headerFirst
  deriving DecidableEq, Repr

/-- The parameters of 00_scope R7, "A model takes each as an argument". They are a field of State because the types of
`exec` and `step` are fixed, so a claim for all states is a claim for every value of them (log 2). -/
structure Params where
  /-- `SCRATCH_SIZE`, the most bytes one read returns. -/
  scratchSize : Nat
  /-- `FIFO_DEPTH`, the capacity of `RXBUF`. -/
  fifoDepth : Nat
  /-- `P_DECODE_ORDER`, OPEN. -/
  decodeOrder : DecodeOrder
  /-- `P_QUERY_ACK_CHECK`, OPEN: a status query's reply passes the acknowledgement check. -/
  queryAckCheck : Bool
  deriving DecidableEq, Repr

/-- The ranges of R7: `SCRATCH_SIZE >= 1` and `FIFO_DEPTH >= 259 + SCRATCH_SIZE`, the 259 being one less than the
longest frame (20_memory R62). A configuration outside them is outside the spec (93 I18). -/
def Params.ok (p : Params) : Bool :=
  decide (1 ≤ p.scratchSize) && decide (MAX_FRAME - 1 + p.scratchSize ≤ p.fifoDepth)

/-- R7's "value taken" column for the two sizes, and its reference values for the two OPEN parameters.
DESIGN CHOICE (log 2): only `State.reset` uses them, and no statement rests on them. Unsafe where one would. -/
def Params.reference : Params :=
  { scratchSize := 1024, fifoDepth := 1283, decodeOrder := .lengthFirst, queryAckCheck := true }

end Sys2Proof.Config
end

