-- ==== Sys2Proof/Syntax.lean ====
section
/-! DEFINITION. The syntax whole: one constructor for each of the 28 rows of spec/opcode_table.json, the fifteen host
operations of 30_encoding R79 and the thirteen wire-frame rows of R70 and R84. There is no constructor for a broadcast
status query (43 R174). -/
namespace Sys2Proof

/-- The frame record of 10_state R33. `pl` has `n` bytes in every frame a decode makes. -/
structure Frame where
  cmd : Byte
  tgt : Byte
  n : Byte
  pl : List Byte
  deriving DecidableEq, Repr

/-- One instruction: a request of the host port, or a frame of the wire. A request carries the operands it uses
(R79, R82); `REQ.LEN` is the payload's length. A wire row carries every bit its pattern leaves free, its checksum byte
among them, since a frame with a wrong checksum is one the block receives and reports (R81). -/
inductive Instr where
  /-- ENCODE, 40 R101. -/
  | encode (cmd tgt : Byte) (pl : List Byte)
  /-- DECODE, 40 R105. -/
  | decode
  /-- SEND, 41 R120. -/
  | send (cmd tgt : Byte) (pl : List Byte)
  /-- RECEIVE, 41 R121. -/
  | receive
  /-- SEND_ACK, 42 R140. -/
  | sendAck (cmd tgt : Byte) (pl : List Byte)
  /-- A_POWER_ON, 43 R161. -/
  | aPowerOn (tgt : Byte)
  /-- A_POWER_OFF, 43 R162. -/
  | aPowerOff (tgt : Byte)
  /-- A_PANEL_ON, 43 R163. -/
  | aPanelOn (tgt : Byte)
  /-- A_PANEL_OFF, 43 R164. -/
  | aPanelOff (tgt : Byte)
  /-- A_QUERY_POWER, 43 R165. -/
  | aQueryPower (tgt : Byte)
  /-- A_QUERY_PANEL, 43 R166. -/
  | aQueryPanel (tgt : Byte)
  /-- B_POWER_ON, 43 R170. -/
  | bPowerOn
  /-- B_POWER_OFF, 43 R171. -/
  | bPowerOff
  /-- B_PANEL_ON, 43 R172. -/
  | bPanelOn
  /-- B_PANEL_OFF, 43 R173. -/
  | bPanelOff
  /-- FRAME, 30 R70: a frame that no more specific row names. -/
  | frame (cmd tgt : Byte) (pl : List Byte) (csum : Byte)
  /-- FR_A_POWER_ON, 30 R84. -/
  | frAPowerOn (tgt csum : Byte)
  /-- FR_A_POWER_OFF, 30 R84. -/
  | frAPowerOff (tgt csum : Byte)
  /-- FR_A_PANEL_ON, 30 R84. -/
  | frAPanelOn (tgt csum : Byte)
  /-- FR_A_PANEL_OFF, 30 R84. -/
  | frAPanelOff (tgt csum : Byte)
  /-- FR_PWR_GET, the frame of A_QUERY_POWER, 30 R84. -/
  | frPwrGet (tgt csum : Byte)
  /-- FR_PNL_GET, the frame of A_QUERY_PANEL, 30 R84. -/
  | frPnlGet (tgt csum : Byte)
  /-- FR_B_POWER_ON, 30 R84. -/
  | frBPowerOn
  /-- FR_B_POWER_OFF, 30 R84. -/
  | frBPowerOff
  /-- FR_B_PANEL_ON, 30 R84. -/
  | frBPanelOn
  /-- FR_B_PANEL_OFF, 30 R84. -/
  | frBPanelOff
  /-- ACKNAK, 42 R142: a reply frame with the acknowledge command id that is no positive acknowledgement. -/
  | acknak (tgt : Byte) (pl : List Byte) (csum : Byte)
  /-- ACK, 42 R143: a positive acknowledgement; `rest` are the payload bytes after the "A". -/
  | ack (tgt : Byte) (rest : List Byte) (csum : Byte)
  deriving DecidableEq, Repr

end Sys2Proof
end

