-- ==== Sys2Proof/Machine/Operands.lean ====
section
/-! DEFINITION. The operand forms: how a request and a frame are laid out as bytes (30_encoding R70, R72, R78), the
additive checksum (40 R100), `ENC` (40 R102) and `DEC` (40 R103), and the parts of a byte string. -/
namespace Sys2Proof.Machine
open Sys2Proof.Config

/-- `sum(s)`, the integer sum of a byte sequence, with no truncation (00_scope R9). -/
def sumBytes (bs : List Byte) : Nat := (bs.map BitVec.toNat).sum

/-- The length byte of a payload: `N = len(pl)` (30_encoding R72). -/
def lenByte (pl : List Byte) : Byte := BitVec.ofNat 8 pl.length

/-- `s[i]` of 00_scope R9. Every use stands behind a length test, so the default is never read. -/
def byteAt (bs : List Byte) (i : Nat) : Byte := bs.getD i 0

/-- `CSUM(cmd, tgt, N, pl)`: the terms "added as plain integers before truncation", reduced once (40 R100). -/
def csum (cmd tgt n : Byte) (pl : List Byte) : Byte :=
  BitVec.ofNat 8 (cmd.toNat + tgt.toNat + n.toNat + sumBytes pl)

/-- The bytes of a frame with a given checksum byte, in offset order (30_encoding R70, 20_memory R50). -/
def frameBytes (cmd tgt : Byte) (pl : List Byte) (c : Byte) : List Byte :=
  [HDR, cmd, tgt, lenByte pl] ++ pl ++ [c]

/-- `ENC(cmd, tgt, pl)`, the encoding every sending operation puts on the wire (40 R101, R102). -/
def enc (cmd tgt : Byte) (pl : List Byte) : List Byte :=
  frameBytes cmd tgt pl (csum cmd tgt (lenByte pl) pl)

/-- The bytes of a request (30_encoding R78). -/
def requestBytes (op cmd tgt : Byte) (pl : List Byte) : List Byte :=
  [op, cmd, tgt, lenByte pl] ++ pl

/-- The outcomes of `DEC` (40 R103). -/
inductive DecResult where
  | incomplete
  | invalidHeader
  | invalidChecksum
  | frame (f : Frame) (c : Nat)
  deriving DecidableEq, Repr

/-- `buf[3]` as a number: the payload length of the frame at the front, once the prefix is there. -/
def payloadLen (buf : List Byte) : Nat := (byteAt buf 3).toNat

/-- The last lines of `DEC`, where the whole frame is present and its header is right. -/
def decBody (buf : List Byte) : DecResult :=
  let n := payloadLen buf
  let pl := (buf.drop PREFIX_LEN).take n
  if byteAt buf (PREFIX_LEN + n) = csum (byteAt buf 1) (byteAt buf 2) (byteAt buf 3) pl then
    .frame { cmd := byteAt buf 1, tgt := byteAt buf 2, n := byteAt buf 3, pl := pl } (frameLen n)
  else .invalidChecksum

/-- `DEC(buf)` under each value of `P_DECODE_ORDER` (40 R103). -/
def dec (order : DecodeOrder) (buf : List Byte) : DecResult :=
  match order with
  | .headerFirst =>
    if buf.length = 0 then .incomplete
    else if byteAt buf 0 ≠ HDR then .invalidHeader
    else if buf.length < PREFIX_LEN then .incomplete
    else if buf.length < frameLen (payloadLen buf) then .incomplete
    else decBody buf
  | .prefixFirst =>
    if buf.length < PREFIX_LEN then .incomplete
    else if byteAt buf 0 ≠ HDR then .invalidHeader
    else if buf.length < frameLen (payloadLen buf) then .incomplete
    else decBody buf
  | .lengthFirst =>
    if buf.length < PREFIX_LEN then .incomplete
    else if buf.length < frameLen (payloadLen buf) then .incomplete
    else if byteAt buf 0 ≠ HDR then .invalidHeader
    else decBody buf

end Sys2Proof.Machine
end

