-- ==== Sys2Proof/WellFormed.lean ====
section
/-! DEFINITION. Which instructions are well formed: a payload fits the 8-bit length field (30_encoding R72, 92 D22), a
frame's checksum byte is the checksum (R70), and each wire row names the frames that no more specific row names
(log 8). -/
namespace Sys2Proof
open Config Machine

/-- The payload fits the length byte: "a length byte must equal len(payload)" (R72). -/
def payloadFits (pl : List Byte) : Bool := decide (pl.length ≤ MAX_N)

/-- The checksum byte of a frame is the one R100 gives. -/
def checksumRight (cmd tgt : Byte) (pl : List Byte) (c : Byte) : Bool :=
  decide (c = csum cmd tgt (lenByte pl) pl)

/-- No row but FRAME names a frame with this command id and payload. -/
def generic (cmd : Byte) (pl : List Byte) : Bool :=
  decide (cmd ≠ CMD_ACKNAK)
    && !(decide (cmd = CMD_POWER) && decide (pl = [PL_POWER_ON] ∨ pl = [PL_POWER_OFF] ∨ pl = []))
    && !(decide (cmd = CMD_PANEL) && decide (pl = [PL_PANEL_ON] ∨ pl = [PL_PANEL_OFF] ∨ pl = []))

/-- A frame of an addressed mutating operation that no broadcast row names: 0xFE gives the broadcast row's bytes. -/
def addressed (tgt : Byte) : Bool := decide (tgt ≠ TGT_BCAST)

/-- Well-formedness. Every value of every other field is legal (R80: "Every value of REQ.CMD, REQ.TGT and REQ.LEN is
legal"; R74). -/
def wellFormed : Instr → Bool
  | .encode _ _ pl => payloadFits pl
  | .decode => true
  | .send _ _ pl => payloadFits pl
  | .receive => true
  | .sendAck _ _ pl => payloadFits pl
  | .aPowerOn _ => true
  | .aPowerOff _ => true
  | .aPanelOn _ => true
  | .aPanelOff _ => true
  | .aQueryPower _ => true
  | .aQueryPanel _ => true
  | .bPowerOn => true
  | .bPowerOff => true
  | .bPanelOn => true
  | .bPanelOff => true
  | .frame cmd tgt pl c => payloadFits pl && checksumRight cmd tgt pl c && generic cmd pl
  | .frAPowerOn t c => checksumRight CMD_POWER t [PL_POWER_ON] c && addressed t
  | .frAPowerOff t c => checksumRight CMD_POWER t [PL_POWER_OFF] c && addressed t
  | .frAPanelOn t c => checksumRight CMD_PANEL t [PL_PANEL_ON] c && addressed t
  | .frAPanelOff t c => checksumRight CMD_PANEL t [PL_PANEL_OFF] c && addressed t
  | .frPwrGet t c => checksumRight CMD_POWER t [] c
  | .frPnlGet t c => checksumRight CMD_PANEL t [] c
  | .frBPowerOn => true
  | .frBPowerOff => true
  | .frBPanelOn => true
  | .frBPanelOff => true
  | .acknak t pl c => payloadFits pl && checksumRight CMD_ACKNAK t pl c && decide (pl.head? ≠ some ACK_BYTE)
  | .ack t rest c => payloadFits (ACK_BYTE :: rest) && checksumRight CMD_ACKNAK t (ACK_BYTE :: rest) c

end Sys2Proof
end

