-- ==== Sys2Proof/Decode.lean ====
section
/-! DEFINITION. Decoding, total on any bytes and rejecting by name, of the block's two encoded interfaces (the request
port, 30_encoding R78 to R80, and the wire, R70, R84), and after it the encoder, written from the same tables. -/
namespace Sys2Proof
open Config Machine

/-- Why bytes are no instruction. -/
inductive Reject where
  /-- The bytes of a request or a frame are not all there yet. Not illegal: "it only means more bytes are needed"
  (R81). -/
  | incomplete
  /-- `REQ.OP` is not in R79 (R80, 60 R203). -/
  | illegalOp (op : Byte)
  /-- The first byte on the wire is not the header (R81). -/
  | notAFrame
  deriving DecidableEq, Repr

/-- What a decoder reads from the front of a byte string: an instruction and the bytes after it, or a rejection. -/
inductive Decoded where
  | instr (i : Instr) (rest : List Byte)
  | rejected (r : Reject)
  deriving DecidableEq, Repr

/-- The op-code map of 30_encoding R79: the instruction an assigned op-code makes of the request's fields. A field an
operation does not use is ignored, whatever its value (10_state R27). -/
def requestRows : List (Byte × (Byte → Byte → List Byte → Instr)) :=
  [ (OP_ENCODE, fun cmd tgt pl => .encode cmd tgt pl),
    (OP_DECODE, fun _ _ _ => .decode),
    (OP_SEND, fun cmd tgt pl => .send cmd tgt pl),
    (OP_RECEIVE, fun _ _ _ => .receive),
    (OP_SEND_ACK, fun cmd tgt pl => .sendAck cmd tgt pl),
    (OP_A_POWER_ON, fun _ tgt _ => .aPowerOn tgt),
    (OP_A_POWER_OFF, fun _ tgt _ => .aPowerOff tgt),
    (OP_A_PANEL_ON, fun _ tgt _ => .aPanelOn tgt),
    (OP_A_PANEL_OFF, fun _ tgt _ => .aPanelOff tgt),
    (OP_A_QUERY_POWER, fun _ tgt _ => .aQueryPower tgt),
    (OP_A_QUERY_PANEL, fun _ tgt _ => .aQueryPanel tgt),
    (OP_B_POWER_ON, fun _ _ _ => .bPowerOn),
    (OP_B_POWER_OFF, fun _ _ _ => .bPowerOff),
    (OP_B_PANEL_ON, fun _ _ _ => .bPanelOn),
    (OP_B_PANEL_OFF, fun _ _ _ => .bPanelOff) ]

/-- The assigned op-codes (R79). -/
def assignedOps : List Byte := requestRows.map Prod.fst

/-- The bytes of a request port after its front request, `4 + REQ.LEN` bytes (R78); empty if it holds no whole
request. -/
def dropRequest : List Byte → List Byte
  | _ :: _ :: _ :: len :: pl => pl.drop len.toNat
  | _ => []

/-- Read the request at the front of the request port (R78, R79, R80). The op-code is looked at first: an unassigned
one is rejected without reading the other fields (60 R203). A request whose `4 + REQ.LEN` bytes are not all there is
not issued yet. -/
def decodeRequest (bs : List Byte) : Decoded :=
  match bs with
  | [] => .rejected .incomplete
  | op :: fields =>
    match requestRows.lookup op with
    | none => .rejected (.illegalOp op)
    | some make =>
      match fields with
      | cmd :: tgt :: len :: pl =>
        if pl.length < len.toNat then .rejected .incomplete
        else .instr (make cmd tgt (pl.take len.toNat)) (pl.drop len.toNat)
      | _ => .rejected .incomplete

/-- The wire row that names a frame of a mutating operation: the broadcast row where the bytes are the broadcast
frame's (R84), else the addressed one. -/
def mutatingRow (cmd tgt : Byte) (pl : List Byte) (c : Byte) (bcast addr : Instr) : Instr :=
  if tgt = TGT_BCAST ∧ c = csum cmd tgt (lenByte pl) pl then bcast else addr

/-- The most specific wire row that names a frame with these fields (R70, R84, 42 R142, R143; log 8). -/
def wireRow (cmd tgt : Byte) (pl : List Byte) (c : Byte) : Instr :=
  if cmd = CMD_ACKNAK then
    match pl with
    | [] => .acknak tgt [] c
    | p0 :: rest => if p0 = ACK_BYTE then .ack tgt rest c else .acknak tgt (p0 :: rest) c
  else if cmd = CMD_POWER ∧ pl = [PL_POWER_ON] then mutatingRow cmd tgt pl c .frBPowerOn (.frAPowerOn tgt c)
  else if cmd = CMD_POWER ∧ pl = [PL_POWER_OFF] then mutatingRow cmd tgt pl c .frBPowerOff (.frAPowerOff tgt c)
  else if cmd = CMD_PANEL ∧ pl = [PL_PANEL_ON] then mutatingRow cmd tgt pl c .frBPanelOn (.frAPanelOn tgt c)
  else if cmd = CMD_PANEL ∧ pl = [PL_PANEL_OFF] then mutatingRow cmd tgt pl c .frBPanelOff (.frAPanelOff tgt c)
  else if cmd = CMD_POWER ∧ pl = [] then .frPwrGet tgt c
  else if cmd = CMD_PANEL ∧ pl = [] then .frPnlGet tgt c
  else .frame cmd tgt pl c

/-- Read the whole frame at the front of the bytes on the wire (R70, R71): its length is fixed by its length byte. The
checksum byte is an operand here; that it is right is the codec's test, made when the block decodes the frame. -/
def decodeWire (bs : List Byte) : Decoded :=
  match bs with
  | [] => .rejected .incomplete
  | h :: fields =>
    if h ≠ HDR then .rejected .notAFrame
    else match fields with
      | cmd :: tgt :: n :: body =>
        match body.drop n.toNat with
        | [] => .rejected .incomplete
        | c :: rest => .instr (wireRow cmd tgt (body.take n.toNat) c) rest
      | _ => .rejected .incomplete

/-- Read an instruction of either interface. The header value 0xAA is no assigned op-code (R80), so the first byte
tells a frame from a request. -/
def decode (bs : List Byte) : Decoded :=
  if bs.head? = some HDR then decodeWire bs else decodeRequest bs

/-- The bytes of an instruction, from the request layout (R78), the op-code map (R79) and the frame layout (R70,
R84). Unused request fields encode as 0x00 (R82). -/
def encode : Instr → List Byte
  | .encode cmd tgt pl => requestBytes OP_ENCODE cmd tgt pl
  | .decode => requestBytes OP_DECODE 0 0 []
  | .send cmd tgt pl => requestBytes OP_SEND cmd tgt pl
  | .receive => requestBytes OP_RECEIVE 0 0 []
  | .sendAck cmd tgt pl => requestBytes OP_SEND_ACK cmd tgt pl
  | .aPowerOn t => requestBytes OP_A_POWER_ON 0 t []
  | .aPowerOff t => requestBytes OP_A_POWER_OFF 0 t []
  | .aPanelOn t => requestBytes OP_A_PANEL_ON 0 t []
  | .aPanelOff t => requestBytes OP_A_PANEL_OFF 0 t []
  | .aQueryPower t => requestBytes OP_A_QUERY_POWER 0 t []
  | .aQueryPanel t => requestBytes OP_A_QUERY_PANEL 0 t []
  | .bPowerOn => requestBytes OP_B_POWER_ON 0 0 []
  | .bPowerOff => requestBytes OP_B_POWER_OFF 0 0 []
  | .bPanelOn => requestBytes OP_B_PANEL_ON 0 0 []
  | .bPanelOff => requestBytes OP_B_PANEL_OFF 0 0 []
  | .frame cmd tgt pl c => frameBytes cmd tgt pl c
  | .frAPowerOn t c => frameBytes CMD_POWER t [PL_POWER_ON] c
  | .frAPowerOff t c => frameBytes CMD_POWER t [PL_POWER_OFF] c
  | .frAPanelOn t c => frameBytes CMD_PANEL t [PL_PANEL_ON] c
  | .frAPanelOff t c => frameBytes CMD_PANEL t [PL_PANEL_OFF] c
  | .frPwrGet t c => frameBytes CMD_POWER t [] c
  | .frPnlGet t c => frameBytes CMD_PANEL t [] c
  | .frBPowerOn => enc CMD_POWER TGT_BCAST [PL_POWER_ON]
  | .frBPowerOff => enc CMD_POWER TGT_BCAST [PL_POWER_OFF]
  | .frBPanelOn => enc CMD_PANEL TGT_BCAST [PL_PANEL_ON]
  | .frBPanelOff => enc CMD_PANEL TGT_BCAST [PL_PANEL_OFF]
  | .acknak t pl c => frameBytes CMD_ACKNAK t pl c
  | .ack t rest c => frameBytes CMD_ACKNAK t (ACK_BYTE :: rest) c

/-- The `k` low bytes of a number, most significant first: the table's notation, "byte 0 most significant" (R78). -/
def tableBytes : Nat → Nat → List Byte
  | 0, _ => []
  | k + 1, w => tableBytes k (w / 256) ++ [BitVec.ofNat 8 w]

/-- The byte string of a table word of `nbits` bits, every byte after them zero, up to the longest instruction. -/
def tableString (nbits w : Nat) : List Byte :=
  tableBytes (nbits / 8) w ++ List.replicate MAX_FRAME 0

/-- The instruction the decoder reads from a word of spec/opcode_table.json (log 11). -/
def decodeTableWord (nbits w : Nat) : Option Instr :=
  match decode (tableString nbits w) with
  | .instr i _ => some i
  | .rejected _ => none

/-- The bytes of the one instruction at the front of a table string: `5 + N` of a frame, `4 + LEN` of a request. -/
def instructionBytes (bs : List Byte) : List Byte :=
  if bs.head? = some HDR then bs.take (frameLen (payloadLen bs)) else bs.take (PREFIX_LEN + payloadLen bs)

end Sys2Proof
end

