-- ==== Sys2Proof/Machine/State.lean ====
section
/-! DEFINITION. The state of the block as plain data: everything spec/10_state.md gives it, the stream ports' answers as
the free inputs of 00_scope R12, and the parameters of R7. INVENTORY.md lists every field with its rule. -/
namespace Sys2Proof.Machine
open Sys2Proof.Config

/-- `PHASE`, the sequencing state (10_state R23). -/
inductive Phase where
  | idle
  | enc
  | dec
  | tx
  | rxDec
  | rxWait
  | ackChk
  | stDec
  | done
  deriving DecidableEq, Repr

/-- `RESP.CODE` (10_state R29). The values 0x0C to 0xFF, never written, have no constructor. -/
inductive Code where
  | ok
  | incomplete
  | invalidHeader
  | invalidChecksum
  | streamEnded
  | ioRead
  | ioWrite
  | unexpectedResponse
  | nak
  | invalidStatus
  | shortStatus
  | illegalOp
  deriving DecidableEq, Repr

/-- The response record `RESP` (10_state R28). A field that is not present is `none`, never zero (92 D34). -/
structure Resp where
  code : Code
  bytes : Option (List Byte) := none
  frame : Option Frame := none
  consumed : Option Count9 := none
  status : Option (BitVec 1) := none
  badByte : Option Byte := none
  written : Option Count9 := none
  deriving DecidableEq, Repr

/-- The names of the response fields, for the host's reads (10_state R28). -/
inductive RespField where
  | code
  | bytes
  | frame
  | consumed
  | status
  | badByte
  | written
  deriving DecidableEq, Repr

/-- One answer of the RX port (10_state R31): bytes that have arrived, at least one; the end of the stream; an error. -/
inductive RxAnswer where
  | data (b : Byte) (bs : List Byte)
  | ended
  | ioErr
  deriving DecidableEq, Repr

/-- One answer of the TX port (10_state R31). `p` is the number of frame bytes that reached the wire; a draw above the
frame's length means all of them (92 D11; log 9). -/
inductive TxAnswer where
  | ok
  | ioErr (p : Nat)
  deriving DecidableEq, Repr

/-- Why a step stops with a fault. -/
inductive Fault where
  /-- Raised by A_QUERY_POWER and A_QUERY_PANEL: a status reply whose payload has fewer than three bytes. "`E_SHORT_STATUS`
  is a *fault* in a model" (60 R204); it carries the reply, the recorded info of R200. Safe: the model stops where the
  hardware reports. -/
  | shortStatus (f : Frame)
  deriving DecidableEq, Repr

/-- Why a step is refused. -/
inductive Refusal where
  /-- Raised by an arm of `exec` that has no meaning yet. Safe. No arm does. -/
  | notModelled (mnemonic : String)
  /-- Raised by the step: the request's op-code is not in 30_encoding R79. "A model treats such a request as a
  *refusal*" (60 R203). Safe. -/
  | illegalOp (op : Byte)
  /-- Raised by the step: the parameters are outside R7's ranges; "it is outside the spec, and a model refuses it"
  (92 D8, 93 I18). Safe. -/
  | configOutsideSpec
  /-- Raised by the host's read of a response field that is not present (10_state R28, 93 I16). Safe. -/
  | absentField (field : RespField)
  deriving DecidableEq, Repr

/-- The state. -/
structure State where
  /-- The parameters of 00_scope R7; nothing writes them. -/
  cfg : Params
  /-- `RXBUF`, front first (10_state R21). -/
  rxbuf : List Byte
  /-- `SCRATCH`, `SCRATCH_SIZE` bytes from offset 0 (10_state R22). -/
  scratch : List Byte
  /-- `PHASE` (10_state R23). -/
  phase : Phase
  /-- The request port: the byte strings (30_encoding R78) of the requests the host issues, in order. The front one is
  `REQ` (10_state R27); `[]` is "no request pending". -/
  req : List Byte
  /-- `RESP` (10_state R28); `none` is "no response present". -/
  resp : Option Resp
  /-- The number of `RxRead` calls the operation's receive has had answered (10_state R36 (c)). -/
  reads : Nat
  /-- The RX port's answers still to come, first one first (10_state R31): free inputs. `[]` is "no answer". -/
  rx : List RxAnswer
  /-- The TX port's answers still to come, first one first (10_state R31): free inputs. `[]` is "no answer". -/
  tx : List TxAnswer
  /-- The bytes that have reached the wire, in order (20_memory R57). -/
  wire : List Byte
  /-- The bytes arriving on the RX line now, before the RX port holds them (60 R207): free inputs. -/
  line : List Byte
  deriving DecidableEq, Repr

/-- The block right after reset (70 R230, 10_state R37). `scratch`, `reads`, the peer's fields and the OPEN parameters
have no reset value in the spec: DESIGN CHOICE, log 2, 4, 5, 6. -/
def State.reset : State :=
  { cfg := Params.reference, rxbuf := [], scratch := List.replicate Params.reference.scratchSize 0, phase := .idle,
    req := [], resp := none, reads := 0, rx := [], tx := [], wire := [], line := [] }

end Sys2Proof.Machine
end

