-- ==== Sys2Proof/Machine/Flags.lean ====
section
/-! DEFINITION. What stands in for flags on this block, which has none (10_state R26): the response codes' numbers, the
two checks of a reply, and the two status decodes. -/
namespace Sys2Proof.Machine
open Sys2Proof.Config

/-- The number of a response code (10_state R29). -/
def Code.toByte : Code → Byte
  | .ok => 0x00
  | .incomplete => 0x01
  | .invalidHeader => 0x02
  | .invalidChecksum => 0x03
  | .streamEnded => 0x04
  | .ioRead => 0x05
  | .ioWrite => 0x06
  | .unexpectedResponse => 0x07
  | .nak => 0x08
  | .invalidStatus => 0x09
  | .shortStatus => 0x0A
  | .illegalOp => 0x0B

/-- What the handshake finds a reply to be. -/
inductive AckVerdict where
  | unexpected
  | negative
  | positive
  deriving DecidableEq, Repr

/-- The two checks of a reply, in the pseudocode's order (42 R140): the command id, then "A" at payload byte 0, an empty
payload being a negative acknowledgement (R142, R143). Nothing else of the reply is examined (R145). -/
def ackVerdict (f : Frame) : AckVerdict :=
  if f.cmd ≠ CMD_ACKNAK then .unexpected
  else if f.n.toNat = 0 ∨ byteAt f.pl 0 ≠ ACK_BYTE then .negative
  else .positive

/-- The values of a power status (43 R167). Not the same type as a panel status: "implementers must not unify them"
(R168). -/
inductive PowerStatus where
  | on
  | off
  deriving DecidableEq, Repr

/-- The values of a panel status (43 R168). -/
inductive PanelStatus where
  | on
  | off
  deriving DecidableEq, Repr

/-- `POWER_STATUS(b)` (43 R167): 0x00 is on, 0x01 is off, any other byte is invalid. -/
def powerStatus (b : Byte) : Option PowerStatus :=
  if b = ST_POWER_ON then some .on else if b = ST_POWER_OFF then some .off else none

/-- `PANEL_STATUS(b)` (43 R168): 0x00 is off, 0x01 is on, any other byte is invalid. -/
def panelStatus (b : Byte) : Option PanelStatus :=
  if b = ST_PANEL_OFF then some .off else if b = ST_PANEL_ON then some .on else none

/-- `RESP.STATUS` of a power status: 1 = on, 0 = off (10_state R30). -/
def PowerStatus.bit : PowerStatus → BitVec 1
  | .on => 1
  | .off => 0

/-- `RESP.STATUS` of a panel status: 1 = on, 0 = off (10_state R30). -/
def PanelStatus.bit : PanelStatus → BitVec 1
  | .on => 1
  | .off => 0

/-- The status decode A_QUERY_POWER uses. -/
def powerBit (b : Byte) : Option (BitVec 1) := (powerStatus b).map PowerStatus.bit

/-- The status decode A_QUERY_PANEL uses. -/
def panelBit (b : Byte) : Option (BitVec 1) := (panelStatus b).map PanelStatus.bit

end Sys2Proof.Machine
end

