-- ==== Sys2Proof/Machine/Ops.lean ====
section
/-! DEFINITION. The named operations over the state that the meanings share: ending an operation with a response or an
error, the FIFO, the stream ports, and the pseudocode's `SEND_FRAME`, `DECODE_FRONT`, `RECEIVE_FRAME`, `AWAIT_ACK` and
`QUERY`. A blocked operation is a state with PHASE TX or RX_WAIT and its request still on the port; the same meaning,
run again on that state, goes on from the outstanding port call (60 R214; log 3). -/
namespace Sys2Proof.Machine
open Sys2Proof.Config

/-- The outcome of one step of this machine. -/
abbrev Outcome := Host.Outcome State Fault Refusal

/-! ## Ending an operation -/

/-- `PHASE <- p` (10_state R23). -/
def setPhase (p : Phase) (s : State) : State := { s with phase := p }

/-- The end of an operation, success or error: RESP is written, every field it does not list absent; PHASE returns to
IDLE through DONE (42 R141, 60 R201); the request is no longer pending (10_state R32). -/
def finish (r : Resp) (s : State) : State :=
  { s with resp := some r, phase := .idle, req := dropRequest s.req }

/-- `respond(...)` (00_scope R10): the operation ends successfully with code OK and the listed fields. -/
def respond (bytes : Option (List Byte)) (frame : Option Frame) (consumed : Option Count9)
    (status : Option (BitVec 1)) (s : State) : State :=
  finish { code := .ok, bytes := bytes, frame := frame, consumed := consumed, status := status } s

/-- The diagnostic data an error records (60 R200, column "recorded info"). -/
structure ErrorInfo where
  frame : Option Frame := none
  badByte : Option Byte := none
  written : Option Count9 := none
  deriving DecidableEq, Repr

/-- `raise E(info)` (60 R201), the block's one way to take an exception: RESP.CODE is the error's code, the recorded
info is in the response and every other field absent, PHASE is IDLE; no other state changes, and control goes nowhere.
There is no return from it (60 R206): the host issues its next request. -/
def raise (code : Code) (info : ErrorInfo) (s : State) : State :=
  finish { code := code, frame := info.frame, badByte := info.badByte, written := info.written } s

/-! ## The FIFO and the scratch region -/

/-- `Fifo.append(s)` (00_scope R10, 41 R122). -/
def fifoAppend (bs : List Byte) (s : State) : State := { s with rxbuf := s.rxbuf ++ bs }

/-- `Fifo.drop(n)` (00_scope R10). -/
def fifoDrop (n : Nat) (s : State) : State := { s with rxbuf := s.rxbuf.drop n }

/-- `Fifo.clear()` (00_scope R10, 41 R125). -/
def fifoClear (s : State) : State := { s with rxbuf := [] }

/-- A read of `chunk` fills `SCRATCH[0..k)`; the cells beyond keep what they held (10_state R22). -/
def fillScratch (chunk : List Byte) (s : State) : State :=
  { s with scratch := chunk ++ s.scratch.drop chunk.length }

/-! ## The stream ports -/

/-- What `TxWriteAll` answers. -/
inductive TxResult where
  | ok (s : State)
  | ioErr (p : Nat) (s : State)
  | noAnswer
  deriving DecidableEq, Repr

/-- `TxWriteAll(fb)` (10_state R31): all of `fb` reaches the wire, or the first `p` bytes of it (20_memory R54 (b)), or
the port has not answered. DESIGN CHOICE (log 16): until the port answers, none of `fb` is on the wire; with the answer all
the bytes it counts are. The spec gives a count for `Ok` and `IoErr(p)` only. -/
def txWriteAll (fb : List Byte) (s : State) : TxResult :=
  match s.tx with
  | [] => .noAnswer
  | .ok :: later => .ok { s with tx := later, wire := s.wire ++ fb }
  | .ioErr p :: later => .ioErr (min p fb.length) { s with tx := later, wire := s.wire ++ fb.take p }

/-- What `RxRead` answers. -/
inductive RxResult where
  | data (chunk : List Byte) (s : State)
  | ended (s : State)
  | ioErr (s : State)
  | noAnswer
  deriving DecidableEq, Repr

/-- Bytes arriving in the stream, after everything already there (20_memory R51); zero bytes are no arrival. -/
def arriving : List Byte → List RxAnswer
  | [] => []
  | b :: bs => [.data b bs]

/-- `RxRead(SCRATCH_SIZE)` (10_state R31): the port gives at most `SCRATCH_SIZE` of the bytes that have arrived; the
others wait in the stream for the next read (60 R207; log 9). Every byte is delivered once (20_memory R54 (c)). -/
def rxRead (s : State) : RxResult :=
  match s.rx with
  | [] => .noAnswer
  | .data b bs :: later =>
    let chunk := (b :: bs).take s.cfg.scratchSize
    let left := (b :: bs).drop s.cfg.scratchSize
    .data chunk (fillScratch chunk { s with rx := arriving left ++ later, reads := s.reads + 1 })
  | .ended :: later => .ended { s with rx := later, reads := s.reads + 1 }
  | .ioErr :: later => .ioErr { s with rx := later, reads := s.reads + 1 }

/-! ## The pseudocode's shared steps -/

/-- How a shared step of an operation ends: with a value for the rest of the operation, with an error raised, or
blocked on a port. -/
inductive Stage (α : Type) where
  | done (a : α) (s : State)
  | raised (s : State)
  | waits (s : State)
  deriving DecidableEq, Repr

/-- The rest of an operation after a shared step; an error or a wait is the state the step leaves. -/
def Stage.andThen {α : Type} (x : Stage α) (rest : α → State → Outcome) : Outcome :=
  match x with
  | .done a s => rest a s
  | .raised s => .next s
  | .waits s => .next s

/-- `SEND_FRAME(cmd, tgt, pl)` (41 R120). -/
def sendFrame (cmd tgt : Byte) (pl : List Byte) (s : State) : Stage Unit :=
  match txWriteAll (enc cmd tgt pl) (setPhase .tx s) with
  | .ok t => .done () t
  | .ioErr p t => .raised (raise .ioWrite { written := some (BitVec.ofNat 9 p) } t)
  | .noAnswer => .waits (setPhase .tx s)

/-- `DECODE_FRONT()` (40 R104): the buffer is changed only on a whole frame, by the removal of its bytes. -/
def decodeFront (s : State) : DecResult × State :=
  match dec s.cfg.decodeOrder s.rxbuf with
  | .incomplete => (.incomplete, s)
  | .invalidHeader => (.invalidHeader, s)
  | .invalidChecksum => (.invalidChecksum, s)
  | .frame f c => (.frame f c, fifoDrop c s)

/-- One decode of the read loop (41 R121): a frame with its length, a framing error after the clear of R125, or, on
incomplete input (`none`), PHASE RX_WAIT with a read outstanding. -/
def decodeTurn (s : State) : Stage (Option (Frame × Nat)) :=
  match decodeFront (setPhase .rxDec s) with
  | (.frame f c, t) => .done (some (f, c)) t
  | (.invalidHeader, t) => .raised (raise .invalidHeader {} (fifoClear t))
  | (.invalidChecksum, t) => .raised (raise .invalidChecksum {} (fifoClear t))
  | (.incomplete, t) => .done none (setPhase .rxWait t)

/-- One read of the read loop (41 R121 to R124): the chunk goes from SCRATCH to the back of RXBUF; the end of the stream
and a failed read end the operation and leave RXBUF as it was. -/
def readTurn (s : State) : Stage Unit :=
  match rxRead s with
  | .data chunk t => .done () (fifoAppend (t.scratch.take chunk.length) t)
  | .ended t => .raised (raise .streamEnded {} t)
  | .ioErr t => .raised (raise .ioRead {} t)
  | .noAnswer => .waits s

/-- One decode, and the rest of the loop where it found incomplete input (41 R121). -/
def decodeThen (more : State → Stage (Frame × Nat)) (s : State) : Stage (Frame × Nat) :=
  match decodeTurn s with
  | .raised t => .raised t
  | .waits t => .waits t
  | .done (some r) t => .done r t
  | .done none t => more t

/-- The read loop from RX_WAIT on, for at most the given number of reads. After READ_BOUND reads no decode is incomplete
(41 R130); were the number used up all the same, the operation would be left in RX_WAIT and go on at the next step. -/
def readLoop : Nat → State → Stage (Frame × Nat)
  | 0, s => .waits s
  | k + 1, s =>
    match readTurn s with
    | .raised t => .raised t
    | .waits t => .waits t
    | .done _ t => decodeThen (readLoop k) t

/-- `RECEIVE_FRAME()` (41 R121). From RX_WAIT the outstanding read goes on; else the loop starts with a decode. -/
def receiveFrame (s : State) : Stage (Frame × Nat) :=
  if s.phase = .rxWait then readLoop READ_BOUND s else decodeThen (readLoop READ_BOUND) { s with reads := 0 }

/-- `AWAIT_ACK()` (42 R140): the reply frame, or an error that carries it. -/
def awaitAck (s : State) : Stage Frame :=
  match receiveFrame s with
  | .raised t => .raised t
  | .waits t => .waits t
  | .done (f, _) t =>
    match ackVerdict f with
    | .unexpected => .raised (raise .unexpectedResponse { frame := some f } (setPhase .ackChk t))
    | .negative => .raised (raise .nak { frame := some f } (setPhase .ackChk t))
    | .positive => .done f (setPhase .ackChk t)

/-- The reply of a status query (43 R165): acknowledgement-checked or not, by `P_QUERY_ACK_CHECK`. -/
def queryReply (s : State) : Stage Frame :=
  if s.cfg.queryAckCheck then awaitAck s
  else
    match receiveFrame s with
    | .raised t => .raised t
    | .waits t => .waits t
    | .done (f, _) t => .done f t

/-- An operation that sends a frame and then awaits a reply. In RX_WAIT its write has been answered already, and it goes
on with the reply. -/
def sendThen (cmd tgt : Byte) (pl : List Byte) (reply : State → Outcome) (s : State) : Outcome :=
  if s.phase = .rxWait then reply s else (sendFrame cmd tgt pl s).andThen fun _ t => reply t

/-- `SEND_FRAME`, then `AWAIT_ACK`, then `respond(CODE = OK, FRAME = f)` (42 R140, 43 R161). -/
def handshake (cmd tgt : Byte) (pl : List Byte) (s : State) : Outcome :=
  sendThen cmd tgt pl (fun t => (awaitAck t).andThen fun f u => .next (respond none (some f) none none u)) s

/-- The status decode of a query's reply (43 R165): short reply, then the byte's meaning. -/
def statusReply (decodeFn : Byte → Option (BitVec 1)) (f : Frame) (s : State) : Outcome :=
  if f.n.toNat < STATUS_OFFSET + 1 then .fault (.shortStatus f)
  else
    match decodeFn (byteAt f.pl STATUS_OFFSET) with
    | none =>
      .next (raise .invalidStatus { frame := some f, badByte := some (byteAt f.pl STATUS_OFFSET) } s)
    | some v => .next (respond none (some f) none (some v) s)

/-- `QUERY(cmd, t, decodeFn)` (43 R165). -/
def query (cmd tgt : Byte) (decodeFn : Byte → Option (BitVec 1)) (s : State) : Outcome :=
  sendThen cmd tgt [] (fun t => (queryReply t).andThen fun f u => statusReply decodeFn f (setPhase .stDec u)) s

/-- `SEND_FRAME`, then `respond(CODE = OK)`, no reply awaited (41 R120, 43 R169). -/
def sendOnly (cmd tgt : Byte) (pl : List Byte) (s : State) : Outcome :=
  (sendFrame cmd tgt pl s).andThen fun _ t => .next (respond none none none none t)

end Sys2Proof.Machine
end

