-- ==== Sys2Proof/Machine/Ack.lean ====
section
/-! DEFINITION. The ack/nak handshake (spec/42_ack.md). -/
namespace Sys2Proof.Machine

/-- SEND_ACK (42 R140). -/
def execSendAck (cmd tgt : Byte) (pl : List Byte) (s : State) : Outcome := handshake cmd tgt pl s

end Sys2Proof.Machine
end

