-- ==== Sys2Proof/Machine/Addressed.lean ====
section
/-! DEFINITION. The addressed dispatcher operations (spec/43_dispatch.md section 1): any target byte, 0xFE among them
(R160). -/
namespace Sys2Proof.Machine
open Sys2Proof.Config

/-- A_POWER_ON (43 R161). -/
def execAPowerOn (t : Byte) (s : State) : Outcome := handshake CMD_POWER t [PL_POWER_ON] s

/-- A_POWER_OFF (43 R162). -/
def execAPowerOff (t : Byte) (s : State) : Outcome := handshake CMD_POWER t [PL_POWER_OFF] s

/-- A_PANEL_ON (43 R163): payload 0 for panel on, the reverse of power on. -/
def execAPanelOn (t : Byte) (s : State) : Outcome := handshake CMD_PANEL t [PL_PANEL_ON] s

/-- A_PANEL_OFF (43 R164). -/
def execAPanelOff (t : Byte) (s : State) : Outcome := handshake CMD_PANEL t [PL_PANEL_OFF] s

/-- A_QUERY_POWER (43 R165). -/
def execAQueryPower (t : Byte) (s : State) : Outcome := query CMD_POWER t powerBit s

/-- A_QUERY_PANEL (43 R166). -/
def execAQueryPanel (t : Byte) (s : State) : Outcome := query CMD_PANEL t panelBit s

end Sys2Proof.Machine
end

