-- ==== Sys2Proof/Machine/Broadcast.lean ====
section
/-! DEFINITION. The broadcast dispatcher operations (spec/43_dispatch.md section 2): target 0xFE, plain send, no reply
awaited (R169). -/
namespace Sys2Proof.Machine
open Sys2Proof.Config

/-- B_POWER_ON (43 R170). -/
def execBPowerOn (s : State) : Outcome := sendOnly CMD_POWER TGT_BCAST [PL_POWER_ON] s

/-- B_POWER_OFF (43 R171). -/
def execBPowerOff (s : State) : Outcome := sendOnly CMD_POWER TGT_BCAST [PL_POWER_OFF] s

/-- B_PANEL_ON (43 R172). -/
def execBPanelOn (s : State) : Outcome := sendOnly CMD_PANEL TGT_BCAST [PL_PANEL_ON] s

/-- B_PANEL_OFF (43 R173). -/
def execBPanelOff (s : State) : Outcome := sendOnly CMD_PANEL TGT_BCAST [PL_PANEL_OFF] s

end Sys2Proof.Machine
end

