-- ==== Sys2Proof/Machine/Codec.lean ====
section
/-! DEFINITION. The frame codec's two operations (spec/40_codec.md). -/
namespace Sys2Proof.Machine

/-- ENCODE (40 R101): the frame's bytes in the response; nothing else is written and no port is used. -/
def execEncode (cmd tgt : Byte) (pl : List Byte) (s : State) : Outcome :=
  .next (respond (some (enc cmd tgt pl)) none none none (setPhase .enc s))

/-- DECODE (40 R105): the codec's own policy, no read and no clear. -/
def execDecode (s : State) : Outcome :=
  match decodeFront (setPhase .dec s) with
  | (.frame f c, t) => .next (respond none (some f) (some (BitVec.ofNat 9 c)) none t)
  | (.incomplete, t) => .next (raise .incomplete {} t)
  | (.invalidHeader, t) => .next (raise .invalidHeader {} t)
  | (.invalidChecksum, t) => .next (raise .invalidChecksum {} t)

end Sys2Proof.Machine
end

