-- ==== Sys2Proof/Machine/Session.lean ====
section
/-! DEFINITION. The stream session's two operations (spec/41_session.md). -/
namespace Sys2Proof.Machine

/-- SEND (41 R120). -/
def execSend (cmd tgt : Byte) (pl : List Byte) (s : State) : Outcome := sendOnly cmd tgt pl s

/-- RECEIVE (41 R121). -/
def execReceive (s : State) : Outcome :=
  (receiveFrame s).andThen fun r t => .next (respond none (some r.1) (some (BitVec.ofNat 9 r.2)) none t)

end Sys2Proof.Machine
end

