-- ==== Sys2Proof/Machine/Wire.lean ====
section
/-! DEFINITION. The wire-frame rows (30_encoding R70, R84). A frame's bytes never become a request (20_memory R60); on the
block's input a frame comes from the peer. So the meaning of each row is that the frame arrives on the RX port: its bytes
wait in the stream, after everything there, until a read takes them (60 R207, 20_memory R51), and an operation blocked in
RX_WAIT is answered with them and moves on (42 R141, 60 R214). Log 7. -/
namespace Sys2Proof.Machine
open Sys2Proof.Config

/-- The operation of a request that is blocked in RX_WAIT goes on with the port's answer. Only the operations that
receive can be blocked there; for any other instruction nothing goes on. -/
def resumeReceive (i : Instr) (s : State) : Outcome :=
  match i with
  | .receive => execReceive s
  | .sendAck cmd tgt pl => execSendAck cmd tgt pl s
  | .aPowerOn t => execAPowerOn t s
  | .aPowerOff t => execAPowerOff t s
  | .aPanelOn t => execAPanelOn t s
  | .aPanelOff t => execAPanelOff t s
  | .aQueryPower t => execAQueryPower t s
  | .aQueryPanel t => execAQueryPanel t s
  | .encode _ _ _ => .next s
  | .decode => .next s
  | .send _ _ _ => .next s
  | .bPowerOn => .next s
  | .bPowerOff => .next s
  | .bPanelOn => .next s
  | .bPanelOff => .next s
  | .frame _ _ _ _ => .next s
  | .frAPowerOn _ _ => .next s
  | .frAPowerOff _ _ => .next s
  | .frAPanelOn _ _ => .next s
  | .frAPanelOff _ _ => .next s
  | .frPwrGet _ _ => .next s
  | .frPnlGet _ _ => .next s
  | .frBPowerOn => .next s
  | .frBPowerOff => .next s
  | .frBPanelOn => .next s
  | .frBPanelOff => .next s
  | .acknak _ _ _ => .next s
  | .ack _ _ _ => .next s

/-- The stream after bytes have arrived, after everything there (20_memory R51). DESIGN CHOICE (log 15): the bytes of one
arrival are one answer of the RX port, never joined with bytes that wait already and never split but at SCRATCH_SIZE; the
spec leaves the chunk length to the peer (10_state R31, 93 I5), and with it what a clear discards (41 R125, 70 R236, R237).
A stream cut in any other way is another value of `rx`. -/
def deliver (bs : List Byte) (s : State) : State := { s with rx := s.rx ++ arriving bs }

/-- The arrival of bytes (log 7, 15): into the stream, and, in RX_WAIT, on to the operation whose read is outstanding. -/
def arrive (bs : List Byte) (s : State) : Outcome :=
  if s.phase = .rxWait then
    match decodeRequest s.req with
    | .instr i _ => resumeReceive i (deliver bs s)
    | .rejected _ => .next (deliver bs s)
  else .next (deliver bs s)

/-- FRAME (30 R70, R74): any command id and target id pass; as a reply its command id is unexpected (42 R142). -/
def execFrame (cmd tgt : Byte) (pl : List Byte) (c : Byte) (s : State) : Outcome :=
  arrive (encode (.frame cmd tgt pl c)) s

/-- FR_A_POWER_ON (30 R84), the frame of A_POWER_ON, here on the input; "a reply that echoes the request's own command id,
for example 0x11, is also unexpected" (42 R142). -/
def execFrAPowerOn (t c : Byte) (s : State) : Outcome := arrive (encode (.frAPowerOn t c)) s

/-- FR_A_POWER_OFF (30 R84), the frame of A_POWER_OFF, on the input. -/
def execFrAPowerOff (t c : Byte) (s : State) : Outcome := arrive (encode (.frAPowerOff t c)) s

/-- FR_A_PANEL_ON (30 R84), the frame of A_PANEL_ON, on the input. -/
def execFrAPanelOn (t c : Byte) (s : State) : Outcome := arrive (encode (.frAPanelOn t c)) s

/-- FR_A_PANEL_OFF (30 R84), the frame of A_PANEL_OFF, on the input. -/
def execFrAPanelOff (t c : Byte) (s : State) : Outcome := arrive (encode (.frAPanelOff t c)) s

/-- FR_PWR_GET (30 R84), the frame of A_QUERY_POWER, on the input. -/
def execFrPwrGet (t c : Byte) (s : State) : Outcome := arrive (encode (.frPwrGet t c)) s

/-- FR_PNL_GET (30 R84), the frame of A_QUERY_PANEL, on the input. -/
def execFrPnlGet (t c : Byte) (s : State) : Outcome := arrive (encode (.frPnlGet t c)) s

/-- FR_B_POWER_ON (30 R84), the frame of B_POWER_ON, on the input. -/
def execFrBPowerOn (s : State) : Outcome := arrive (encode .frBPowerOn) s

/-- FR_B_POWER_OFF (30 R84), the frame of B_POWER_OFF, on the input. -/
def execFrBPowerOff (s : State) : Outcome := arrive (encode .frBPowerOff) s

/-- FR_B_PANEL_ON (30 R84), the frame of B_PANEL_ON, on the input. -/
def execFrBPanelOn (s : State) : Outcome := arrive (encode .frBPanelOn) s

/-- FR_B_PANEL_OFF (30 R84), the frame of B_PANEL_OFF, on the input. -/
def execFrBPanelOff (s : State) : Outcome := arrive (encode .frBPanelOff) s

/-- ACKNAK (42 R142, R143): a reply with the acknowledge command id whose payload byte 0 is not "A", or absent. -/
def execAcknak (t : Byte) (pl : List Byte) (c : Byte) (s : State) : Outcome := arrive (encode (.acknak t pl c)) s

/-- ACK (42 R143, R144): a positive acknowledgement. -/
def execAck (t : Byte) (rest : List Byte) (c : Byte) (s : State) : Outcome := arrive (encode (.ack t rest c)) s

end Sys2Proof.Machine
end

