-- ==== Sys2Proof/Machine/Dispatch.lean ====
section
/-! DEFINITION. One arm per constructor of Instr. -/
namespace Sys2Proof.Machine

def exec (i : Instr) (s : State) : Host.Outcome State Fault Refusal :=
  match i with
  -- the host operations of 30_encoding R79
  | .encode cmd tgt pl => Sys2Proof.Machine.execEncode cmd tgt pl s
  | .decode => Sys2Proof.Machine.execDecode s
  | .send cmd tgt pl => Sys2Proof.Machine.execSend cmd tgt pl s
  | .receive => Sys2Proof.Machine.execReceive s
  | .sendAck cmd tgt pl => Sys2Proof.Machine.execSendAck cmd tgt pl s
  | .aPowerOn tgt => Sys2Proof.Machine.execAPowerOn tgt s
  | .aPowerOff tgt => Sys2Proof.Machine.execAPowerOff tgt s
  | .aPanelOn tgt => Sys2Proof.Machine.execAPanelOn tgt s
  | .aPanelOff tgt => Sys2Proof.Machine.execAPanelOff tgt s
  | .aQueryPower tgt => Sys2Proof.Machine.execAQueryPower tgt s
  | .aQueryPanel tgt => Sys2Proof.Machine.execAQueryPanel tgt s
  | .bPowerOn => Sys2Proof.Machine.execBPowerOn s
  | .bPowerOff => Sys2Proof.Machine.execBPowerOff s
  | .bPanelOn => Sys2Proof.Machine.execBPanelOn s
  | .bPanelOff => Sys2Proof.Machine.execBPanelOff s
  -- the wire-frame rows of 30_encoding R70 and R84
  | .frame cmd tgt pl csum => Sys2Proof.Machine.execFrame cmd tgt pl csum s
  | .frAPowerOn tgt csum => Sys2Proof.Machine.execFrAPowerOn tgt csum s
  | .frAPowerOff tgt csum => Sys2Proof.Machine.execFrAPowerOff tgt csum s
  | .frAPanelOn tgt csum => Sys2Proof.Machine.execFrAPanelOn tgt csum s
  | .frAPanelOff tgt csum => Sys2Proof.Machine.execFrAPanelOff tgt csum s
  | .frPwrGet tgt csum => Sys2Proof.Machine.execFrPwrGet tgt csum s
  | .frPnlGet tgt csum => Sys2Proof.Machine.execFrPnlGet tgt csum s
  | .frBPowerOn => Sys2Proof.Machine.execFrBPowerOn s
  | .frBPowerOff => Sys2Proof.Machine.execFrBPowerOff s
  | .frBPanelOn => Sys2Proof.Machine.execFrBPanelOn s
  | .frBPanelOff => Sys2Proof.Machine.execFrBPanelOff s
  | .acknak tgt pl csum => Sys2Proof.Machine.execAcknak tgt pl csum s
  | .ack tgt rest csum => Sys2Proof.Machine.execAck tgt rest csum s

end Sys2Proof.Machine
end

