-- ==== Sys2Proof/Machine/Fsm.lean ====
section
/-! DEFINITION. The handshake as the finite-state machine of 42 R141, one transition a step, beside the pseudocode's form
in Ops (which governs). It is the state table of SEND_ACK and of the mutating `A_*` operations; the row of ST_DEC belongs
to the queries (43 R165). -/
namespace Sys2Proof.Machine
open Sys2Proof.Config

/-- The FSM's state: the machine's, with the frame the decode has handed to ACK_CHK. -/
structure Fsm where
  st : State
  held : Option Frame
  deriving DecidableEq, Repr

/-- Enter DONE: the action writes RESP; the response is handed over on the way to IDLE. -/
def fsmDone (r : Resp) (s : State) : Fsm := { st := { s with resp := some r, phase := .done }, held := none }

/-- One transition of the table of 42 R141 for the request `(cmd, tgt, pl)`. -/
def fsmStep (cmd tgt : Byte) (pl : List Byte) (m : Fsm) : Fsm :=
  match m.st.phase with
  | .idle => { m with st := setPhase .tx m.st }
  | .tx =>
    match txWriteAll (enc cmd tgt pl) m.st with
    | .noAnswer => m
    | .ioErr p s => fsmDone { code := .ioWrite, written := some (BitVec.ofNat 9 p) } s
    | .ok s => { m with st := setPhase .rxDec { s with reads := 0 } }
  | .rxDec =>
    match dec m.st.cfg.decodeOrder m.st.rxbuf with
    | .frame f c => { st := setPhase .ackChk (fifoDrop c m.st), held := some f }
    | .incomplete => { m with st := setPhase .rxWait m.st }
    | .invalidHeader => fsmDone { code := .invalidHeader } (fifoClear m.st)
    | .invalidChecksum => fsmDone { code := .invalidChecksum } (fifoClear m.st)
  | .rxWait =>
    match rxRead m.st with
    | .noAnswer => m
    | .data chunk s => { m with st := setPhase .rxDec (fifoAppend chunk s) }
    | .ended s => fsmDone { code := .streamEnded } s
    | .ioErr s => fsmDone { code := .ioRead } s
  | .ackChk =>
    match m.held with
    | none => m
    | some f =>
      match ackVerdict f with
      | .unexpected => fsmDone { code := .unexpectedResponse, frame := some f } m.st
      | .negative => fsmDone { code := .nak, frame := some f } m.st
      | .positive => fsmDone { code := .ok, frame := some f } m.st
  | .done => { m with st := { m.st with phase := .idle, req := dropRequest m.st.req } }
  | .enc => m
  | .dec => m
  | .stDec => m

/-- `n` transitions. -/
def fsmRun (cmd tgt : Byte) (pl : List Byte) : Nat → Fsm → Fsm
  | 0, m => m
  | n + 1, m => fsmRun cmd tgt pl n (fsmStep cmd tgt pl m)

end Sys2Proof.Machine
end

