-- ==== Sys2Proof/Machine/HostPort.lean ====
section
/-! DEFINITION. What the host does to the block besides issuing requests: it reads response fields (10_state R28), sees the
block busy or idle (R23), and resets it (70 R230). These are inputs, not instructions; no step takes them. -/
namespace Sys2Proof.Machine

/-- The value of a response field. -/
inductive RespValue where
  | code (c : Byte)
  | bytes (bs : List Byte)
  | frame (f : Frame)
  | consumed (n : Count9)
  | status (b : BitVec 1)
  | badByte (b : Byte)
  | written (n : Count9)
  deriving DecidableEq, Repr

/-- The value of a field of a response, if it is present. -/
def Resp.field (r : Resp) : RespField → Option RespValue
  | .code => some (.code r.code.toByte)
  | .bytes => r.bytes.map .bytes
  | .frame => r.frame.map .frame
  | .consumed => r.consumed.map .consumed
  | .status => r.status.map .status
  | .badByte => r.badByte.map .badByte
  | .written => r.written.map .written

/-- The host reads a field of RESP: "a read of an absent field is a refusal, not a zero" (10_state R28). -/
def hostRead (field : RespField) (s : State) : Host.Outcome RespValue Fault Refusal :=
  match s.resp.bind (·.field field) with
  | some v => .next v
  | none => .refused (.absentField field)

/-- All of PHASE the host can observe (10_state R23). -/
def busy (s : State) : Bool := decide (s.phase ≠ .idle)

/-- A reset of the block (70 R230): the block's own state takes the values of 10_state R37; the parameters and the peer's
state are not the block's (R37, R232). SCRATCH, unspecified after a reset, keeps what it holds (log 4). -/
def applyReset (s : State) : State :=
  { s with rxbuf := State.reset.rxbuf, phase := State.reset.phase, req := State.reset.req, resp := State.reset.resp,
           reads := State.reset.reads }

end Sys2Proof.Machine
end

