-- ==== Sys2Proof/Machine/Step.lean ====
section
/-! DEFINITION. One step: a move of one agent. Bytes on the RX line arrive first (the peer's move); else the framer runs,
or goes on with, the request at the front of the request port; with no whole request there it waits (70 R230). -/
namespace Sys2Proof.Machine

/-- One step (log 3). A configuration outside 00_scope R7 is refused (93 I18), and so is an unassigned op-code (60 R203).
Bytes on the line that are no whole frame arrive too: a chunk may hold any bytes (20_memory R52). -/
def step (s : State) : Host.Outcome State Fault Refusal :=
  if s.cfg.ok = false then .refused .configOutsideSpec
  else if s.line ≠ [] then
    match decodeWire s.line with
    | .instr i rest => exec i { s with line := rest }
    | .rejected _ => arrive s.line { s with line := [] }
  else
    match decodeRequest s.req with
    | .instr i _ => exec i s
    | .rejected .incomplete => .next s
    | .rejected (.illegalOp op) => .refused (.illegalOp op)
    | .rejected .notAFrame => .next s

/-- `s` with the instruction of a table word where the next step finds it: a request on the request port, with nothing on
the line; a frame on the line (log 11). -/
def State.withFetchWord (s : State) (nbits w : Nat) : State :=
  let bs := tableString nbits w
  if bs.head? = some Config.HDR then { s with line := instructionBytes bs }
  else { s with line := [], req := instructionBytes bs }

end Sys2Proof.Machine
end

