-- ==== Sys2Proof/Safety.lean ====
section
/-! DEFINITION. What counts as a safe state and a safe run, in the terms the statements use. -/
namespace Sys2Proof.Machine
open Sys2Proof.Config

/-- The phases in which a state stands between steps: IDLE between operations (10_state R23), TX and RX_WAIT in a blocked
operation (60 R214). -/
def restingPhase (p : Phase) : Bool := decide (p = .idle ∨ p = .tx ∨ p = .rxWait)

/-- A frame record's payload has as many bytes as its length field says (10_state R33). -/
def frameSound (f : Frame) : Bool := decide (f.pl.length = f.n.toNat)

/-- A response has exactly the fields of 10_state R28 and 60 R200 for its code, with their ranges. E_SHORT_STATUS is a
fault and an illegal op-code a refusal in this model, so no response has those codes. -/
def respSound (r : Resp) : Bool :=
  match r.code with
  | .ok =>
    decide (r = { code := .ok }) ||
    r.bytes.any (fun bs => decide (5 ≤ bs.length ∧ bs.length ≤ MAX_FRAME) && decide (r = { code := .ok, bytes := some bs })) ||
    r.frame.any (fun f => frameSound f &&
      (decide (r = { code := .ok, frame := some f }) ||
        decide (r = { code := .ok, frame := some f, consumed := some (BitVec.ofNat 9 (frameLen f.n.toNat)) }) ||
        r.status.any (fun v => decide (r = { code := .ok, frame := some f, status := some v }))))
  | .incomplete => decide (r = { code := .incomplete })
  | .invalidHeader => decide (r = { code := .invalidHeader })
  | .invalidChecksum => decide (r = { code := .invalidChecksum })
  | .streamEnded => decide (r = { code := .streamEnded })
  | .ioRead => decide (r = { code := .ioRead })
  | .ioWrite => r.written.any (fun p => decide (p.toNat ≤ MAX_FRAME) && decide (r = { code := .ioWrite, written := some p }))
  | .unexpectedResponse => r.frame.any (fun f => frameSound f && decide (r = { code := .unexpectedResponse, frame := some f }))
  | .nak => r.frame.any (fun f => frameSound f && decide (r = { code := .nak, frame := some f }))
  | .invalidStatus =>
    r.frame.any (fun f => frameSound f &&
      r.badByte.any (fun b => decide (r = { code := .invalidStatus, frame := some f, badByte := some b })))
  | .shortStatus => false
  | .illegalOp => false

/-- The invariant of the machine: the parameters are in R7's ranges; PHASE rests; RXBUF holds at most
`259 + SCRATCH_SIZE` bytes (20_memory R62), hence fits the FIFO (10_state R21), and SCRATCH has its size (R22); a state
in RX_WAIT has an incomplete frame at the front of RXBUF (41 R128), and each read its receive has had answered brought a
byte (41 R130); the count of reads is at most 260 (41 R130, 10_state R36 (c)); a present response is sound (10_state
R28). -/
structure MachineInv (s : State) : Prop where
  config : s.cfg.ok = true
  phase : restingPhase s.phase = true
  rxbuf : s.rxbuf.length ≤ MAX_FRAME - 1 + s.cfg.scratchSize
  scratch : s.scratch.length = s.cfg.scratchSize
  waiting : s.phase = .rxWait → dec s.cfg.decodeOrder s.rxbuf = .incomplete
  counted : s.phase = .rxWait → s.reads ≤ s.rxbuf.length
  readBound : s.reads ≤ READ_BOUND
  response : ∀ r, s.resp = some r → respSound r = true

/-! ## The reads of one receive -/

/-- SCRATCH after reads of these chunks, in order (10_state R22). -/
def scratchAfter : List (List Byte) → List Byte → List Byte
  | [], sc => sc
  | c :: cs, sc => scratchAfter cs (c ++ sc.drop c.length)

/-- From `s`, a receive takes exactly these chunks before it ends or waits, and then meets the answers `later`: every
chunk is one read's (41 R122), and each was asked for because the bytes held until then decode as incomplete input
(41 R128). -/
structure ReadsTo (s : State) (chunks : List (List Byte)) (later : List RxAnswer) : Prop where
  sizes : ∀ c ∈ chunks, c ≠ [] ∧ c.length ≤ s.cfg.scratchSize
  stream : s.rx = chunks.flatMap arriving ++ later
  demand : ∀ k < chunks.length, dec s.cfg.decodeOrder (s.rxbuf ++ (chunks.take k).flatten) = .incomplete

/-- RXBUF after reads of these chunks (41 R122). -/
def bufAfter (s : State) (chunks : List (List Byte)) : List Byte := s.rxbuf ++ chunks.flatten

/-- A receive that runs from `s` has had `n` reads answered before: none where it starts now; those of its wait where it
was left in RX_WAIT, with an incomplete frame held (41 R128, and the invariant's `waiting`). -/
def Started (s : State) (n : Nat) : Prop :=
  (s.phase ≠ .rxWait ∧ n = 0) ∨
  (s.phase = .rxWait ∧ n = s.reads ∧ dec s.cfg.decodeOrder s.rxbuf = .incomplete)

/-- The state after reads of these chunks, `n` reads answered before them, with RXBUF `buf` and the answers `later` still to
come. -/
def afterReads (s : State) (n : Nat) (chunks : List (List Byte)) (later : List RxAnswer) (buf : List Byte) : State :=
  { s with rxbuf := buf, scratch := scratchAfter chunks s.scratch, reads := n + chunks.length, rx := later }

/-- The bytes waiting in a stream whose answers are these (60 R207). -/
def streamBytes (rx : List RxAnswer) : List Byte :=
  rx.flatMap fun a =>
    match a with
    | .data b bs => b :: bs
    | .ended => []
    | .ioErr => []

/-! ## Which instruction sends what -/

/-- The fields of the frame an operation that awaits an acknowledgement sends (42 R140, 30_encoding R83). -/
def handshakeFields : Instr → Option (Byte × Byte × List Byte)
  | .sendAck cmd tgt pl => some (cmd, tgt, pl)
  | .aPowerOn t => some (CMD_POWER, t, [PL_POWER_ON])
  | .aPowerOff t => some (CMD_POWER, t, [PL_POWER_OFF])
  | .aPanelOn t => some (CMD_PANEL, t, [PL_PANEL_ON])
  | .aPanelOff t => some (CMD_PANEL, t, [PL_PANEL_OFF])
  | _ => none

/-- The fields of the query frame of a status query, and its status decode (43 R165, R166). -/
def queryFields : Instr → Option (Byte × Byte × (Byte → Option (BitVec 1)))
  | .aQueryPower t => some (CMD_POWER, t, powerBit)
  | .aQueryPanel t => some (CMD_PANEL, t, panelBit)
  | _ => none

/-- The fields of the frame an operation that awaits no reply sends (41 R120, 43 R169). -/
def sendFields : Instr → Option (Byte × Byte × List Byte)
  | .send cmd tgt pl => some (cmd, tgt, pl)
  | .bPowerOn => some (CMD_POWER, TGT_BCAST, [PL_POWER_ON])
  | .bPowerOff => some (CMD_POWER, TGT_BCAST, [PL_POWER_OFF])
  | .bPanelOn => some (CMD_PANEL, TGT_BCAST, [PL_PANEL_ON])
  | .bPanelOff => some (CMD_PANEL, TGT_BCAST, [PL_PANEL_OFF])
  | _ => none

/-- The bytes an operation writes when its write-all succeeds; none for an instruction that never writes. -/
def sentBytes (i : Instr) : List Byte :=
  match handshakeFields i, queryFields i, sendFields i with
  | some (cmd, tgt, pl), _, _ => enc cmd tgt pl
  | none, some (cmd, tgt, _), _ => enc cmd tgt []
  | none, none, some (cmd, tgt, pl) => enc cmd tgt pl
  | none, none, none => []

/-- The operations that receive a frame: RECEIVE, and those that await a reply. -/
def receives (i : Instr) : Prop := i = .receive ∨ handshakeFields i ≠ none ∨ queryFields i ≠ none

/-- The operation's write, if it has one, has succeeded, and `t` is the state after it: the TX port gave its answer and
the frame is on the wire. RECEIVE has no write. -/
def Written (i : Instr) (s t : State) : Prop :=
  (i = .receive ∧ t = s) ∨
  ((handshakeFields i ≠ none ∨ queryFields i ≠ none) ∧
    ∃ later, s.tx = .ok :: later ∧ t = { s with tx := later, wire := s.wire ++ sentBytes i })

/-- The operation stands at its reads in state `t`, with `n` of them answered before: it starts now, its write, if it has
one, succeeding; or it goes on from RX_WAIT, its write answered long ago. -/
def Reading (i : Instr) (s t : State) (n : Nat) : Prop :=
  Started s n ∧ ((s.phase ≠ .rxWait ∧ Written i s t) ∨ (s.phase = .rxWait ∧ receives i ∧ t = s))

/-- A reply passes the checks of the handshake (42 R140): the acknowledge command id, and "A" first. -/
def positive (f : Frame) : Prop := f.cmd = CMD_ACKNAK ∧ f.pl.head? = some ACK_BYTE

/-- The operation checks its reply: SEND_ACK and the mutating `A_*` operations always, a query when `P_QUERY_ACK_CHECK`
holds (43 R165). -/
def checksReply (i : Instr) (s : State) : Prop :=
  handshakeFields i ≠ none ∨ (queryFields i ≠ none ∧ s.cfg.queryAckCheck = true)

/-- A status reply too short to hold a status (60 R204): `f` has passed the check of the reply, where there is one, and its
frame stands at the front of the bytes the block holds, those waiting in the stream, and `more`. -/
def ShortReply (s : State) (more : List Byte) (f : Frame) : Prop :=
  f.n.toNat < STATUS_OFFSET + 1 ∧ (s.cfg.queryAckCheck = true → positive f) ∧
    enc f.cmd f.tgt f.pl <+: s.rxbuf ++ streamBytes s.rx ++ more

/-! ## A frame that arrives while an operation is blocked -/

/-- The request at the front of the port is `j`, blocked in RX_WAIT: the bytes held, if any, are no whole frame, and the
stream is empty; `more` is on the port behind it. -/
structure Blocked (s : State) (j : Instr) (more : List Byte) : Prop where
  phase : s.phase = .rxWait
  stream : s.rx = []
  held : dec s.cfg.decodeOrder s.rxbuf = .incomplete
  request : decodeRequest s.req = .instr j more

/-- The state after the one read that takes the frame of `i` whole, with RXBUF `buf`. -/
def afterArrival (s : State) (i : Instr) (buf : List Byte) : State :=
  { s with rxbuf := buf, scratch := encode i ++ s.scratch.drop (encode i).length, reads := s.reads + 1 }

/-- An outcome with one part of its next state forgotten: what is left is what that part cannot influence. -/
def forget (f : State → State) (o : Outcome) : Outcome :=
  match o with
  | .next t => .next (f t)
  | .fault r => .fault r
  | .refused r => .refused r

/-- A frame's fields with the checksum byte R100 gives. -/
def checked (cmd tgt : Byte) (pl : List Byte) : Byte × Byte × List Byte × Byte :=
  (cmd, tgt, pl, csum cmd tgt (lenByte pl) pl)

/-- The frame of a wire row, and its checksum byte; none for a request. -/
def wireFields : Instr → Option (Byte × Byte × List Byte × Byte)
  | .frame cmd tgt pl c => some (cmd, tgt, pl, c)
  | .frAPowerOn t c => some (CMD_POWER, t, [PL_POWER_ON], c)
  | .frAPowerOff t c => some (CMD_POWER, t, [PL_POWER_OFF], c)
  | .frAPanelOn t c => some (CMD_PANEL, t, [PL_PANEL_ON], c)
  | .frAPanelOff t c => some (CMD_PANEL, t, [PL_PANEL_OFF], c)
  | .frPwrGet t c => some (CMD_POWER, t, [], c)
  | .frPnlGet t c => some (CMD_PANEL, t, [], c)
  | .frBPowerOn => some (checked CMD_POWER TGT_BCAST [PL_POWER_ON])
  | .frBPowerOff => some (checked CMD_POWER TGT_BCAST [PL_POWER_OFF])
  | .frBPanelOn => some (checked CMD_PANEL TGT_BCAST [PL_PANEL_ON])
  | .frBPanelOff => some (checked CMD_PANEL TGT_BCAST [PL_PANEL_OFF])
  | .acknak t pl c => some (CMD_ACKNAK, t, pl, c)
  | .ack t rest c => some (CMD_ACKNAK, t, ACK_BYTE :: rest, c)
  | .encode _ _ _ => none
  | .decode => none
  | .send _ _ _ => none
  | .receive => none
  | .sendAck _ _ _ => none
  | .aPowerOn _ => none
  | .aPowerOff _ => none
  | .aPanelOn _ => none
  | .aPanelOff _ => none
  | .aQueryPower _ => none
  | .aQueryPanel _ => none
  | .bPowerOn => none
  | .bPowerOff => none
  | .bPanelOn => none
  | .bPanelOff => none

end Sys2Proof.Machine
end

