-- ==== Sys2Proof/Certificates/Slice0/Obligations.lean ====
section
/-! DEFINITION. The statements for the provers. Each docstring names the rules of spec/ it formalises. Every statement
holds for every value of the OPEN parameters of 00_scope R7, which are a field of the state, and for every answer of the
peer. Of the free inputs (`rx`, `tx`, `line`) and of SCRATCH no statement rests on a reset value, except the two that say
what reset is (log 4, 6). The constants of 00_scope R6 stand under their names (93 I1), except in SpecWordsDecode,
DispatcherFramesFixed, DispatcherOpsExpand, StatusDecodesAsymmetric and ArrivingReplySettlesQuery, which say the DOC's
literals. -/
open Sys2Proof Sys2Proof.Machine Sys2Proof.Config

/-! ## Reset, the step, the invariant -/

/-- 70 R230, 10_state R37: after a reset RXBUF is empty, PHASE is IDLE, no request is pending and no response is present;
the block waits for its first request; a reset leaves the parameters and the peer alone. Nothing is said of SCRATCH, which
is unspecified (log 4), and nothing of the port scripts and the parameters of State.reset, which are the model's choice
(log 2, 6). -/
def Obligations.ResetLeavesCleanBlock : Prop :=
  (State.reset.rxbuf = [] ∧ State.reset.phase = .idle ∧ State.reset.req = [] ∧ State.reset.resp = none) ∧
  (∀ s : State, (applyReset s).rxbuf = [] ∧ (applyReset s).phase = .idle ∧ (applyReset s).req = [] ∧
    (applyReset s).resp = none ∧ (applyReset s).cfg = s.cfg ∧ (applyReset s).rx = s.rx ∧
    (applyReset s).tx = s.tx ∧ (applyReset s).wire = s.wire ∧ (applyReset s).line = s.line) ∧
  (∀ s : State, s.cfg.ok = true → s.line = [] → step (applyReset s) = .next (applyReset s))

/-- The invariant holds at reset. That SCRATCH has its full length there (log 4) and that the count of reads is 0 (log 5)
are the model's choices. -/
def Obligations.ResetMeetsInvariant : Prop := MachineInv State.reset

/-- 20_memory R62, 10_state R21, R22, R23, R28, R33: every step keeps the invariant, from every state that meets it. -/
def Obligations.StepKeepsInvariant : Prop :=
  ∀ s t : State, MachineInv s → step s = .next t → MachineInv t

/-- 20_memory R57, 10_state R25, R32: with nothing on the line, a step on a whole pending request runs that request. When
the operation ends, a response is there, its request is off the port and the bytes after it stay; when it blocks, the
request stays pending and the response is as before. That requests stand on the port as one byte string is the model's
choice (log 12). -/
def Obligations.StepRunsPendingRequest : Prop :=
  ∀ (s : State) (i : Instr) (rest : List Byte), s.cfg.ok = true → s.line = [] → decodeRequest s.req = .instr i rest →
    step s = exec i s ∧ dropRequest s.req = rest ∧
    ∀ t, exec i s = .next t →
      (t.phase = .idle ∧ t.req = rest ∧ t.resp ≠ none) ∨
      ((t.phase = .tx ∨ t.phase = .rxWait) ∧ t.req = s.req ∧ t.resp = s.resp)

/-- 60 R207, 20_memory R51, R52, 42 R141: with a whole frame on the line, a step runs that frame's row and the bytes after
it stay on the line; other bytes on the line arrive as they are. Arriving bytes wait in the stream after everything there;
where a receiving operation is blocked in RX_WAIT, it goes on with them in the stream. That the line goes before the request
is the model's choice (log 3), and so is that the bytes of one arrival are one answer of the port (log 15); that the
operation goes on in the same step is log 7. -/
def Obligations.StepTakesArrivingBytes : Prop :=
  (∀ s : State, s.cfg.ok = true → s.line ≠ [] →
    (∀ i rest, decodeWire s.line = .instr i rest → step s = exec i { s with line := rest }) ∧
    (∀ r, decodeWire s.line = .rejected r → step s = arrive s.line { s with line := [] })) ∧
  (∀ (bs : List Byte) (s : State),
    (s.phase ≠ .rxWait → arrive bs s = .next { s with rx := s.rx ++ arriving bs }) ∧
    (s.phase = .rxWait →
      (∀ j rest, decodeRequest s.req = .instr j rest → receives j →
        arrive bs s = exec j { s with rx := s.rx ++ arriving bs }) ∧
      ((∀ j rest, decodeRequest s.req = .instr j rest → ¬ receives j) →
        arrive bs s = .next { s with rx := s.rx ++ arriving bs })))

/-- 60 R214, 70 R234, 41 R127: an operation blocked in TX or RX_WAIT is left as it is by every step while its port does
not answer. That none of a frame is on the wire until its write is answered is the model's choice (log 16). -/
def Obligations.BlockedOperationWaits : Prop :=
  ∀ (s : State) (i : Instr) (rest : List Byte), s.cfg.ok = true → s.line = [] →
    decodeRequest s.req = .instr i rest →
    (s.phase = .tx → s.tx = [] → sentBytes i ≠ [] → step s = .next s) ∧
    (s.phase = .rxWait → s.rx = [] → receives i → step s = .next s)

/-- 60 R203, R204, 93 I18: a meaning never refuses; it faults only where a status query's reply is too short, with that
reply, be the query run or answered, in RX_WAIT, by the frame that arrives. A step faults only so: the front request is a
query, which the step runs, or which bytes from the line answer in RX_WAIT; a step refuses only an unassigned op-code and a
configuration outside R7. -/
def Obligations.StopsAreTheSpecsOwn : Prop :=
  (∀ (i : Instr) (s : State) (r : Refusal), exec i s ≠ .refused r) ∧
  (∀ (i : Instr) (s : State) (r : Fault), exec i s = .fault r →
    ∃ f, r = .shortStatus f ∧
      ((queryFields i ≠ none ∧ ShortReply s [] f) ∨
        (wireFields i ≠ none ∧ ShortReply s (encode i) f ∧ s.phase = .rxWait ∧
          ∃ j rest, decodeRequest s.req = .instr j rest ∧ queryFields j ≠ none))) ∧
  (∀ (s : State) (r : Fault), step s = .fault r →
    s.cfg.ok = true ∧
    ∃ f j rest, r = .shortStatus f ∧ ShortReply s s.line f ∧ decodeRequest s.req = .instr j rest ∧
      queryFields j ≠ none ∧ (s.line ≠ [] → s.phase = .rxWait)) ∧
  (∀ (s : State) (r : Refusal), step s = .refused r →
    (r = .configOutsideSpec ∧ s.cfg.ok = false) ∨
    ∃ op fields, r = .illegalOp op ∧ s.req = op :: fields ∧ op ∉ assignedOps)

/-! ## Encodings -/

/-- 30_encoding R79, R84, R70: words written out byte by byte from the spec decode to the instructions they stand for. That
wire bytes which several rows name are read as the most specific row (the broadcast row before the addressed one, ACK before
ACKNAK, FRAME last) is the model's choice (log 8). -/
def Obligations.SpecWordsDecode : Prop :=
  decode [0x10, 0x00, 0x01, 0x00] = .instr (.aPowerOn 0x01) [] ∧
  decode [0x05, 0x11, 0x01, 0x01, 0x01] = .instr (.sendAck 0x11 0x01 [0x01]) [] ∧
  decode [0x04, 0x00, 0x00, 0x00] = .instr .receive [] ∧
  decode [0x01, 0x4A, 0x00, 0x01, 0x00] = .instr (.encode 0x4A 0x00 [0x00]) [] ∧
  decode [0x23, 0x00, 0x00, 0x00] = .instr .bPanelOff [] ∧
  decode [0x24, 0x00, 0xFE, 0x00] = .rejected (.illegalOp 0x24) ∧
  decode [0xAA, 0x11, 0xFE, 0x01, 0x01, 0x11] = .instr .frBPowerOn [] ∧
  decode [0xAA, 0xF9, 0x07, 0x01, 0x00, 0x01] = .instr (.frAPanelOn 0x07 0x01) [] ∧
  decode [0xAA, 0xFF, 0x01, 0x03, 0x41, 0x11, 0x01, 0x56, 0xAA] = .instr (.ack 0x01 [0x11, 0x01] 0x56) [0xAA] ∧
  decode [0xAA, 0xFF, 0x01, 0x00, 0x00] = .instr (.acknak 0x01 [] 0x00) [] ∧
  decode [0xAA, 0x4A, 0x00, 0x01, 0x00, 0x4B] = .instr (.frame 0x4A 0x00 [0x00] 0x4B) []

/-- 30_encoding R70, R72, R78, R79, R84: decoding the encoding of a well-formed instruction, with any bytes after it,
gives the instruction back, with every operand, and those bytes. Which of the wire rows that name the same bytes they decode
to, and so which wire rows are well formed, is the model's choice (log 8): each frame with its right checksum byte has one
well-formed row; an FR_A_POWER or FR_A_PANEL row to 0xFE and a row with a wrong checksum byte are not well formed, and of
their bytes WireDecodeLosesNoBit speaks. -/
def Obligations.DecodeInvertsEncode : Prop :=
  ∀ (i : Instr) (rest : List Byte), wellFormed i = true → decode (encode i ++ rest) = .instr i rest

/-- 30_encoding R70, R71: what the decoder reads off the wire is exactly the row's bytes: no bit of a frame is dropped,
its checksum byte included. -/
def Obligations.WireDecodeLosesNoBit : Prop :=
  ∀ (bs : List Byte) (i : Instr) (rest : List Byte), decodeWire bs = .instr i rest →
    bs = encode i ++ rest ∧ wireFields i ≠ none

/-- 10_state R27, 30_encoding R78: a field an operation does not use is ignored, whatever its value, and its payload bytes
are read past. -/
def Obligations.UnusedRequestFieldsIgnored : Prop :=
  ∀ (cmd tgt : Byte) (pl rest : List Byte), pl.length ≤ MAX_N →
    (∀ op i, (op, i) ∈ [(OP_DECODE, Instr.decode), (OP_RECEIVE, .receive), (OP_B_POWER_ON, .bPowerOn),
        (OP_B_POWER_OFF, .bPowerOff), (OP_B_PANEL_ON, .bPanelOn), (OP_B_PANEL_OFF, .bPanelOff),
        (OP_A_POWER_ON, .aPowerOn tgt), (OP_A_POWER_OFF, .aPowerOff tgt), (OP_A_PANEL_ON, .aPanelOn tgt),
        (OP_A_PANEL_OFF, .aPanelOff tgt), (OP_A_QUERY_POWER, .aQueryPower tgt),
        (OP_A_QUERY_PANEL, .aQueryPanel tgt)] →
      decodeRequest (requestBytes op cmd tgt pl ++ rest) = .instr i rest) ∧
    (∀ op i, (op, i) ∈ [(OP_ENCODE, Instr.encode cmd tgt pl), (OP_SEND, .send cmd tgt pl),
        (OP_SEND_ACK, .sendAck cmd tgt pl)] →
      decodeRequest (requestBytes op cmd tgt pl ++ rest) = .instr i rest)

/-- 30_encoding R72, R78, 92 D22: every request the decoder reads is a well-formed request, never a wire row (20_memory
R60), and its bytes are `4 + REQ.LEN`. -/
def Obligations.DecodedRequestsWellFormed : Prop :=
  ∀ (bs : List Byte) (i : Instr) (rest : List Byte), decodeRequest bs = .instr i rest →
    wellFormed i = true ∧ wireFields i = none ∧ bs.length = PREFIX_LEN + payloadLen bs + rest.length

/-- 30_encoding R80, 60 R203, 43 R174: every op-code outside R79, those where a broadcast query would sit among them, is
refused at the step, whatever stands after it, and every op-code of R79 with its whole request is an instruction. -/
def Obligations.UnassignedOpCodesRefused : Prop :=
  (∀ (s : State) (op : Byte) (fields : List Byte), s.cfg.ok = true → s.line = [] → s.req = op :: fields →
    (op.toNat = 0 ∨ (0x06 ≤ op.toNat ∧ op.toNat ≤ 0x0F) ∨ (0x16 ≤ op.toNat ∧ op.toNat ≤ 0x1F) ∨ 0x24 ≤ op.toNat) →
    step s = .refused (.illegalOp op)) ∧
  (∀ (op cmd tgt : Byte) (pl : List Byte), pl.length ≤ MAX_N →
    ((0x01 ≤ op.toNat ∧ op.toNat ≤ 0x05) ∨ (0x10 ≤ op.toNat ∧ op.toNat ≤ 0x15) ∨
      (0x20 ≤ op.toNat ∧ op.toNat ≤ 0x23)) →
    ∃ i, decodeRequest (requestBytes op cmd tgt pl) = .instr i [])

/-- 30_encoding R84: the frame each dispatcher operation sends, byte for byte, for every target: these bytes, and no others,
reach the wire when the TX port takes the write. -/
def Obligations.DispatcherFramesFixed : Prop :=
  ∀ (t : Byte) (i : Instr) (fb : List Byte),
    (i, fb) ∈ [(Instr.aPowerOn t, [0xAA, 0x11, t, 0x01, 0x01, 0x13 + t]),
      (.aPowerOff t, [0xAA, 0x11, t, 0x01, 0x00, 0x12 + t]),
      (.aPanelOn t, [0xAA, 0xF9, t, 0x01, 0x00, 0xFA + t]),
      (.aPanelOff t, [0xAA, 0xF9, t, 0x01, 0x01, 0xFB + t]),
      (.aQueryPower t, [0xAA, 0x11, t, 0x00, 0x11 + t]),
      (.aQueryPanel t, [0xAA, 0xF9, t, 0x00, 0xF9 + t]),
      (.bPowerOn, [0xAA, 0x11, 0xFE, 0x01, 0x01, 0x11]),
      (.bPowerOff, [0xAA, 0x11, 0xFE, 0x01, 0x00, 0x10]),
      (.bPanelOn, [0xAA, 0xF9, 0xFE, 0x01, 0x00, 0xF8]),
      (.bPanelOff, [0xAA, 0xF9, 0xFE, 0x01, 0x01, 0xF9])] →
    sentBytes i = fb ∧
    ∀ (s u : State) (later : List TxAnswer), s.tx = .ok :: later → s.phase ≠ .rxWait → exec i s = .next u →
      u.wire = s.wire ++ fb

/-! ## The codec -/

/-- 70 R240: the checksum does not change when the command, target, length and payload bytes are permuted, nor when their
sum changes by a multiple of 256; and a frame altered so is accepted. -/
def Obligations.ChecksumMissesCorruption : Prop :=
  (∀ (cmd tgt n cmd' tgt' n' : Byte) (pl pl' : List Byte),
    (cmd :: tgt :: n :: pl).Perm (cmd' :: tgt' :: n' :: pl') → csum cmd tgt n pl = csum cmd' tgt' n' pl') ∧
  (∀ (cmd tgt n cmd' tgt' n' : Byte) (pl pl' : List Byte),
    sumBytes (cmd :: tgt :: n :: pl) % 256 = sumBytes (cmd' :: tgt' :: n' :: pl') % 256 →
    csum cmd tgt n pl = csum cmd' tgt' n' pl') ∧
  (∀ (o : DecodeOrder) (cmd tgt n cmd' tgt' : Byte) (pl pl' : List Byte), pl'.length ≤ MAX_N →
    sumBytes (cmd :: tgt :: n :: pl) % 256 = sumBytes (cmd' :: tgt' :: lenByte pl' :: pl') % 256 →
    dec o (frameBytes cmd' tgt' pl' (csum cmd tgt n pl)) =
      .frame { cmd := cmd', tgt := tgt', n := lenByte pl', pl := pl' } (5 + pl'.length))

/-- 40 R103 (a): the three decode orders agree on an empty buffer and on one whose first byte is the header; on any other
they report the bad header from length 1, from length 4, and from the length the length byte announces. -/
def Obligations.DecodeOrdersDiffer : Prop :=
  ∀ buf : List Byte,
    (buf.head? = none ∨ buf.head? = some HDR → ∀ o o' : DecodeOrder, dec o buf = dec o' buf) ∧
    (∀ b rest, buf = b :: rest → b ≠ HDR →
      dec .headerFirst buf = .invalidHeader ∧
      dec .prefixFirst buf = (if buf.length < 4 then .incomplete else .invalidHeader) ∧
      dec .lengthFirst buf =
        (if buf.length < 4 ∨ buf.length < 5 + payloadLen buf then .incomplete else .invalidHeader))

/-- 40 R103 (b): a decode that is not incomplete does not depend on the bytes after the first frame. -/
def Obligations.DecReadsOnlyItsFrame : Prop :=
  ∀ (o : DecodeOrder) (buf more : List Byte), dec o buf ≠ .incomplete → dec o (buf ++ more) = dec o buf

/-- 40 R106: the round trip, with any bytes after the frame, under every decode order. -/
def Obligations.CodecRoundTrip : Prop :=
  ∀ (o : DecodeOrder) (cmd tgt : Byte) (pl rest : List Byte), pl.length ≤ MAX_N →
    dec o (enc cmd tgt pl ++ rest) =
      .frame { cmd := cmd, tgt := tgt, n := BitVec.ofNat 8 pl.length, pl := pl } (5 + pl.length)

/-- 40 R107: every proper prefix of an encoding is incomplete, under every decode order, and the frame is decoded when its
checksum byte arrives. -/
def Obligations.ProperPrefixIncomplete : Prop :=
  ∀ (o : DecodeOrder) (cmd tgt : Byte) (pl : List Byte), pl.length ≤ MAX_N →
    (∀ p tail, enc cmd tgt pl = p ++ tail → tail ≠ [] → dec o p = .incomplete) ∧
    dec o (enc cmd tgt pl) =
      .frame { cmd := cmd, tgt := tgt, n := BitVec.ofNat 8 pl.length, pl := pl } (frameLen pl.length)

/-- 40 R103, R101: a decode accepts nothing but encodings: an accepted buffer begins with the encoding of the frame
returned, which is sound, and the bytes consumed are that encoding's. -/
def Obligations.DecAcceptsOnlyEncodings : Prop :=
  ∀ (o : DecodeOrder) (buf : List Byte) (f : Frame) (c : Nat), dec o buf = .frame f c →
    buf = enc f.cmd f.tgt f.pl ++ buf.drop c ∧ c = 5 + f.pl.length ∧ f.pl.length = f.n.toNat

/-- 40 R101: op-code 0x01 is ENCODE; it answers the frame's bytes, from every state; nothing but RESP, PHASE and the
pending request is written. -/
def Obligations.EncodeAnswersFrame : Prop :=
  ∀ (s : State) (cmd tgt : Byte) (pl : List Byte), pl.length ≤ MAX_N →
    decodeRequest (requestBytes 0x01 cmd tgt pl) = .instr (.encode cmd tgt pl) [] ∧
    exec (.encode cmd tgt pl) s =
      .next
        { s with
          resp := some
            { code := .ok,
              bytes := some ([HDR, cmd, tgt, BitVec.ofNat 8 pl.length] ++ pl ++
              [BitVec.ofNat 8 (cmd.toNat + tgt.toNat + pl.length + (pl.map BitVec.toNat).sum)]) },
          phase := .idle, req := dropRequest s.req }

/-- 40 R105, R104: op-code 0x02 is DECODE; from every state, on a frame RXBUF loses exactly its bytes, on every error RXBUF is
unchanged; no port is used, nothing is cleared. -/
def Obligations.DecodeOpOutcomes : Prop :=
  ∀ s : State,
    decodeRequest (requestBytes 0x02 0 0 []) = .instr .decode [] ∧
    (∀ f c, dec s.cfg.decodeOrder s.rxbuf = .frame f c →
      exec .decode s = .next
        { s with
          rxbuf := s.rxbuf.drop c, phase := .idle, req := dropRequest s.req,
          resp := some { code := .ok, frame := some f, consumed := some (BitVec.ofNat 9 c) } }) ∧
    (dec s.cfg.decodeOrder s.rxbuf = .incomplete →
      exec .decode s = .next
        { s with
          phase := .idle, req := dropRequest s.req, resp := some { code := .incomplete } }) ∧
    (dec s.cfg.decodeOrder s.rxbuf = .invalidHeader →
      exec .decode s = .next
        { s with
          phase := .idle, req := dropRequest s.req, resp := some { code := .invalidHeader } }) ∧
    (dec s.cfg.decodeOrder s.rxbuf = .invalidChecksum →
      exec .decode s = .next
        { s with
          phase := .idle, req := dropRequest s.req, resp := some { code := .invalidChecksum } })

/-! ## Sending -/

/-- 41 R120, 43 R169 to R173: SEND and the broadcast operations complete with OK as soon as the write-all succeeds, the
whole frame on the wire; RXBUF and the RX port are untouched. -/
def Obligations.SendCompletes : Prop :=
  ∀ (i : Instr) (s : State) (later : List TxAnswer), sendFields i ≠ none → s.tx = .ok :: later →
    exec i s = .next
      { s with
        tx := later, wire := s.wire ++ sentBytes i, phase := .idle, req := dropRequest s.req,
        resp := some { code := .ok } }

/-- 41 R120, 42 R147, 43 R169, 20_memory R54 (b): a failed write-all ends every operation that writes with E_IO_WRITE and
the number of bytes that reached the wire, which are the frame's first ones; no read is issued. -/
def Obligations.WriteFailureEndsOperation : Prop :=
  ∀ (i : Instr) (s : State) (p : Nat) (later : List TxAnswer), sentBytes i ≠ [] → s.phase ≠ .rxWait →
    s.tx = .ioErr p :: later → p ≤ (sentBytes i).length →
    exec i s = .next
      { s with
        tx := later, wire := s.wire ++ (sentBytes i).take p, phase := .idle, req := dropRequest s.req,
        resp := some { code := .ioWrite, written := some (BitVec.ofNat 9 p) } }

/-- 42 R141 (the TX self-loop), 92 D31: while the TX port does not answer, an operation that writes waits in TX and
nothing else changes. That none of its frame is on the wire until the answer is the model's choice (log 16). -/
def Obligations.UnansweredWriteWaits : Prop :=
  ∀ (i : Instr) (s : State), sentBytes i ≠ [] → s.phase ≠ .rxWait → s.tx = [] →
    exec i s = .next { s with phase := .tx }

/-- 41 R120, 43 R169: the frame of SEND and the broadcast operations, whatever the TX port answers: they never read the
RX port and never touch RXBUF. -/
def Obligations.SendLeavesReceiveSide : Prop :=
  ∀ (i : Instr) (s t : State), sendFields i ≠ none → exec i s = .next t →
    t.rxbuf = s.rxbuf ∧ t.scratch = s.scratch ∧ t.reads = s.reads ∧ t.rx = s.rx ∧ t.cfg = s.cfg ∧ t.line = s.line

/-! ## Receiving. `chunks` are the reads' answers, however the peer cuts the stream; the operation starts now (`n = 0`) or
goes on from RX_WAIT with `n` reads answered before. -/

/-- 41 R121, R126, R128: RECEIVE returns the frame the bytes held decode to, after exactly the reads that were asked for
(none where the frame was held already), and the bytes after the frame stay. -/
def Obligations.ReceiveReturnsDecodedFrame : Prop :=
  ∀ (s : State) (n : Nat) (chunks : List (List Byte)) (later : List RxAnswer) (f : Frame) (c : Nat), Started s n →
    ReadsTo s chunks later → dec s.cfg.decodeOrder (bufAfter s chunks) = .frame f c →
    exec .receive s = .next
      { s with
        rxbuf := (bufAfter s chunks).drop c, scratch := scratchAfter chunks s.scratch, phase := .idle,
        req := dropRequest s.req, reads := n + chunks.length, rx := later,
        resp := some { code := .ok, frame := some f, consumed := some (BitVec.ofNat 9 c) } }

/-- 40 R107, 41 R121, R122, R126: whatever part of a correctly framed frame RXBUF holds, and in whatever chunks the rest
arrives, RECEIVE returns the frame when its last byte is there, having read no more than it needed, and the bytes after
it stay in order. -/
def Obligations.ReceiveReassemblesAnyChunking : Prop :=
  ∀ (s : State) (n : Nat) (chunks : List (List Byte)) (later : List RxAnswer) (cmd tgt : Byte) (pl rest : List Byte),
    Started s n → pl.length ≤ MAX_N →
    (∀ c ∈ chunks, c ≠ [] ∧ c.length ≤ s.cfg.scratchSize) → s.rx = chunks.flatMap arriving ++ later →
    s.rxbuf ++ chunks.flatten = enc cmd tgt pl ++ rest →
    (∀ front last, chunks = front ++ [last] → rest.length < last.length) →
    exec .receive s = .next
      { s with
        rxbuf := rest, scratch := scratchAfter chunks s.scratch, phase := .idle, req := dropRequest s.req,
        reads := n + chunks.length, rx := later,
        resp := some
          { code := .ok,
            frame := some { cmd := cmd, tgt := tgt, n := BitVec.ofNat 8 pl.length, pl := pl },
            consumed := some (BitVec.ofNat 9 (5 + pl.length)) } }

/-- 41 R125: a framing error in RECEIVE, SEND_ACK or an `A_*` operation empties RXBUF, bytes of later frames included, and
is then reported. -/
def Obligations.FramingErrorClearsBuffer : Prop :=
  ∀ (i : Instr) (s t : State) (n : Nat) (chunks : List (List Byte)) (later : List RxAnswer),
    Reading i s t n → ReadsTo t chunks later →
    (dec s.cfg.decodeOrder (bufAfter t chunks) = .invalidHeader →
      exec i s = .next
        { t with
          rxbuf := [], scratch := scratchAfter chunks s.scratch, phase := .idle, req := dropRequest s.req,
          reads := n + chunks.length, rx := later, resp := some { code := .invalidHeader } }) ∧
    (dec s.cfg.decodeOrder (bufAfter t chunks) = .invalidChecksum →
      exec i s = .next
        { t with
          rxbuf := [], scratch := scratchAfter chunks s.scratch, phase := .idle, req := dropRequest s.req,
          reads := n + chunks.length, rx := later, resp := some { code := .invalidChecksum } })

/-- 41 R123: a zero-byte read is E_STREAM_ENDED, with or without a partial frame held, and RXBUF keeps the bytes it
holds, those of the operation's earlier reads included. -/
def Obligations.StreamEndKeepsBuffer : Prop :=
  ∀ (i : Instr) (s t : State) (n : Nat) (chunks : List (List Byte)) (later : List RxAnswer),
    Reading i s t n → ReadsTo t chunks (.ended :: later) →
    dec s.cfg.decodeOrder (bufAfter t chunks) = .incomplete →
    exec i s = .next
      { t with
        rxbuf := bufAfter t chunks, scratch := scratchAfter chunks s.scratch, phase := .idle, req := dropRequest s.req,
        reads := n + chunks.length + 1, rx := later, resp := some { code := .streamEnded } }

/-- 41 R124: a failed read is E_IO_READ, and RXBUF is left as it was before that read. -/
def Obligations.ReadFailureKeepsBuffer : Prop :=
  ∀ (i : Instr) (s t : State) (n : Nat) (chunks : List (List Byte)) (later : List RxAnswer),
    Reading i s t n → ReadsTo t chunks (.ioErr :: later) →
    dec s.cfg.decodeOrder (bufAfter t chunks) = .incomplete →
    exec i s = .next
      { t with
        rxbuf := bufAfter t chunks, scratch := scratchAfter chunks s.scratch, phase := .idle, req := dropRequest s.req,
        reads := n + chunks.length + 1, rx := later, resp := some { code := .ioRead } }

/-- 41 R127, 60 R214: while the RX port does not answer, the operation waits in RX_WAIT with the bytes received so far and
its request still pending; no response is written. -/
def Obligations.UnansweredReadWaits : Prop :=
  ∀ (i : Instr) (s t : State) (n : Nat) (chunks : List (List Byte)),
    Reading i s t n → ReadsTo t chunks [] → dec s.cfg.decodeOrder (bufAfter t chunks) = .incomplete →
    exec i s = .next
      { t with
        rxbuf := bufAfter t chunks, scratch := scratchAfter chunks s.scratch, phase := .rxWait,
        reads := n + chunks.length, rx := [] }

/-- 60 R214, 41 R127: all state survives a wait: an operation left waiting in RX_WAIT and answered later goes on exactly as
if the port had had those answers from the start. -/
def Obligations.WaitingChangesNothing : Prop :=
  ∀ (i : Instr) (s t : State) (more : List RxAnswer), MachineInv s → receives i → exec i s = .next t →
    t.phase = .rxWait → exec i { t with rx := more } = exec i { s with rx := s.rx ++ more }

/-- 41 R129: only DECODE answers E_INCOMPLETE: whatever else ends an operation (a request, or a frame that answers a
blocked one), the response has another code. -/
def Obligations.OnlyDecodeReportsIncomplete : Prop :=
  ∀ (i : Instr) (s t : State), i ≠ .decode → (wireFields i = none ∨ s.phase = .rxWait) → exec i s = .next t →
    t.phase = .idle → t.resp.map Resp.code ≠ some .incomplete

/-- 41 R130: a receive has at most 260 reads answered before it ends, those before and after a wait counted together; and
it waits in RX_WAIT only for a port that does not answer. -/
def Obligations.ReceiveReadBound : Prop :=
  ∀ (i : Instr) (s t : State), MachineInv s → receives i → exec i s = .next t →
    t.reads ≤ 260 ∧ (t.phase = .rxWait → t.rx = [])

/-- 41 R121, 10_state R20: the frame of RECEIVE, however it goes: the parameters, the TX port, the wire and the line are
unchanged; either it ended, with a response and its request off the port, or it waits in RX_WAIT with both as before. -/
def Obligations.ReceiveFrameCondition : Prop :=
  ∀ s t : State, exec .receive s = .next t →
    t.cfg = s.cfg ∧ t.tx = s.tx ∧ t.wire = s.wire ∧ t.line = s.line ∧
    ((t.phase = .idle ∧ t.req = dropRequest s.req ∧ t.resp ≠ none) ∨
      (t.phase = .rxWait ∧ t.req = s.req ∧ t.resp = s.resp))

/-! ## The handshake, the addressed operations and the queries -/

/-- 42 R140, R144, R145, R146, 43 R161 to R164: SEND_ACK and the mutating `A_*` operations complete with OK and the reply,
where the reply has the acknowledge command id and "A" first; its target, its other payload bytes and its length are not
checked; a frame held already is taken as the reply with no read (70 R239). -/
def Obligations.HandshakeAcceptsPositive : Prop :=
  ∀ (i : Instr) (s t : State) (n : Nat) (chunks : List (List Byte)) (later : List RxAnswer) (f : Frame) (c : Nat),
    handshakeFields i ≠ none → Reading i s t n → ReadsTo t chunks later →
    dec s.cfg.decodeOrder (bufAfter t chunks) = .frame f c → positive f →
    exec i s = .next
      { t with
        rxbuf := (bufAfter t chunks).drop c, scratch := scratchAfter chunks s.scratch, phase := .idle,
        req := dropRequest s.req, reads := n + chunks.length, rx := later, resp := some { code := .ok, frame := some f } }

/-- 42 R142, 60 R202: a reply with another command id fails as E_UNEXPECTED_RESPONSE with the whole frame, which has been
removed from RXBUF; of a query only where the reply is checked. -/
def Obligations.UnexpectedReplyRejected : Prop :=
  ∀ (i : Instr) (s t : State) (n : Nat) (chunks : List (List Byte)) (later : List RxAnswer) (f : Frame) (c : Nat),
    checksReply i s → Reading i s t n → ReadsTo t chunks later →
    dec s.cfg.decodeOrder (bufAfter t chunks) = .frame f c → f.cmd ≠ CMD_ACKNAK →
    exec i s = .next
      { t with
        rxbuf := (bufAfter t chunks).drop c, scratch := scratchAfter chunks s.scratch, phase := .idle,
        req := dropRequest s.req, reads := n + chunks.length, rx := later,
        resp := some { code := .unexpectedResponse, frame := some f } }

/-- 42 R143, 60 R202: a reply with the acknowledge command id whose first payload byte is not "A", or that has none,
fails as E_NAK with the frame. -/
def Obligations.NegativeReplyRejected : Prop :=
  ∀ (i : Instr) (s t : State) (n : Nat) (chunks : List (List Byte)) (later : List RxAnswer) (f : Frame) (c : Nat),
    checksReply i s → Reading i s t n → ReadsTo t chunks later →
    dec s.cfg.decodeOrder (bufAfter t chunks) = .frame f c → f.cmd = CMD_ACKNAK → f.pl.head? ≠ some ACK_BYTE →
    exec i s = .next
      { t with
        rxbuf := (bufAfter t chunks).drop c, scratch := scratchAfter chunks s.scratch, phase := .idle,
        req := dropRequest s.req, reads := n + chunks.length, rx := later, resp := some { code := .nak, frame := some f } }

/-- 43 R165, R167, 60 R204, 92 D13: A_QUERY_POWER on a reply that passes the check, where there is one: a payload of fewer
than three bytes is the fault; payload byte 2 is read as a power status, 0x00 on, 0x01 off; any other byte fails as
E_INVALID_STATUS with the frame and the byte. -/
def Obligations.QueryPowerReportsStatus : Prop :=
  ∀ (tgt : Byte) (s t : State) (n : Nat) (chunks : List (List Byte)) (later : List RxAnswer) (f : Frame) (c : Nat),
    Reading (.aQueryPower tgt) s t n → ReadsTo t chunks later →
    dec s.cfg.decodeOrder (bufAfter t chunks) = .frame f c → (s.cfg.queryAckCheck = true → positive f) →
    let ended : Resp → State := fun r =>
      { t with
        rxbuf := (bufAfter t chunks).drop c, scratch := scratchAfter chunks s.scratch, phase := .idle,
        req := dropRequest s.req, reads := n + chunks.length, rx := later, resp := some r }
    (f.n.toNat < STATUS_OFFSET + 1 → exec (.aQueryPower tgt) s = .fault (.shortStatus f)) ∧
    (STATUS_OFFSET < f.n.toNat → f.pl[STATUS_OFFSET]? = some ST_POWER_ON →
      exec (.aQueryPower tgt) s = .next (ended { code := .ok, frame := some f, status := some 1 })) ∧
    (STATUS_OFFSET < f.n.toNat → f.pl[STATUS_OFFSET]? = some ST_POWER_OFF →
      exec (.aQueryPower tgt) s = .next (ended { code := .ok, frame := some f, status := some 0 })) ∧
    (∀ b, STATUS_OFFSET < f.n.toNat → f.pl[STATUS_OFFSET]? = some b → b ≠ ST_POWER_ON → b ≠ ST_POWER_OFF →
      exec (.aQueryPower tgt) s = .next (ended { code := .invalidStatus, frame := some f, badByte := some b }))

/-- 43 R166, R168, 60 R204, 92 D13: A_QUERY_PANEL likewise, with payload byte 2 read as a panel status: 0x00 off,
0x01 on. -/
def Obligations.QueryPanelReportsStatus : Prop :=
  ∀ (tgt : Byte) (s t : State) (n : Nat) (chunks : List (List Byte)) (later : List RxAnswer) (f : Frame) (c : Nat),
    Reading (.aQueryPanel tgt) s t n → ReadsTo t chunks later →
    dec s.cfg.decodeOrder (bufAfter t chunks) = .frame f c → (s.cfg.queryAckCheck = true → positive f) →
    let ended : Resp → State := fun r =>
      { t with
        rxbuf := (bufAfter t chunks).drop c, scratch := scratchAfter chunks s.scratch, phase := .idle,
        req := dropRequest s.req, reads := n + chunks.length, rx := later, resp := some r }
    (f.n.toNat < STATUS_OFFSET + 1 → exec (.aQueryPanel tgt) s = .fault (.shortStatus f)) ∧
    (STATUS_OFFSET < f.n.toNat → f.pl[STATUS_OFFSET]? = some ST_PANEL_OFF →
      exec (.aQueryPanel tgt) s = .next (ended { code := .ok, frame := some f, status := some 0 })) ∧
    (STATUS_OFFSET < f.n.toNat → f.pl[STATUS_OFFSET]? = some ST_PANEL_ON →
      exec (.aQueryPanel tgt) s = .next (ended { code := .ok, frame := some f, status := some 1 })) ∧
    (∀ b, STATUS_OFFSET < f.n.toNat → f.pl[STATUS_OFFSET]? = some b → b ≠ ST_PANEL_OFF → b ≠ ST_PANEL_ON →
      exec (.aQueryPanel tgt) s = .next (ended { code := .invalidStatus, frame := some f, badByte := some b }))

/-- 43 R167, R168, 30_encoding R77: the two status decodes, for every byte, with the STATUS value each answers. -/
def Obligations.StatusDecodesAsymmetric : Prop :=
  (powerStatus 0x00 = some .on ∧ powerBit 0x00 = some 1 ∧ powerStatus 0x01 = some .off ∧ powerBit 0x01 = some 0 ∧
    ∀ b : Byte, b ≠ 0x00 → b ≠ 0x01 → powerStatus b = none ∧ powerBit b = none) ∧
  (panelStatus 0x00 = some .off ∧ panelBit 0x00 = some 0 ∧ panelStatus 0x01 = some .on ∧ panelBit 0x01 = some 1 ∧
    ∀ b : Byte, b ≠ 0x00 → b ≠ 0x01 → panelStatus b = none ∧ panelBit b = none)

/-- 30_encoding R83: the mutating dispatcher operations behave exactly as their expansions, from every state. -/
def Obligations.DispatcherOpsExpand : Prop :=
  ∀ (t : Byte) (s : State),
    exec (.aPowerOn t) s = exec (.sendAck 0x11 t [0x01]) s ∧ exec (.aPowerOff t) s = exec (.sendAck 0x11 t [0x00]) s ∧
    exec (.aPanelOn t) s = exec (.sendAck 0xF9 t [0x00]) s ∧ exec (.aPanelOff t) s = exec (.sendAck 0xF9 t [0x01]) s ∧
    exec .bPowerOn s = exec (.send 0x11 0xFE [0x01]) s ∧ exec .bPowerOff s = exec (.send 0x11 0xFE [0x00]) s ∧
    exec .bPanelOn s = exec (.send 0xF9 0xFE [0x00]) s ∧ exec .bPanelOff s = exec (.send 0xF9 0xFE [0x01]) s

/-- 30_encoding R83, 43 R165: where replies to queries are checked, a status query is SEND_ACK with an empty payload and
then, on a positive acknowledgement, the status decode of payload byte 2; in every other case it ends or waits as SEND_ACK
does. -/
def Obligations.QueryExpandsToSendAck : Prop :=
  ∀ (i : Instr) (cmd tgt : Byte) (statusOf : Byte → Option (BitVec 1)) (s u : State),
    queryFields i = some (cmd, tgt, statusOf) → s.cfg.queryAckCheck = true → exec (.sendAck cmd tgt []) s = .next u →
    (∀ f, u.phase = .idle → u.resp = some { code := .ok, frame := some f } →
      exec i s =
        if f.n.toNat < STATUS_OFFSET + 1 then .fault (.shortStatus f)
        else match statusOf (byteAt f.pl STATUS_OFFSET) with
          | some v => .next { u with resp := some { code := .ok, frame := some f, status := some v } }
          | none => .next
              { u with resp := some { code := .invalidStatus, frame := some f, badByte := some (byteAt f.pl STATUS_OFFSET) } }) ∧
    (u.phase ≠ .idle ∨ u.resp.map Resp.code ≠ some .ok → exec i s = .next u)

/-- 42 R140, 43 R160, R165, 10_state R20: the frame of the operations that await a reply, however they go on: the
parameters and the line are unchanged; the TX port's answers are used from the front; the wire only grows; and either the
operation ended, or it waits in TX with the receive side untouched, or it waits in RX_WAIT, the request and the response
as before. That the wire is as before in TX is the model's choice (log 16). -/
def Obligations.AwaitingOpsFrameCondition : Prop :=
  ∀ (i : Instr) (s t : State), handshakeFields i ≠ none ∨ queryFields i ≠ none → exec i s = .next t →
    t.cfg = s.cfg ∧ t.line = s.line ∧ t.tx <:+ s.tx ∧ s.wire <+: t.wire ∧
    ((t.phase = .idle ∧ t.req = dropRequest s.req ∧ t.resp ≠ none) ∨
      (t = { s with phase := .tx }) ∨
      (t.phase = .rxWait ∧ t.req = s.req ∧ t.resp = s.resp))

/-- 42 R141: the state table refines the pseudocode: whatever SEND_ACK or a mutating `A_*` operation does from a state
between steps, the machine of the table does in some number of transitions. -/
def Obligations.FsmRefinesHandshake : Prop :=
  ∀ (i : Instr) (cmd tgt : Byte) (pl : List Byte) (s t : State), handshakeFields i = some (cmd, tgt, pl) →
    restingPhase s.phase = true → exec i s = .next t →
    ∃ n, (fsmRun cmd tgt pl n { st := s, held := none }).st = t

/-! ## Frames arriving on the wire -/

/-- 60 R207, 20_memory R60: a frame that arrives while no read is outstanding, whatever its ids and its checksum, waits in
the stream after everything there; nothing else changes. That running a wire row is the arrival of its frame on the RX port
is log 7 (DEDUCED), and that the frame is one answer of the port is the model's choice (log 15). -/
def Obligations.ArrivingFrameWaitsInStream : Prop :=
  ∀ (i : Instr) (s : State) (cmd tgt : Byte) (pl : List Byte) (c : Byte), wireFields i = some (cmd, tgt, pl, c) →
    s.phase ≠ .rxWait →
    exec i s = .next { s with rx := s.rx ++ [.data HDR ([cmd, tgt, BitVec.ofNat 8 pl.length] ++ pl ++ [c])] }

/-- 42 R141, 41 R121, R122: a frame of any row, whatever its checksum byte, that arrives while a RECEIVE is blocked and
with what is held completes a frame, completes the RECEIVE with that frame, and the bytes after it stay; a well-formed frame
that arrives with nothing held completes it with its own fields. That a row is an arrival, and the RECEIVE goes on in the
same step, is log 7 (DEDUCED); that one read takes the frame is the model's choice (log 15). A frame above SCRATCH_SIZE and
answers already in the stream are the business of ArrivalGoesOnWithBlockedOperation and LongAnswersAreReadInPieces. -/
def Obligations.ArrivingFrameAnswersReceive : Prop :=
  ∀ (i : Instr) (s : State) (more : List Byte), wireFields i ≠ none → Blocked s .receive more →
    (encode i).length ≤ s.cfg.scratchSize →
    (∀ f c, dec s.cfg.decodeOrder (s.rxbuf ++ encode i) = .frame f c →
      exec i s = .next
        { afterArrival s i ((s.rxbuf ++ encode i).drop c) with
          phase := .idle, req := more,
          resp := some { code := .ok, frame := some f, consumed := some (BitVec.ofNat 9 c) } }) ∧
    (∀ cmd tgt pl c, wireFields i = some (cmd, tgt, pl, c) → wellFormed i = true → s.rxbuf = [] →
      exec i s = .next
        { afterArrival s i [] with
          phase := .idle, req := more,
          resp := some
            { code := .ok,
              frame := some { cmd := cmd, tgt := tgt, n := BitVec.ofNat 8 pl.length, pl := pl },
              consumed := some (BitVec.ofNat 9 (5 + pl.length)) } })

/-- 42 R141 to R144: a frame, whatever its checksum byte, that arrives while a handshake is blocked and with what is held
completes a frame settles it: with OK where the reply is positive, with E_UNEXPECTED_RESPONSE on another command id, with
E_NAK else. Of a well-formed frame that arrives with nothing held: the row ACK with OK, the row ACKNAK with E_NAK, every
other row, an echo of the request's own frame among them, with E_UNEXPECTED_RESPONSE. That a row is an arrival, and the
operation goes on in the same step, is log 7 (DEDUCED); that one read takes the frame (log 15) and which row names the
bytes (log 8) are the model's choices. -/
def Obligations.ArrivingReplySettlesHandshake : Prop :=
  ∀ (i j : Instr) (s : State) (more : List Byte), wireFields i ≠ none → handshakeFields j ≠ none → Blocked s j more →
    (encode i).length ≤ s.cfg.scratchSize →
    (∀ f c, dec s.cfg.decodeOrder (s.rxbuf ++ encode i) = .frame f c →
      exec i s = .next
        { afterArrival s i ((s.rxbuf ++ encode i).drop c) with
          phase := .idle, req := more,
          resp := some
            { code := if f.cmd ≠ CMD_ACKNAK then .unexpectedResponse
                else if f.pl.head? = some ACK_BYTE then .ok else .nak,
              frame := some f } }) ∧
    (∀ cmd tgt pl c, wireFields i = some (cmd, tgt, pl, c) → wellFormed i = true → s.rxbuf = [] →
      ∃ code, exec i s = .next
          { afterArrival s i [] with
            phase := .idle, req := more,
            resp := some
              { code := code,
                frame := some { cmd := cmd, tgt := tgt, n := BitVec.ofNat 8 pl.length, pl := pl } } } ∧
        ((∃ rest, i = .ack tgt rest c) → code = .ok) ∧
        (i = .acknak tgt pl c → code = .nak) ∧
        ((∀ rest, i ≠ .ack tgt rest c) → i ≠ .acknak tgt pl c → code = .unexpectedResponse))

/-! ## Whole-machine rules -/

/-- 10_state R22, R36, 93 I13: what SCRATCH holds before a step changes nothing of the step but SCRATCH. -/
def Obligations.ScratchNeverMatters : Prop :=
  ∀ (s : State) (sc : List Byte),
    forget (fun t => { t with scratch := [] }) (step { s with scratch := sc }) =
      forget (fun t => { t with scratch := [] }) (step s)

/-- 10_state R26: no field of a response survives into the next operation's decisions: what RESP holds before a step
changes nothing of the step but RESP. -/
def Obligations.ResponseNeverMatters : Prop :=
  ∀ (s : State) (r : Option Resp),
    forget (fun t => { t with resp := none }) (step { s with resp := r }) =
      forget (fun t => { t with resp := none }) (step s)

/-- 20_memory R51, R54 (c), R57, 41 R122, R126: over RXBUF, the stream and the line, in that order, a step only takes bytes
from the front: no byte is delivered twice, reordered or invented. -/
def Obligations.NoByteRepeatedOrReordered : Prop :=
  ∀ s t : State, step s = .next t →
    (t.rxbuf ++ streamBytes t.rx ++ t.line) <:+ (s.rxbuf ++ streamBytes s.rx ++ s.line)

/-- 20_memory R53, R57, 40 R102: a step adds to the wire nothing, or the whole or a first part of the frame of the request
at the front of the port. That it adds them only with the port's answer is the model's choice (log 16). -/
def Obligations.WireGrowsByRequestFrame : Prop :=
  ∀ s t : State, step s = .next t →
    t.wire = s.wire ∨
    ∃ i rest p, decodeRequest s.req = .instr i rest ∧ p <+: sentBytes i ∧ t.wire = s.wire ++ p

/-! ## Responses -/

/-- 10_state R28, 92 D34: the host's read of a response field answers the value the response holds there, and is refused by
name where the field is absent, or where there is no response. -/
def Obligations.AbsentFieldReadRefused : Prop :=
  ∀ s : State,
    (s.resp = none → ∀ field, hostRead field s = .refused (.absentField field)) ∧
    (∀ r, s.resp = some r →
      hostRead .code s = .next (.code r.code.toByte) ∧
      ((∀ v, r.bytes = some v → hostRead .bytes s = .next (.bytes v)) ∧
        (r.bytes = none → hostRead .bytes s = .refused (.absentField .bytes))) ∧
      ((∀ v, r.frame = some v → hostRead .frame s = .next (.frame v)) ∧
        (r.frame = none → hostRead .frame s = .refused (.absentField .frame))) ∧
      ((∀ v, r.consumed = some v → hostRead .consumed s = .next (.consumed v)) ∧
        (r.consumed = none → hostRead .consumed s = .refused (.absentField .consumed))) ∧
      ((∀ v, r.status = some v → hostRead .status s = .next (.status v)) ∧
        (r.status = none → hostRead .status s = .refused (.absentField .status))) ∧
      ((∀ v, r.badByte = some v → hostRead .badByte s = .next (.badByte v)) ∧
        (r.badByte = none → hostRead .badByte s = .refused (.absentField .badByte))) ∧
      ((∀ v, r.written = some v → hostRead .written s = .next (.written v)) ∧
        (r.written = none → hostRead .written s = .refused (.absentField .written))))

/-- 10_state R29: the numbers of the response codes. -/
def Obligations.ResponseCodeNumbers : Prop :=
  Code.ok.toByte = 0x00 ∧ Code.incomplete.toByte = 0x01 ∧ Code.invalidHeader.toByte = 0x02 ∧
  Code.invalidChecksum.toByte = 0x03 ∧ Code.streamEnded.toByte = 0x04 ∧ Code.ioRead.toByte = 0x05 ∧
  Code.ioWrite.toByte = 0x06 ∧ Code.unexpectedResponse.toByte = 0x07 ∧ Code.nak.toByte = 0x08 ∧
  Code.invalidStatus.toByte = 0x09 ∧ Code.shortStatus.toByte = 0x0A ∧ Code.illegalOp.toByte = 0x0B ∧
  ∀ c : Code, c.toByte.toNat < 0x0C

/-- 60 R201: raising an error sets the code and the recorded info, every other response field absent, returns PHASE to
IDLE, ends the request, and changes no other state. -/
def Obligations.ErrorEntry : Prop :=
  ∀ (code : Code) (info : ErrorInfo) (s : State),
    raise code info s =
      { s with
        resp := some { code := code, bytes := none, frame := info.frame, consumed := none, status := none,
                       badByte := info.badByte, written := info.written },
        phase := .idle, req := dropRequest s.req }

/-! ## Arrivals while an operation is blocked -/

/-- 42 R141, 60 R207, R214: a frame of any row that arrives in RX_WAIT is put at the end of the stream, and the blocked
operation goes on exactly as its own meaning does with that stream, whatever is held and whatever waits in the stream
already; with no receiving request at the front of the port it only waits in the stream. That a row is an arrival, and the
operation goes on in the same step, is log 7 (DEDUCED); that the frame is one answer of the port is the model's choice
(log 15). -/
def Obligations.ArrivalGoesOnWithBlockedOperation : Prop :=
  ∀ (i : Instr) (s : State), wireFields i ≠ none → s.phase = .rxWait →
    (∀ j rest, decodeRequest s.req = .instr j rest → receives j →
      exec i s = exec j { s with rx := s.rx ++ arriving (encode i) }) ∧
    ((∀ j rest, decodeRequest s.req = .instr j rest → ¬ receives j) →
      exec i s = .next { s with rx := s.rx ++ arriving (encode i) })

/-- 43 R165, R167, R168, 42 R142, R143: a frame, whatever its checksum byte, that arrives while a status query is blocked
and with what is held completes a frame settles it: by the check of the reply, where there is one, and then by payload byte
2, which A_QUERY_POWER reads as 0x00 on, 0x01 off and A_QUERY_PANEL as 0x00 off, 0x01 on; a short reply is the fault. Log 7
(DEDUCED) and log 15 (the model's choice) as in ArrivingReplySettlesHandshake. -/
def Obligations.ArrivingReplySettlesQuery : Prop :=
  ∀ (i j : Instr) (s : State) (more : List Byte) (f : Frame) (c : Nat), wireFields i ≠ none → queryFields j ≠ none →
    Blocked s j more → (encode i).length ≤ s.cfg.scratchSize →
    dec s.cfg.decodeOrder (s.rxbuf ++ encode i) = .frame f c →
    let ended : Resp → State := fun r =>
      { afterArrival s i ((s.rxbuf ++ encode i).drop c) with phase := .idle, req := more, resp := some r }
    (s.cfg.queryAckCheck = true → f.cmd ≠ CMD_ACKNAK →
      exec i s = .next (ended { code := .unexpectedResponse, frame := some f })) ∧
    (s.cfg.queryAckCheck = true → f.cmd = CMD_ACKNAK → f.pl.head? ≠ some ACK_BYTE →
      exec i s = .next (ended { code := .nak, frame := some f })) ∧
    ((s.cfg.queryAckCheck = true → positive f) →
      (f.n.toNat < STATUS_OFFSET + 1 → exec i s = .fault (.shortStatus f)) ∧
      (∀ b, STATUS_OFFSET < f.n.toNat → f.pl[STATUS_OFFSET]? = some b →
        (∀ tgt, j = .aQueryPower tgt → b = 0x00 ∨ b = 0x01 →
          exec i s = .next (ended { code := .ok, frame := some f, status := some (if b = 0x00 then 1 else 0) })) ∧
        (∀ tgt, j = .aQueryPanel tgt → b = 0x00 ∨ b = 0x01 →
          exec i s = .next (ended { code := .ok, frame := some f, status := some (if b = 0x00 then 0 else 1) })) ∧
        (b ≠ 0x00 → b ≠ 0x01 →
          exec i s = .next (ended { code := .invalidStatus, frame := some f, badByte := some b }))))

/-- 41 R125, R128, 42 R141: a frame that arrives while an operation is blocked, and with what is held is no whole frame of
the right form: a bad header and a bad checksum end the operation with that error and RXBUF empty; where more bytes are
needed the operation waits on with them held. Log 7 (DEDUCED) and log 15 (the model's choice) as in
ArrivingReplySettlesHandshake. -/
def Obligations.ArrivingBytesFailOrWait : Prop :=
  ∀ (i j : Instr) (s : State) (more : List Byte), wireFields i ≠ none → receives j → Blocked s j more →
    (encode i).length ≤ s.cfg.scratchSize →
    (dec s.cfg.decodeOrder (s.rxbuf ++ encode i) = .invalidHeader →
      exec i s = .next
        { afterArrival s i [] with phase := .idle, req := more, resp := some { code := .invalidHeader } }) ∧
    (dec s.cfg.decodeOrder (s.rxbuf ++ encode i) = .invalidChecksum →
      exec i s = .next
        { afterArrival s i [] with phase := .idle, req := more, resp := some { code := .invalidChecksum } }) ∧
    (dec s.cfg.decodeOrder (s.rxbuf ++ encode i) = .incomplete →
      exec i s = .next (afterArrival s i (s.rxbuf ++ encode i)))

/-- 10_state R31, 20_memory R53: an answer of the RX port longer than SCRATCH_SIZE is the same as two answers, its first
SCRATCH_SIZE bytes and the others, wherever it stands in the stream: an operation that reads that far ends or waits in the
same way, and one that does not leaves it as it stands. That the port may hold such an answer is the model's choice
(log 9). -/
def Obligations.LongAnswersAreReadInPieces : Prop :=
  ∀ (i : Instr) (s : State) (before later : List RxAnswer) (piece others : List Byte), wireFields i = none →
    piece ≠ [] → piece.length = s.cfg.scratchSize →
    exec i { s with rx := before ++ arriving (piece ++ others) ++ later } =
      exec i { s with rx := before ++ arriving piece ++ arriving others ++ later } ∨
    ∃ (t : State) (left : List RxAnswer),
      exec i { s with rx := before ++ arriving (piece ++ others) ++ later } =
        .next { t with rx := left ++ arriving (piece ++ others) ++ later } ∧
      exec i { s with rx := before ++ arriving piece ++ arriving others ++ later } =
        .next { t with rx := left ++ arriving piece ++ arriving others ++ later }
end

