-- ==== Sys2Proof/Laws/State.lean ====
section
/-! SUPPORT. The small lemmas of the state's named updates: one per field per update, true by rfl. `respond` and `raise`
are `finish` of a response, so the lemmas of `finish` serve both. -/
namespace Sys2Proof.Machine

/-- A success response is the end of the operation with code OK. -/
@[simp] theorem respond_eq_finish (bs : Option (List Byte)) (f : Option Frame) (c : Option Count9)
    (v : Option (BitVec 1)) (s : State) :
    respond bs f c v s = finish { code := .ok, bytes := bs, frame := f, consumed := c, status := v } s := rfl

/-- An error response is the end of the operation with the error's code and its recorded info. -/
@[simp] theorem raise_eq_finish (c : Code) (i : ErrorInfo) (s : State) :
    raise c i s = finish { code := c, frame := i.frame, badByte := i.badByte, written := i.written } s := rfl

@[simp] theorem setPhase_cfg (p : Phase) (s : State) : (setPhase p s).cfg = s.cfg := rfl
@[simp] theorem setPhase_rxbuf (p : Phase) (s : State) : (setPhase p s).rxbuf = s.rxbuf := rfl
@[simp] theorem setPhase_scratch (p : Phase) (s : State) : (setPhase p s).scratch = s.scratch := rfl
@[simp] theorem setPhase_phase (p : Phase) (s : State) : (setPhase p s).phase = p := rfl
@[simp] theorem setPhase_req (p : Phase) (s : State) : (setPhase p s).req = s.req := rfl
@[simp] theorem setPhase_resp (p : Phase) (s : State) : (setPhase p s).resp = s.resp := rfl
@[simp] theorem setPhase_reads (p : Phase) (s : State) : (setPhase p s).reads = s.reads := rfl
@[simp] theorem setPhase_rx (p : Phase) (s : State) : (setPhase p s).rx = s.rx := rfl
@[simp] theorem setPhase_tx (p : Phase) (s : State) : (setPhase p s).tx = s.tx := rfl
@[simp] theorem setPhase_wire (p : Phase) (s : State) : (setPhase p s).wire = s.wire := rfl
@[simp] theorem setPhase_line (p : Phase) (s : State) : (setPhase p s).line = s.line := rfl

@[simp] theorem finish_cfg (r : Resp) (s : State) : (finish r s).cfg = s.cfg := rfl
@[simp] theorem finish_rxbuf (r : Resp) (s : State) : (finish r s).rxbuf = s.rxbuf := rfl
@[simp] theorem finish_scratch (r : Resp) (s : State) : (finish r s).scratch = s.scratch := rfl
@[simp] theorem finish_phase (r : Resp) (s : State) : (finish r s).phase = .idle := rfl
@[simp] theorem finish_req (r : Resp) (s : State) : (finish r s).req = dropRequest s.req := rfl
@[simp] theorem finish_resp (r : Resp) (s : State) : (finish r s).resp = some r := rfl
@[simp] theorem finish_reads (r : Resp) (s : State) : (finish r s).reads = s.reads := rfl
@[simp] theorem finish_rx (r : Resp) (s : State) : (finish r s).rx = s.rx := rfl
@[simp] theorem finish_tx (r : Resp) (s : State) : (finish r s).tx = s.tx := rfl
@[simp] theorem finish_wire (r : Resp) (s : State) : (finish r s).wire = s.wire := rfl
@[simp] theorem finish_line (r : Resp) (s : State) : (finish r s).line = s.line := rfl

@[simp] theorem fifoAppend_cfg (bs : List Byte) (s : State) : (fifoAppend bs s).cfg = s.cfg := rfl
@[simp] theorem fifoAppend_rxbuf (bs : List Byte) (s : State) : (fifoAppend bs s).rxbuf = s.rxbuf ++ bs := rfl
@[simp] theorem fifoAppend_scratch (bs : List Byte) (s : State) : (fifoAppend bs s).scratch = s.scratch := rfl
@[simp] theorem fifoAppend_phase (bs : List Byte) (s : State) : (fifoAppend bs s).phase = s.phase := rfl
@[simp] theorem fifoAppend_req (bs : List Byte) (s : State) : (fifoAppend bs s).req = s.req := rfl
@[simp] theorem fifoAppend_resp (bs : List Byte) (s : State) : (fifoAppend bs s).resp = s.resp := rfl
@[simp] theorem fifoAppend_reads (bs : List Byte) (s : State) : (fifoAppend bs s).reads = s.reads := rfl
@[simp] theorem fifoAppend_rx (bs : List Byte) (s : State) : (fifoAppend bs s).rx = s.rx := rfl
@[simp] theorem fifoAppend_tx (bs : List Byte) (s : State) : (fifoAppend bs s).tx = s.tx := rfl
@[simp] theorem fifoAppend_wire (bs : List Byte) (s : State) : (fifoAppend bs s).wire = s.wire := rfl
@[simp] theorem fifoAppend_line (bs : List Byte) (s : State) : (fifoAppend bs s).line = s.line := rfl

@[simp] theorem fifoDrop_cfg (n : Nat) (s : State) : (fifoDrop n s).cfg = s.cfg := rfl
@[simp] theorem fifoDrop_rxbuf (n : Nat) (s : State) : (fifoDrop n s).rxbuf = s.rxbuf.drop n := rfl
@[simp] theorem fifoDrop_scratch (n : Nat) (s : State) : (fifoDrop n s).scratch = s.scratch := rfl
@[simp] theorem fifoDrop_phase (n : Nat) (s : State) : (fifoDrop n s).phase = s.phase := rfl
@[simp] theorem fifoDrop_req (n : Nat) (s : State) : (fifoDrop n s).req = s.req := rfl
@[simp] theorem fifoDrop_resp (n : Nat) (s : State) : (fifoDrop n s).resp = s.resp := rfl
@[simp] theorem fifoDrop_reads (n : Nat) (s : State) : (fifoDrop n s).reads = s.reads := rfl
@[simp] theorem fifoDrop_rx (n : Nat) (s : State) : (fifoDrop n s).rx = s.rx := rfl
@[simp] theorem fifoDrop_tx (n : Nat) (s : State) : (fifoDrop n s).tx = s.tx := rfl
@[simp] theorem fifoDrop_wire (n : Nat) (s : State) : (fifoDrop n s).wire = s.wire := rfl
@[simp] theorem fifoDrop_line (n : Nat) (s : State) : (fifoDrop n s).line = s.line := rfl

@[simp] theorem fifoClear_cfg (s : State) : (fifoClear s).cfg = s.cfg := rfl
@[simp] theorem fifoClear_rxbuf (s : State) : (fifoClear s).rxbuf = [] := rfl
@[simp] theorem fifoClear_scratch (s : State) : (fifoClear s).scratch = s.scratch := rfl
@[simp] theorem fifoClear_phase (s : State) : (fifoClear s).phase = s.phase := rfl
@[simp] theorem fifoClear_req (s : State) : (fifoClear s).req = s.req := rfl
@[simp] theorem fifoClear_resp (s : State) : (fifoClear s).resp = s.resp := rfl
@[simp] theorem fifoClear_reads (s : State) : (fifoClear s).reads = s.reads := rfl
@[simp] theorem fifoClear_rx (s : State) : (fifoClear s).rx = s.rx := rfl
@[simp] theorem fifoClear_tx (s : State) : (fifoClear s).tx = s.tx := rfl
@[simp] theorem fifoClear_wire (s : State) : (fifoClear s).wire = s.wire := rfl
@[simp] theorem fifoClear_line (s : State) : (fifoClear s).line = s.line := rfl

@[simp] theorem fillScratch_cfg (c : List Byte) (s : State) : (fillScratch c s).cfg = s.cfg := rfl
@[simp] theorem fillScratch_rxbuf (c : List Byte) (s : State) : (fillScratch c s).rxbuf = s.rxbuf := rfl
@[simp] theorem fillScratch_scratch (c : List Byte) (s : State) : (fillScratch c s).scratch = c ++ s.scratch.drop c.length := rfl
@[simp] theorem fillScratch_phase (c : List Byte) (s : State) : (fillScratch c s).phase = s.phase := rfl
@[simp] theorem fillScratch_req (c : List Byte) (s : State) : (fillScratch c s).req = s.req := rfl
@[simp] theorem fillScratch_resp (c : List Byte) (s : State) : (fillScratch c s).resp = s.resp := rfl
@[simp] theorem fillScratch_reads (c : List Byte) (s : State) : (fillScratch c s).reads = s.reads := rfl
@[simp] theorem fillScratch_rx (c : List Byte) (s : State) : (fillScratch c s).rx = s.rx := rfl
@[simp] theorem fillScratch_tx (c : List Byte) (s : State) : (fillScratch c s).tx = s.tx := rfl
@[simp] theorem fillScratch_wire (c : List Byte) (s : State) : (fillScratch c s).wire = s.wire := rfl
@[simp] theorem fillScratch_line (c : List Byte) (s : State) : (fillScratch c s).line = s.line := rfl

@[simp] theorem deliver_cfg (bs : List Byte) (s : State) : (deliver bs s).cfg = s.cfg := rfl
@[simp] theorem deliver_rxbuf (bs : List Byte) (s : State) : (deliver bs s).rxbuf = s.rxbuf := rfl
@[simp] theorem deliver_scratch (bs : List Byte) (s : State) : (deliver bs s).scratch = s.scratch := rfl
@[simp] theorem deliver_phase (bs : List Byte) (s : State) : (deliver bs s).phase = s.phase := rfl
@[simp] theorem deliver_req (bs : List Byte) (s : State) : (deliver bs s).req = s.req := rfl
@[simp] theorem deliver_resp (bs : List Byte) (s : State) : (deliver bs s).resp = s.resp := rfl
@[simp] theorem deliver_reads (bs : List Byte) (s : State) : (deliver bs s).reads = s.reads := rfl
@[simp] theorem deliver_rx (bs : List Byte) (s : State) : (deliver bs s).rx = s.rx ++ arriving bs := rfl
@[simp] theorem deliver_tx (bs : List Byte) (s : State) : (deliver bs s).tx = s.tx := rfl
@[simp] theorem deliver_wire (bs : List Byte) (s : State) : (deliver bs s).wire = s.wire := rfl
@[simp] theorem deliver_line (bs : List Byte) (s : State) : (deliver bs s).line = s.line := rfl

@[simp] theorem applyReset_cfg (s : State) : (applyReset s).cfg = s.cfg := rfl
@[simp] theorem applyReset_rxbuf (s : State) : (applyReset s).rxbuf = [] := rfl
@[simp] theorem applyReset_scratch (s : State) : (applyReset s).scratch = s.scratch := rfl
@[simp] theorem applyReset_phase (s : State) : (applyReset s).phase = .idle := rfl
@[simp] theorem applyReset_req (s : State) : (applyReset s).req = [] := rfl
@[simp] theorem applyReset_resp (s : State) : (applyReset s).resp = none := rfl
@[simp] theorem applyReset_reads (s : State) : (applyReset s).reads = 0 := rfl
@[simp] theorem applyReset_rx (s : State) : (applyReset s).rx = s.rx := rfl
@[simp] theorem applyReset_tx (s : State) : (applyReset s).tx = s.tx := rfl
@[simp] theorem applyReset_wire (s : State) : (applyReset s).wire = s.wire := rfl
@[simp] theorem applyReset_line (s : State) : (applyReset s).line = s.line := rfl

end Sys2Proof.Machine
end

