-- ==== Sys2Proof/Laws/Codec.lean ====
section
/-! SUPPORT. The small lemmas of the frame layout and of `DEC`: lengths, and what each outcome says of the buffer. -/
namespace Sys2Proof.Machine
open Sys2Proof.Config

theorem frameLen_eq (n : Nat) : frameLen n = n + 5 := by
  unfold frameLen PREFIX_LEN
  omega

theorem maxFrame_eq : MAX_FRAME = 260 := rfl

theorem lenByte_toNat (pl : List Byte) (h : pl.length ≤ MAX_N) : (lenByte pl).toNat = pl.length := by
  unfold lenByte
  simp only [BitVec.toNat_ofNat]
  exact Nat.mod_eq_of_lt (by unfold MAX_N at h; omega)

theorem payloadFits_iff (pl : List Byte) : payloadFits pl = true ↔ pl.length ≤ MAX_N := by
  simp [payloadFits]

theorem checksumRight_iff (cmd tgt : Byte) (pl : List Byte) (c : Byte) :
    checksumRight cmd tgt pl c = true ↔ c = csum cmd tgt (lenByte pl) pl := by
  simp [checksumRight]

@[simp] theorem frameBytes_length (cmd tgt : Byte) (pl : List Byte) (c : Byte) :
    (frameBytes cmd tgt pl c).length = pl.length + 5 := by
  simp [frameBytes]

@[simp] theorem enc_length (cmd tgt : Byte) (pl : List Byte) : (enc cmd tgt pl).length = pl.length + 5 := by
  simp [enc]

@[simp] theorem requestBytes_length (op cmd tgt : Byte) (pl : List Byte) :
    (requestBytes op cmd tgt pl).length = pl.length + 4 := by
  simp [requestBytes]

theorem payloadLen_le (buf : List Byte) : payloadLen buf ≤ 255 := by
  unfold payloadLen
  have := (byteAt buf 3).isLt
  omega

/-- A byte within a buffer does not depend on what follows the buffer. -/
theorem byteAt_append (a b : List Byte) (i : Nat) (h : i < a.length) : byteAt (a ++ b) i = byteAt a i := by
  unfold byteAt
  exact List.getD_append _ _ _ _ h

theorem payloadLen_append (a b : List Byte) (h : 3 < a.length) : payloadLen (a ++ b) = payloadLen a := by
  simp [payloadLen, byteAt_append a b 3 h]

/-- The last lines of a decode look at no byte after the frame. -/
theorem decBody_append (a b : List Byte) (h : frameLen (payloadLen a) ≤ a.length) : decBody (a ++ b) = decBody a := by
  rw [frameLen_eq] at h
  have hp : ((a ++ b).drop PREFIX_LEN).take (payloadLen a) = (a.drop PREFIX_LEN).take (payloadLen a) := by
    rw [List.drop_append_of_le_length (by unfold PREFIX_LEN; omega),
      List.take_append_of_le_length (by rw [List.length_drop]; unfold PREFIX_LEN; omega)]
  unfold decBody
  simp only [payloadLen_append a b (by omega), hp, byteAt_append a b 1 (by omega), byteAt_append a b 2 (by omega),
    byteAt_append a b 3 (by omega), byteAt_append a b (PREFIX_LEN + payloadLen a) (by unfold PREFIX_LEN; omega)]

/-- An incomplete buffer is shorter than its prefix or than the frame its length byte announces. -/
theorem dec_incomplete_short {o : DecodeOrder} {buf : List Byte} (h : dec o buf = .incomplete) :
    buf.length < 4 ∨ buf.length < payloadLen buf + 5 := by
  have hb : decBody buf ≠ .incomplete := by
    unfold decBody
    dsimp only
    split <;> simp
  cases o <;> simp only [dec, frameLen_eq, PREFIX_LEN] at h <;> split_ifs at h <;> first | omega | exact absurd h hb

/-- "A decode returns incomplete input only when ..." (20_memory R62): fewer than 260 bytes are held. -/
theorem dec_incomplete_length {o : DecodeOrder} {buf : List Byte} (h : dec o buf = .incomplete) :
    buf.length ≤ 259 := by
  have := payloadLen_le buf
  rcases dec_incomplete_short h with h | h <;> omega

/-- What a successful decode says: the frame is whole at the front of the buffer, with its header and its checksum. -/
theorem dec_frame {o : DecodeOrder} {buf : List Byte} {f : Frame} {c : Nat} (h : dec o buf = .frame f c) :
    byteAt buf 0 = HDR ∧ 4 ≤ buf.length ∧ c = payloadLen buf + 5 ∧ c ≤ buf.length ∧
      f = { cmd := byteAt buf 1, tgt := byteAt buf 2, n := byteAt buf 3,
            pl := (buf.drop 4).take (payloadLen buf) } ∧
      byteAt buf (4 + payloadLen buf) = csum f.cmd f.tgt f.n f.pl := by
  have key : payloadLen buf + 5 ≤ buf.length → byteAt buf 0 = HDR → decBody buf = .frame f c →
      byteAt buf 0 = HDR ∧ 4 ≤ buf.length ∧ c = payloadLen buf + 5 ∧ c ≤ buf.length ∧
      f = { cmd := byteAt buf 1, tgt := byteAt buf 2, n := byteAt buf 3,
            pl := (buf.drop 4).take (payloadLen buf) } ∧
      byteAt buf (4 + payloadLen buf) = csum f.cmd f.tgt f.n f.pl := by
    intro hl hh hb
    unfold decBody at hb
    simp only [PREFIX_LEN, frameLen_eq] at hb
    split at hb
    · rename_i hc
      obtain ⟨rfl, rfl⟩ := DecResult.frame.inj hb
      exact ⟨hh, by omega, rfl, hl, rfl, hc⟩
    · cases hb
  cases o <;> simp only [dec, frameLen_eq, PREFIX_LEN] at h <;> split_ifs at h <;>
    first | cases h | exact key (by omega) (by simp_all) h

/-- The frame a decode returns is sound, and its length is the bytes it consumes. -/
theorem dec_frame_sound {o : DecodeOrder} {buf : List Byte} {f : Frame} {c : Nat} (h : dec o buf = .frame f c) :
    frameSound f = true ∧ c = frameLen f.n.toNat ∧ c ≤ buf.length ∧ c ≤ MAX_FRAME := by
  obtain ⟨_, _, hc, hle, hf, _⟩ := dec_frame h
  subst hf
  have := payloadLen_le buf
  refine ⟨?_, ?_, hle, by rw [maxFrame_eq]; omega⟩
  · simp only [frameSound, List.length_take, List.length_drop, decide_eq_true_eq]
    rw [show (byteAt buf 3).toNat = payloadLen buf from rfl]
    omega
  · rw [frameLen_eq]
    exact hc

end Sys2Proof.Machine
end

