-- ==== Sys2Proof/Laws/Decode.lean ====
section
/-! SUPPORT. The decoders on laid-out bytes: one lemma for a request, one for a frame. -/
namespace Sys2Proof
open Config Machine

/-- Reading a request back from its layout, with any bytes after it: the op-code's row, on the fields as laid out. -/
theorem decodeRequest_requestBytes (op cmd tgt : Byte) (pl rest : List Byte) (h : pl.length ≤ MAX_N) :
    decodeRequest (requestBytes op cmd tgt pl ++ rest) =
      match requestRows.lookup op with
      | none => .rejected (.illegalOp op)
      | some make => .instr (make cmd tgt pl) rest := by
  have hl := lenByte_toNat pl h
  unfold decodeRequest requestBytes
  simp only [List.cons_append, List.nil_append]
  cases requestRows.lookup op with
  | none => rfl
  | some make => simp [hl]

/-- An unassigned op-code is rejected whatever stands after it. -/
theorem decodeRequest_unassigned (op : Byte) (fields : List Byte) (h : requestRows.lookup op = none) :
    decodeRequest (op :: fields) = .rejected (.illegalOp op) := by
  simp [decodeRequest, h]

/-- Reading a frame back from its layout, with any bytes after it: the row that names it. -/
theorem decodeWire_frameBytes (cmd tgt : Byte) (pl : List Byte) (c : Byte) (rest : List Byte)
    (h : pl.length ≤ MAX_N) :
    decodeWire (frameBytes cmd tgt pl c ++ rest) = .instr (wireRow cmd tgt pl c) rest := by
  have hl := lenByte_toNat pl h
  simp [decodeWire, frameBytes, hl]

/-- Bytes that begin with the header are read as a frame. -/
theorem decode_frameBytes (cmd tgt : Byte) (pl : List Byte) (c : Byte) (rest : List Byte) (h : pl.length ≤ MAX_N) :
    decode (frameBytes cmd tgt pl c ++ rest) = .instr (wireRow cmd tgt pl c) rest := by
  rw [← decodeWire_frameBytes cmd tgt pl c rest h]
  simp [decode, frameBytes]

/-- Bytes that begin with an assigned op-code are read as a request. -/
theorem decode_requestBytes (op cmd tgt : Byte) (pl rest : List Byte) (hop : op ≠ HDR) :
    decode (requestBytes op cmd tgt pl ++ rest) = decodeRequest (requestBytes op cmd tgt pl ++ rest) := by
  simp [decode, requestBytes, hop]

/-- What a decoded request leaves is what its removal from the port leaves (10_state R32). -/
theorem dropRequest_of_decodeRequest {bs rest : List Byte} {i : Instr} (h : decodeRequest bs = .instr i rest) :
    dropRequest bs = rest := by
  rcases bs with _ | ⟨op, _ | ⟨cmd, _ | ⟨tgt, _ | ⟨len, pl⟩⟩⟩⟩ <;> simp only [decodeRequest] at h <;>
    (repeat' split at h) <;> simp at h
  simp [dropRequest, h.2]

end Sys2Proof
end

