-- ==== Sys2Proof/Laws/Ops.lean ====
section
/-! SUPPORT. One lemma per shared operation: everything it can do. Later proofs cite these and do not unfold. -/
namespace Sys2Proof.Machine
open Sys2Proof.Config

/-- The state in which a shared step ends, whichever way it ends. -/
def Stage.state {α : Type} : Stage α → State
  | .done _ s => s
  | .raised s => s
  | .waits s => s

@[simp] theorem Stage.state_done {α : Type} (a : α) (s : State) : (Stage.done a s).state = s := rfl
@[simp] theorem Stage.state_raised {α : Type} (s : State) : (Stage.raised s : Stage α).state = s := rfl
@[simp] theorem Stage.state_waits {α : Type} (s : State) : (Stage.waits s : Stage α).state = s := rfl
@[simp] theorem Stage.andThen_done {α : Type} (a : α) (s : State) (k : α → State → Outcome) :
    (Stage.done a s).andThen k = k a s := rfl
@[simp] theorem Stage.andThen_raised {α : Type} (s : State) (k : α → State → Outcome) :
    (Stage.raised s : Stage α).andThen k = .next s := rfl
@[simp] theorem Stage.andThen_waits {α : Type} (s : State) (k : α → State → Outcome) :
    (Stage.waits s : Stage α).andThen k = .next s := rfl

@[simp] theorem arriving_nil : arriving [] = [] := rfl
@[simp] theorem arriving_cons (b : Byte) (bs : List Byte) : arriving (b :: bs) = [.data b bs] := rfl

/-! ## The TX port -/

/-- Everything `TxWriteAll` can do. -/
theorem txWriteAll_cases (fb : List Byte) (s : State) :
    (s.tx = [] ∧ txWriteAll fb s = .noAnswer) ∨
    (∃ later, s.tx = .ok :: later ∧ txWriteAll fb s = .ok { s with tx := later, wire := s.wire ++ fb }) ∨
    (∃ p later, s.tx = .ioErr p :: later ∧
      txWriteAll fb s = .ioErr (min p fb.length) { s with tx := later, wire := s.wire ++ fb.take p }) := by
  unfold txWriteAll
  split
  · exact .inl ⟨‹_›, rfl⟩
  · exact .inr (.inl ⟨_, ‹_›, rfl⟩)
  · exact .inr (.inr ⟨_, _, ‹_›, rfl⟩)

theorem sendFrame_ok (cmd tgt : Byte) (pl : List Byte) (s : State) (later : List TxAnswer) (h : s.tx = .ok :: later) :
    sendFrame cmd tgt pl s =
      .done () { s with phase := .tx, tx := later, wire := s.wire ++ enc cmd tgt pl } := by
  simp [sendFrame, txWriteAll, h, setPhase]

theorem sendFrame_ioErr (cmd tgt : Byte) (pl : List Byte) (s : State) (p : Nat) (later : List TxAnswer)
    (h : s.tx = .ioErr p :: later) :
    sendFrame cmd tgt pl s =
      .raised (raise .ioWrite { written := some (BitVec.ofNat 9 (min p (pl.length + 5))) }
        { s with phase := .tx, tx := later, wire := s.wire ++ (enc cmd tgt pl).take p }) := by
  simp [sendFrame, txWriteAll, h, setPhase]

theorem sendFrame_noAnswer (cmd tgt : Byte) (pl : List Byte) (s : State) (h : s.tx = []) :
    sendFrame cmd tgt pl s = .waits (setPhase .tx s) := by
  simp [sendFrame, txWriteAll, h]

/-! ## The RX port -/

/-- Everything `RxRead` can do. -/
theorem rxRead_cases (s : State) :
    (s.rx = [] ∧ rxRead s = .noAnswer) ∨
    (∃ b bs later, s.rx = .data b bs :: later ∧
      rxRead s = .data ((b :: bs).take s.cfg.scratchSize)
        (fillScratch ((b :: bs).take s.cfg.scratchSize)
          { s with rx := arriving ((b :: bs).drop s.cfg.scratchSize) ++ later, reads := s.reads + 1 })) ∨
    (∃ later, s.rx = .ended :: later ∧ rxRead s = .ended { s with rx := later, reads := s.reads + 1 }) ∨
    (∃ later, s.rx = .ioErr :: later ∧ rxRead s = .ioErr { s with rx := later, reads := s.reads + 1 }) := by
  unfold rxRead
  split
  · exact .inl ⟨‹_›, rfl⟩
  · exact .inr (.inl ⟨_, _, _, ‹_›, rfl⟩)
  · exact .inr (.inr (.inl ⟨_, ‹_›, rfl⟩))
  · exact .inr (.inr (.inr ⟨_, ‹_›, rfl⟩))

/-- The state after one read that brought `chunk`: the chunk went through SCRATCH to the back of RXBUF. -/
def afterChunk (chunk : List Byte) (later : List RxAnswer) (s : State) : State :=
  { s with rxbuf := s.rxbuf ++ chunk, scratch := chunk ++ s.scratch.drop chunk.length, reads := s.reads + 1,
           rx := later }

/-- Everything one read of the loop can do. -/
theorem readTurn_cases (s : State) :
    (s.rx = [] ∧ readTurn s = .waits s) ∨
    (∃ b bs later, s.rx = .data b bs :: later ∧
      readTurn s = .done () (afterChunk ((b :: bs).take s.cfg.scratchSize)
        (arriving ((b :: bs).drop s.cfg.scratchSize) ++ later) s)) ∨
    (∃ later, s.rx = .ended :: later ∧
      readTurn s = .raised (raise .streamEnded {} { s with rx := later, reads := s.reads + 1 })) ∨
    (∃ later, s.rx = .ioErr :: later ∧
      readTurn s = .raised (raise .ioRead {} { s with rx := later, reads := s.reads + 1 })) := by
  rcases rxRead_cases s with ⟨h, e⟩ | ⟨b, bs, later, h, e⟩ | ⟨later, h, e⟩ | ⟨later, h, e⟩
  · exact .inl ⟨h, by simp [readTurn, e]⟩
  · refine .inr (.inl ⟨b, bs, later, h, ?_⟩)
    simp only [readTurn, e, fillScratch, fifoAppend, afterChunk]
    rw [List.take_left']
    rfl
  · exact .inr (.inr (.inl ⟨later, h, by simp [readTurn, e]⟩))
  · exact .inr (.inr (.inr ⟨later, h, by simp [readTurn, e]⟩))

/-- A chunk that fits SCRATCH is taken whole. -/
theorem readTurn_chunk (s : State) (c : List Byte) (later : List RxAnswer) (hc : c ≠ [])
    (hl : c.length ≤ s.cfg.scratchSize) (h : s.rx = arriving c ++ later) :
    readTurn s = .done () (afterChunk c later s) := by
  obtain ⟨b, bs, rfl⟩ := List.exists_cons_of_ne_nil hc
  rcases readTurn_cases s with ⟨h', _⟩ | ⟨b', bs', later', h', e⟩ | ⟨later', h', _⟩ | ⟨later', h', _⟩ <;>
    rw [h] at h' <;> simp at h'
  obtain ⟨⟨rfl, rfl⟩, rfl⟩ := h'
  rw [e, List.take_of_length_le hl, List.drop_of_length_le hl]
  rfl

/-! ## The decode of the loop -/

/-- Everything `DECODE_FRONT` can do: the buffer changes only on a frame. -/
theorem decodeFront_cases (s : State) :
    (∃ f c, dec s.cfg.decodeOrder s.rxbuf = .frame f c ∧ decodeFront s = (.frame f c, fifoDrop c s)) ∨
    ((∀ f c, dec s.cfg.decodeOrder s.rxbuf ≠ .frame f c) ∧
      decodeFront s = (dec s.cfg.decodeOrder s.rxbuf, s)) := by
  unfold decodeFront
  cases h : dec s.cfg.decodeOrder s.rxbuf with
  | frame f c => exact .inl ⟨f, c, rfl, rfl⟩
  | incomplete => exact .inr ⟨by simp, rfl⟩
  | invalidHeader => exact .inr ⟨by simp, rfl⟩
  | invalidChecksum => exact .inr ⟨by simp, rfl⟩

/-- What one decode of the loop does, by the outcome of `DEC`. -/
theorem decodeTurn_eq (s : State) :
    decodeTurn s =
      match dec s.cfg.decodeOrder s.rxbuf with
      | .frame f c => .done (some (f, c)) (fifoDrop c (setPhase .rxDec s))
      | .invalidHeader => .raised (raise .invalidHeader {} (fifoClear (setPhase .rxDec s)))
      | .invalidChecksum => .raised (raise .invalidChecksum {} (fifoClear (setPhase .rxDec s)))
      | .incomplete => .done none (setPhase .rxWait s) := by
  unfold decodeTurn decodeFront
  simp only [setPhase_cfg, setPhase_rxbuf]
  cases dec s.cfg.decodeOrder s.rxbuf <;> rfl

/-- The loop's decode does not look at PHASE. -/
theorem decodeTurn_setPhase (p : Phase) (s : State) : decodeTurn (setPhase p s) = decodeTurn s := by
  simp only [decodeTurn_eq, setPhase_cfg, setPhase_rxbuf]
  cases dec s.cfg.decodeOrder s.rxbuf <;> rfl

theorem decodeThen_setPhase (more : State → Stage (Frame × Nat)) (p : Phase) (s : State) :
    decodeThen more (setPhase p s) = decodeThen more s := by
  simp only [decodeThen, decodeTurn_setPhase]

/-- What a decode and the rest of the loop do, by the outcome of `DEC`. -/
theorem decodeThen_eq (more : State → Stage (Frame × Nat)) (s : State) :
    decodeThen more s =
      match dec s.cfg.decodeOrder s.rxbuf with
      | .frame f c => .done (f, c) (fifoDrop c (setPhase .rxDec s))
      | .invalidHeader => .raised (raise .invalidHeader {} (fifoClear (setPhase .rxDec s)))
      | .invalidChecksum => .raised (raise .invalidChecksum {} (fifoClear (setPhase .rxDec s)))
      | .incomplete => more (setPhase .rxWait s) := by
  unfold decodeThen
  rw [decodeTurn_eq]
  cases dec s.cfg.decodeOrder s.rxbuf <;> rfl

end Sys2Proof.Machine
end

