-- ==== Sys2Proof/Laws/Receive.lean ====
section
/-! SUPPORT. The read loop as a whole: an induction for relations, and its outcome for any chunking of the stream. -/
namespace Sys2Proof.Machine
open Sys2Proof.Config

section Relation
variable {R : State → State → Prop} (hrefl : ∀ s, R s s) (htrans : ∀ {s t u}, R s t → R t u → R s u)
  (hread : ∀ s, R s (readTurn s).state) (hdec : ∀ s, R s (decodeTurn s).state)
include htrans

theorem decodeThen_rel {more : State → Stage (Frame × Nat)} (hmore : ∀ s, R s (more s).state)
    (hdec : ∀ s, R s (decodeTurn s).state) (s : State) : R s (decodeThen more s).state := by
  have h := hdec s
  unfold decodeThen
  split <;> rename_i e <;> rw [e] at h
  · exact h
  · exact h
  · exact h
  · exact htrans h (hmore _)

include hrefl hread hdec

/-- A reflexive and transitive relation that one read and one decode respect holds from the loop's start to its end. -/
theorem readLoop_rel (k : Nat) : ∀ s, R s (readLoop k s).state := by
  induction k with
  | zero => exact fun s => hrefl s
  | succ k ih =>
    intro s
    have h := hread s
    unfold readLoop
    split <;> rename_i e <;> rw [e] at h
    · exact h
    · exact h
    · exact htrans h (decodeThen_rel (R := R) htrans ih hdec _)

/-- The same for `RECEIVE_FRAME`, where starting its count of reads respects the relation too. -/
theorem receiveFrame_rel (hstart : ∀ s : State, R s { s with reads := 0 }) (s : State) :
    R s (receiveFrame s).state := by
  unfold receiveFrame
  split
  · exact readLoop_rel (R := R) hrefl htrans hread hdec READ_BOUND s
  · exact htrans (hstart s) (decodeThen_rel (R := R) htrans (readLoop_rel (R := R) hrefl htrans hread hdec READ_BOUND) hdec _)

end Relation

/-! ## Any chunking -/

theorem scratchAfter_nil (sc : List Byte) : scratchAfter [] sc = sc := rfl

theorem scratchAfter_cons (c : List Byte) (cs : List (List Byte)) (sc : List Byte) :
    scratchAfter (c :: cs) sc = scratchAfter cs (c ++ sc.drop c.length) := rfl

/-- The loop, from RX_WAIT with at least one chunk to come, reads the chunks that its decodes ask for and then decodes
once more. -/
theorem readLoop_chunks (k : Nat) (later : List RxAnswer) :
    ∀ (c : List Byte) (cs : List (List Byte)) (s : State), s.phase = .rxWait →
      (∀ x ∈ c :: cs, x ≠ [] ∧ x.length ≤ s.cfg.scratchSize) → s.rx = (c :: cs).flatMap arriving ++ later →
      (∀ j < cs.length, dec s.cfg.decodeOrder (s.rxbuf ++ c ++ (cs.take j).flatten) = .incomplete) →
      readLoop (k + cs.length + 1) s =
        decodeThen (readLoop k)
          { s with rxbuf := s.rxbuf ++ (c :: cs).flatten, scratch := scratchAfter (c :: cs) s.scratch,
                   reads := s.reads + cs.length + 1, rx := later } := by
  intro c cs
  induction cs generalizing c with
  | nil =>
    intro s _ hs hrx _
    have hc := hs c (by simp)
    rw [show k + ([] : List (List Byte)).length + 1 = k + 1 from rfl]
    unfold readLoop
    rw [readTurn_chunk s c later hc.1 hc.2 (by simpa using hrx)]
    simp [afterChunk, scratchAfter]
  | cons d ds ih =>
    intro s hp hs hrx hd
    have hc := hs c (by simp)
    have h0 := hd 0 (by simp)
    rw [show k + (d :: ds).length + 1 = (k + ds.length + 1) + 1 from by simp; omega]
    unfold readLoop
    rw [readTurn_chunk s c ((d :: ds).flatMap arriving ++ later) hc.1 hc.2 (by simpa using hrx)]
    dsimp only
    rw [decodeThen_eq]
    have h0' : dec (afterChunk c ((d :: ds).flatMap arriving ++ later) s).cfg.decodeOrder
        (afterChunk c ((d :: ds).flatMap arriving ++ later) s).rxbuf = .incomplete := by
      simpa [afterChunk] using h0
    rw [h0']
    dsimp only
    rw [ih d _ (by simp) (fun x hx => by simpa [afterChunk] using hs x (List.mem_cons_of_mem _ hx))
      (by simp [afterChunk]) (fun j hj => by
        have := hd (j + 1) (by simpa using hj)
        simpa [afterChunk, List.append_assoc] using this)]
    congr 1
    simp [afterChunk, setPhase, scratchAfter, hp, List.append_assoc]
    omega

/-- As many chunks as bytes at most, where no chunk is empty. -/
theorem length_le_flatten (l : List (List Byte)) (h : ∀ c ∈ l, c ≠ []) : l.length ≤ l.flatten.length := by
  induction l with
  | nil => simp
  | cons c cs ih =>
    have h1 : 1 ≤ c.length := List.length_pos_iff.mpr (h c (by simp))
    have h2 := ih fun x hx => h x (List.mem_cons_of_mem _ hx)
    simp only [List.length_cons, List.flatten_cons, List.length_append]
    omega

/-- The reads `ReadsTo` names are at most READ_BOUND (41 R130): every chunk brought a byte, and a decode of 260 bytes is
never incomplete. -/
theorem readsTo_length (s : State) (chunks : List (List Byte)) (later : List RxAnswer) (h : ReadsTo s chunks later) :
    chunks.length ≤ READ_BOUND := by
  rcases Nat.eq_zero_or_pos chunks.length with h0 | h0
  · omega
  have hd := dec_incomplete_length (h.demand (chunks.length - 1) (by omega))
  have := length_le_flatten (chunks.take (chunks.length - 1)) fun c hc => (h.sizes c (List.mem_of_mem_take hc)).1
  simp only [List.length_append, List.length_take] at this hd
  have : READ_BOUND = 260 := rfl
  omega

/-- Where the bytes held are still incomplete, at least one read is left. -/
theorem readsTo_left (s : State) (chunks : List (List Byte)) (later : List RxAnswer) (h : ReadsTo s chunks later)
    (hd : dec s.cfg.decodeOrder (bufAfter s chunks) = .incomplete) : ∃ k, READ_BOUND - chunks.length = k + 1 := by
  have h1 := dec_incomplete_length hd
  have h2 := length_le_flatten chunks fun c hc => (h.sizes c hc).1
  have : READ_BOUND = 260 := rfl
  rw [bufAfter, List.length_append] at h1
  exact ⟨READ_BOUND - chunks.length - 1, by omega⟩

/-- What the loop does where the port has no data for it. -/
theorem readLoop_noAnswer (k : Nat) (s : State) (h : s.rx = []) : readLoop (k + 1) s = .waits s := by
  simp [readLoop, readTurn, rxRead, h]

theorem readLoop_ended (k : Nat) (s : State) (later : List RxAnswer) (h : s.rx = .ended :: later) :
    readLoop (k + 1) s = .raised (raise .streamEnded {} { s with rx := later, reads := s.reads + 1 }) := by
  simp [readLoop, readTurn, rxRead, h]

theorem readLoop_ioErr (k : Nat) (s : State) (later : List RxAnswer) (h : s.rx = .ioErr :: later) :
    readLoop (k + 1) s = .raised (raise .ioRead {} { s with rx := later, reads := s.reads + 1 }) := by
  simp [readLoop, readTurn, rxRead, h]

/-- From RX_WAIT, with an incomplete frame held, the loop reads the chunks `ReadsTo` names and decodes once more. -/
theorem readLoop_readsTo (k : Nat) (s : State) (chunks : List (List Byte)) (later : List RxAnswer) (hp : s.phase = .rxWait)
    (hd : dec s.cfg.decodeOrder s.rxbuf = .incomplete) (h : ReadsTo s chunks later) (hn : chunks.length ≤ k) :
    readLoop k s = decodeThen (readLoop (k - chunks.length)) (afterReads s s.reads chunks later (bufAfter s chunks)) := by
  cases chunks with
  | nil =>
    have hrx : s.rx = later := by simpa using h.stream
    have hs : setPhase .rxWait s = s := by rw [← hp]; rfl
    have ha : afterReads s s.reads [] later (bufAfter s []) = s := by
      subst hrx
      simp [afterReads, bufAfter, scratchAfter]
    rw [ha, decodeThen_eq, hd, hs]
    rfl
  | cons c cs =>
    have hk : k = (k - (c :: cs).length) + cs.length + 1 := by
      simp only [List.length_cons] at hn ⊢
      omega
    conv => lhs; rw [hk]
    rw [readLoop_chunks _ later c cs s hp h.sizes h.stream
      (fun j hj => by
        have := h.demand (j + 1) (by simpa using hj)
        simpa [List.append_assoc] using this)]
    simp [afterReads, bufAfter, Nat.add_assoc]

/-- `RECEIVE_FRAME`, started afresh or resumed, reads exactly the chunks `ReadsTo` names, and then decodes once more. -/
theorem receiveFrame_readsTo (s : State) (n : Nat) (chunks : List (List Byte)) (later : List RxAnswer) (hs : Started s n)
    (h : ReadsTo s chunks later) :
    receiveFrame s =
      decodeThen (readLoop (READ_BOUND - chunks.length)) (afterReads s n chunks later (bufAfter s chunks)) := by
  have hn := readsTo_length s chunks later h
  unfold receiveFrame
  rcases hs with ⟨hp, rfl⟩ | ⟨hp, rfl, hd⟩
  · rw [if_neg hp]
    cases chunks with
    | nil =>
      have hrx : s.rx = later := by simpa using h.stream
      subst hrx
      simp [afterReads, bufAfter, scratchAfter]
    | cons c cs =>
      have h0 : dec s.cfg.decodeOrder s.rxbuf = .incomplete := by simpa using h.demand 0 (by simp)
      rw [decodeThen_eq, show ({ s with reads := 0 } : State).rxbuf = s.rxbuf from rfl,
        show ({ s with reads := 0 } : State).cfg = s.cfg from rfl, h0]
      dsimp only
      rw [readLoop_readsTo READ_BOUND (setPhase .rxWait { s with reads := 0 }) (c :: cs) later rfl h0
        ⟨h.sizes, h.stream, h.demand⟩ hn]
      exact decodeThen_setPhase _ .rxWait (afterReads s 0 (c :: cs) later (bufAfter s (c :: cs)))
  · rw [if_pos hp]
    exact readLoop_readsTo READ_BOUND s chunks later hp hd h hn

/-- The outcome of `RECEIVE_FRAME` for any chunking: by what the bytes held after the last read decode to, and, on
incomplete input, by the port's next answer (41 R121). -/
theorem receiveFrame_outcome (s : State) (n : Nat) (chunks : List (List Byte)) (later : List RxAnswer) (hs : Started s n)
    (h : ReadsTo s chunks later) :
    receiveFrame s =
      match dec s.cfg.decodeOrder (bufAfter s chunks) with
      | .frame f c => .done (f, c) (setPhase .rxDec (afterReads s n chunks later ((bufAfter s chunks).drop c)))
      | .invalidHeader => .raised (raise .invalidHeader {} (setPhase .rxDec (afterReads s n chunks later [])))
      | .invalidChecksum => .raised (raise .invalidChecksum {} (setPhase .rxDec (afterReads s n chunks later [])))
      | .incomplete =>
        readLoop (READ_BOUND - chunks.length) (setPhase .rxWait (afterReads s n chunks later (bufAfter s chunks))) := by
  rw [receiveFrame_readsTo s n chunks later hs h, decodeThen_eq]
  have : (afterReads s n chunks later (bufAfter s chunks)).rxbuf = bufAfter s chunks := rfl
  rw [this, show (afterReads s n chunks later (bufAfter s chunks)).cfg = s.cfg from rfl]
  cases dec s.cfg.decodeOrder (bufAfter s chunks) <;> rfl

end Sys2Proof.Machine
end

