-- ==== Sys2Proof/Laws/Exec.lean ====
section
/-! SUPPORT. What `exec` does with the instructions of each kind, by the tables of Safety: one lemma a kind, so that a proof
about a kind splits over the constructors only here. -/
namespace Sys2Proof.Machine
open Sys2Proof.Config

theorem exec_handshake {i : Instr} {cmd tgt : Byte} {pl : List Byte} (h : handshakeFields i = some (cmd, tgt, pl))
    (s : State) : exec i s = handshake cmd tgt pl s := by
  cases i <;> simp only [handshakeFields, Option.some.injEq, Prod.mk.injEq, reduceCtorEq] at h <;>
    obtain ⟨rfl, rfl, rfl⟩ := h <;> rfl

theorem exec_query {i : Instr} {cmd tgt : Byte} {fn : Byte → Option (BitVec 1)}
    (h : queryFields i = some (cmd, tgt, fn)) (s : State) : exec i s = query cmd tgt fn s := by
  cases i <;> simp only [queryFields, Option.some.injEq, Prod.mk.injEq, reduceCtorEq] at h <;>
    obtain ⟨rfl, rfl, rfl⟩ := h <;> rfl

theorem exec_send {i : Instr} {cmd tgt : Byte} {pl : List Byte} (h : sendFields i = some (cmd, tgt, pl))
    (s : State) : exec i s = sendOnly cmd tgt pl s := by
  cases i <;> simp only [sendFields, Option.some.injEq, Prod.mk.injEq, reduceCtorEq] at h <;>
    obtain ⟨rfl, rfl, rfl⟩ := h <;> rfl

/-- A wire row's encoding is the frame of its fields. -/
theorem encode_wire {i : Instr} {cmd tgt : Byte} {pl : List Byte} {c : Byte}
    (h : wireFields i = some (cmd, tgt, pl, c)) : encode i = frameBytes cmd tgt pl c := by
  cases i <;> simp only [wireFields, checked, Option.some.injEq, Prod.mk.injEq, reduceCtorEq] at h <;>
    obtain ⟨rfl, rfl, rfl, rfl⟩ := h <;> rfl

theorem exec_wire {i : Instr} {cmd tgt : Byte} {pl : List Byte} {c : Byte}
    (h : wireFields i = some (cmd, tgt, pl, c)) (s : State) : exec i s = arrive (frameBytes cmd tgt pl c) s := by
  rw [← encode_wire h]
  cases i <;> simp only [wireFields, reduceCtorEq] at h <;>
    simp only [exec, execFrame, execFrAPowerOn, execFrAPowerOff, execFrAPanelOn, execFrAPanelOff, execFrPwrGet,
      execFrPnlGet, execFrBPowerOn, execFrBPowerOff, execFrBPanelOn, execFrBPanelOff, execAcknak, execAck]

/-- Every instruction is of exactly one of these kinds. -/
theorem instr_kinds (i : Instr) :
    (∃ cmd tgt pl, i = .encode cmd tgt pl) ∨ i = .decode ∨ i = .receive ∨ handshakeFields i ≠ none ∨
      queryFields i ≠ none ∨ sendFields i ≠ none ∨ wireFields i ≠ none := by
  cases i <;> simp [handshakeFields, queryFields, sendFields, wireFields]

theorem sentBytes_handshake {i : Instr} {cmd tgt : Byte} {pl : List Byte}
    (h : handshakeFields i = some (cmd, tgt, pl)) : sentBytes i = enc cmd tgt pl := by
  simp only [sentBytes, h]

theorem sentBytes_query {i : Instr} {cmd tgt : Byte} {fn : Byte → Option (BitVec 1)}
    (h : queryFields i = some (cmd, tgt, fn)) : sentBytes i = enc cmd tgt [] := by
  cases i <;> simp only [queryFields, Option.some.injEq, Prod.mk.injEq, reduceCtorEq] at h <;>
    obtain ⟨rfl, rfl, rfl⟩ := h <;> rfl

theorem sentBytes_send {i : Instr} {cmd tgt : Byte} {pl : List Byte} (h : sendFields i = some (cmd, tgt, pl)) :
    sentBytes i = enc cmd tgt pl := by
  cases i <;> simp only [sendFields, Option.some.injEq, Prod.mk.injEq, reduceCtorEq] at h <;>
    obtain ⟨rfl, rfl, rfl⟩ := h <;> rfl

/-- Only the operations that receive go on with an answer in RX_WAIT, and they do so by their own meaning. -/
theorem resumeReceive_cases (i : Instr) (s : State) :
    (receives i ∧ resumeReceive i s = exec i s) ∨ (¬ receives i ∧ resumeReceive i s = .next s) := by
  cases i <;> simp [receives, handshakeFields, queryFields, resumeReceive, exec]

/-- Everything an arrival can do: the blocked operation goes on with the bytes in the stream, or they only wait there. -/
theorem arrive_cases (bs : List Byte) (s : State) :
    (∃ j rest, s.phase = .rxWait ∧ decodeRequest s.req = .instr j rest ∧ receives j ∧
      arrive bs s = exec j (deliver bs s)) ∨
    ((s.phase = .rxWait → ∀ j rest, decodeRequest s.req = .instr j rest → ¬ receives j) ∧
      arrive bs s = .next (deliver bs s)) := by
  unfold arrive
  split
  · split
    · rename_i i rest hd
      rcases resumeReceive_cases i (deliver bs s) with ⟨hr, e⟩ | ⟨hn, e⟩
      · exact .inl ⟨i, rest, ‹_›, hd, hr, e⟩
      · refine .inr ⟨fun _ j r h => ?_, e⟩
        rw [hd, Decoded.instr.injEq] at h
        exact h.1 ▸ hn
    · rename_i r hd
      exact .inr ⟨fun _ j rest h => by simp [hd] at h, rfl⟩
  · exact .inr ⟨fun h => absurd h ‹_›, rfl⟩

/-! ## Operations at their reads -/

/-- Where an operation stands at its reads, it goes on with `RECEIVE_FRAME` from `t`, after a write in phase TX. -/
theorem exec_reading {i : Instr} {s t : State} {n : Nat} (h : Reading i s t n) :
    ∃ u, (u = t ∨ u = setPhase .tx t) ∧ Started u n ∧
      (i = .receive → exec i s =
        (receiveFrame u).andThen fun r v => .next (respond none (some r.1) (some (BitVec.ofNat 9 r.2)) none v)) ∧
      (handshakeFields i ≠ none → exec i s =
        (awaitAck u).andThen fun f v => .next (respond none (some f) none none v)) ∧
      (∀ cmd tgt statusOf, queryFields i = some (cmd, tgt, statusOf) → exec i s =
        (queryReply u).andThen fun f v => statusReply statusOf f (setPhase .stDec v)) := by
  obtain ⟨hs, ⟨hp, hw⟩ | ⟨hp, _, rfl⟩⟩ := h
  · have hn : n = 0 := by
      rcases hs with h | h
      · exact h.2
      · exact absurd h.1 hp
    subst hn
    rcases hw with ⟨rfl, rfl⟩ | ⟨_, later, htx, rfl⟩
    · exact ⟨_, .inl rfl, hs, fun _ => rfl, by simp [handshakeFields], by simp [queryFields]⟩
    · refine ⟨_, .inr rfl, .inl ⟨by simp, rfl⟩, ?_, ?_, ?_⟩
      · rintro rfl
        simp [handshakeFields, queryFields] at *
      · intro hk
        obtain ⟨⟨cmd, tgt, pl⟩, e⟩ := Option.ne_none_iff_exists'.mp hk
        rw [exec_handshake e, handshake, sendThen, if_neg hp, sendFrame_ok _ _ _ _ _ htx, sentBytes_handshake e]
        rfl
      · intro cmd tgt statusOf e
        rw [exec_query e, query, sendThen, if_neg hp, sendFrame_ok _ _ _ _ _ htx, sentBytes_query e]
        rfl
  · refine ⟨_, .inl rfl, hs, ?_, ?_, ?_⟩
    · rintro rfl
      rfl
    · intro hk
      obtain ⟨⟨cmd, tgt, pl⟩, e⟩ := Option.ne_none_iff_exists'.mp hk
      rw [exec_handshake e, handshake, sendThen, if_pos hp]
    · intro cmd tgt statusOf e
      rw [exec_query e, query, sendThen, if_pos hp]

end Sys2Proof.Machine
end

