-- ==== Sys2Proof/Laws/Outcome.lean ====
section
/-! SUPPORT. What `RECEIVE_FRAME` can do from any state: one lemma for how it ends and what it leaves alone, one for the
bounds it keeps. -/
namespace Sys2Proof.Machine
open Sys2Proof.Config

/-- The codes with which a receive can fail (60 R200). -/
def recvCodes : List Code := [.invalidHeader, .invalidChecksum, .streamEnded, .ioRead]

/-- How a receive that started in `s` ends: with a sound frame and nothing answered yet; with one of its errors; or in
RX_WAIT with nothing answered. -/
def Ends (s : State) : Stage (Frame × Nat) → Prop
  | .done r u => frameSound r.1 = true ∧ r.2 = frameLen r.1.n.toNat ∧ u.phase = .rxDec ∧ u.req = s.req ∧ u.resp = s.resp
  | .raised u => u.phase = .idle ∧ u.req = dropRequest s.req ∧ ∃ code ∈ recvCodes, u.resp = some { code := code }
  | .waits u => u.phase = .rxWait ∧ u.req = s.req ∧ u.resp = s.resp

/-- What a receive leaves alone, and that it takes bytes from the front of RXBUF and the stream only. -/
structure Keeps (s t : State) : Prop where
  cfg : t.cfg = s.cfg
  tx : t.tx = s.tx
  wire : t.wire = s.wire
  line : t.line = s.line
  bytes : (t.rxbuf ++ streamBytes t.rx) <:+ (s.rxbuf ++ streamBytes s.rx)

theorem Keeps.refl (s : State) : Keeps s s := ⟨rfl, rfl, rfl, rfl, List.suffix_refl _⟩

theorem Keeps.trans {s t u : State} (h : Keeps s t) (g : Keeps t u) : Keeps s u :=
  ⟨g.cfg.trans h.cfg, g.tx.trans h.tx, g.wire.trans h.wire, g.line.trans h.line, g.bytes.trans h.bytes⟩

@[simp] theorem streamBytes_arriving (bs : List Byte) : streamBytes (arriving bs) = bs := by
  cases bs <;> simp [streamBytes]

@[simp] theorem streamBytes_append (a b : List RxAnswer) : streamBytes (a ++ b) = streamBytes a ++ streamBytes b := by
  simp [streamBytes]

theorem readTurn_keeps (s : State) : Keeps s (readTurn s).state := by
  rcases readTurn_cases s with ⟨_, e⟩ | ⟨b, bs, later, h, e⟩ | ⟨later, h, e⟩ | ⟨later, h, e⟩ <;> rw [e]
  · exact Keeps.refl s
  · refine ⟨rfl, rfl, rfl, rfl, ?_⟩
    simp only [Stage.state_done, afterChunk, h, streamBytes_append, streamBytes_arriving, List.append_assoc]
    rw [← List.append_assoc (List.take _ _), List.take_append_drop]
    exact List.suffix_refl _
  all_goals
    refine ⟨rfl, rfl, rfl, rfl, ?_⟩
    simp [finish, h, streamBytes]

theorem decodeTurn_keeps (s : State) : Keeps s (decodeTurn s).state := by
  rw [decodeTurn_eq]
  cases dec s.cfg.decodeOrder s.rxbuf <;> refine ⟨rfl, rfl, rfl, rfl, ?_⟩
  · exact List.suffix_refl _
  · exact List.suffix_append _ _
  · exact List.suffix_append _ _
  · rename_i f c
    refine ⟨s.rxbuf.take c, ?_⟩
    simp [← List.append_assoc]

/-- A receive leaves the parameters, the TX port, the wire and the line alone, and takes bytes from the front only. -/
theorem receiveFrame_keeps (s : State) : Keeps s (receiveFrame s).state :=
  receiveFrame_rel (R := Keeps) Keeps.refl Keeps.trans readTurn_keeps decodeTurn_keeps
    (fun _ => ⟨rfl, rfl, rfl, rfl, List.suffix_refl _⟩) s

theorem decodeThen_ends {more : State → Stage (Frame × Nat)} (s : State)
    (hmore : Ends (setPhase .rxWait s) (more (setPhase .rxWait s))) : Ends s (decodeThen more s) := by
  rw [decodeThen_eq]
  cases h : dec s.cfg.decodeOrder s.rxbuf with
  | incomplete => exact hmore
  | invalidHeader => exact ⟨rfl, rfl, _, by simp [recvCodes], rfl⟩
  | invalidChecksum => exact ⟨rfl, rfl, _, by simp [recvCodes], rfl⟩
  | frame f c =>
    obtain ⟨h1, h2, _⟩ := dec_frame_sound h
    exact ⟨h1, h2, rfl, rfl, rfl⟩

theorem readLoop_ends (k : Nat) : ∀ s : State, s.phase = .rxWait → Ends s (readLoop k s) := by
  induction k with
  | zero => exact fun s h => ⟨h, rfl, rfl⟩
  | succ k ih =>
    intro s h
    unfold readLoop
    rcases readTurn_cases s with ⟨_, e⟩ | ⟨b, bs, later, _, e⟩ | ⟨later, _, e⟩ | ⟨later, _, e⟩ <;> rw [e]
    · exact ⟨h, rfl, rfl⟩
    · exact decodeThen_ends (afterChunk _ _ s) (ih _ rfl)
    · exact ⟨rfl, rfl, _, by simp [recvCodes], rfl⟩
    · exact ⟨rfl, rfl, _, by simp [recvCodes], rfl⟩

/-- How a receive ends, from any state. -/
theorem receiveFrame_ends (s : State) : Ends s (receiveFrame s) := by
  unfold receiveFrame
  split
  · exact readLoop_ends _ s ‹_›
  · exact decodeThen_ends { s with reads := 0 } (readLoop_ends _ _ rfl)

/-! ## Where the frame of a receive comes from -/

/-- `f` is decoded from a first part of the bytes held and waiting in the stream. -/
def DecodedFrom (s : State) (f : Frame) (c : Nat) : Prop :=
  ∃ buf, dec s.cfg.decodeOrder buf = .frame f c ∧ buf <+: s.rxbuf ++ streamBytes s.rx

theorem decodeThen_decodedFrom {more : State → Stage (Frame × Nat)} {s u : State} {f : Frame} {c : Nat}
    (hmore : more (setPhase .rxWait s) = .done (f, c) u → DecodedFrom s f c) (h : decodeThen more s = .done (f, c) u) :
    DecodedFrom s f c := by
  rw [decodeThen_eq] at h
  cases hd : dec s.cfg.decodeOrder s.rxbuf <;> rw [hd] at h
  · exact hmore h
  · cases h
  · cases h
  · cases h
    exact ⟨s.rxbuf, hd, List.prefix_append _ _⟩

theorem readLoop_decodedFrom (k : Nat) :
    ∀ (s u : State) (f : Frame) (c : Nat), readLoop k s = .done (f, c) u → DecodedFrom s f c := by
  induction k with
  | zero =>
    intro s u f c h
    simp [readLoop] at h
  | succ k ih =>
    intro s u f c h
    unfold readLoop at h
    rcases readTurn_cases s with ⟨_, e⟩ | ⟨b, bs, later, hx, e⟩ | ⟨later, _, e⟩ | ⟨later, _, e⟩ <;> rw [e] at h
    · cases h
    · obtain ⟨buf, hd, hp⟩ := decodeThen_decodedFrom (ih (setPhase .rxWait _) u f c) h
      refine ⟨buf, hd, ?_⟩
      simp only [afterChunk, streamBytes_append, streamBytes_arriving, List.append_assoc] at hp
      rw [← List.append_assoc (List.take _ _), List.take_append_drop] at hp
      rw [hx]
      simpa [streamBytes] using hp
    · cases h
    · cases h

/-- The frame of a receive is decoded from a first part of the bytes held and waiting in the stream. -/
theorem receiveFrame_decodedFrom {s u : State} {f : Frame} {c : Nat} (h : receiveFrame s = .done (f, c) u) :
    DecodedFrom s f c := by
  unfold receiveFrame at h
  split at h
  · exact readLoop_decodedFrom _ _ _ _ _ h
  · exact decodeThen_decodedFrom (s := { s with reads := 0 })
      (readLoop_decodedFrom _ (setPhase .rxWait { s with reads := 0 }) u f c) h

/-! ## Bounds -/

/-- The bounds of 20_memory R62, 10_state R22 and 41 R130 at the end of a receive; where it waits, its state is one to
wait in and the port has no answer. -/
def Bounded (s : State) (x : Stage (Frame × Nat)) : Prop :=
  x.state.rxbuf.length ≤ MAX_FRAME - 1 + s.cfg.scratchSize ∧ x.state.scratch.length = s.cfg.scratchSize ∧
    x.state.reads ≤ READ_BOUND ∧
    match x with
    | .done _ _ => True
    | .raised _ => True
    | .waits u => dec u.cfg.decodeOrder u.rxbuf = .incomplete ∧ u.reads ≤ u.rxbuf.length ∧ u.rx = []

theorem decodeThen_bounded {more : State → Stage (Frame × Nat)} (s : State)
    (hb : s.rxbuf.length ≤ MAX_FRAME - 1 + s.cfg.scratchSize) (hs : s.scratch.length = s.cfg.scratchSize)
    (hr : s.reads ≤ READ_BOUND)
    (hmore : dec s.cfg.decodeOrder s.rxbuf = .incomplete → Bounded (setPhase .rxWait s) (more (setPhase .rxWait s))) :
    Bounded s (decodeThen more s) := by
  rw [decodeThen_eq]
  cases h : dec s.cfg.decodeOrder s.rxbuf with
  | incomplete => exact hmore h
  | invalidHeader => exact ⟨by simp, hs, hr, trivial⟩
  | invalidChecksum => exact ⟨by simp, hs, hr, trivial⟩
  | frame f c => exact ⟨by simp; omega, hs, hr, trivial⟩

/-- The loop from a state to wait in, with reads left for every byte that 260 bytes still lack. -/
theorem readLoop_bounded (k : Nat) :
    ∀ s : State, 1 ≤ s.cfg.scratchSize → s.scratch.length = s.cfg.scratchSize →
      dec s.cfg.decodeOrder s.rxbuf = .incomplete → s.reads ≤ s.rxbuf.length → READ_BOUND ≤ k + s.rxbuf.length →
      Bounded s (readLoop k s) := by
  have hB : READ_BOUND = 260 := rfl
  have hM : MAX_FRAME = 260 := rfl
  induction k with
  | zero =>
    intro s _ _ hd _ hk
    have := dec_incomplete_length hd
    omega
  | succ k ih =>
    intro s h1 hs hd hr hk
    have hl := dec_incomplete_length hd
    unfold readLoop
    rcases readTurn_cases s with ⟨hx, e⟩ | ⟨b, bs, later, _, e⟩ | ⟨later, _, e⟩ | ⟨later, _, e⟩ <;> rw [e]
    · exact ⟨by simp only [Stage.state_waits]; omega, hs, by simp only [Stage.state_waits]; omega, hd, hr, hx⟩
    · have hc : ((b :: bs).take s.cfg.scratchSize).length ≤ s.cfg.scratchSize := by simp
      have hc1 : 1 ≤ ((b :: bs).take s.cfg.scratchSize).length := by
        rw [List.length_take, List.length_cons]
        omega
      generalize (b :: bs).take s.cfg.scratchSize = c at hc hc1
      have hsc : (afterChunk c (arriving ((b :: bs).drop s.cfg.scratchSize) ++ later) s).scratch.length =
          s.cfg.scratchSize := by
        simp only [afterChunk, List.length_append, List.length_drop]
        omega
      refine decodeThen_bounded (afterChunk c _ s) ?_ hsc ?_ fun hd' => ?_
      · simp only [afterChunk, List.length_append]
        omega
      · simp only [afterChunk]
        omega
      · refine ih _ h1 hsc hd' ?_ ?_
        · simp only [setPhase, afterChunk, List.length_append]
          omega
        · simp only [setPhase, afterChunk, List.length_append]
          omega
    · exact ⟨by simp; omega, hs, by simp; omega, trivial⟩
    · exact ⟨by simp; omega, hs, by simp; omega, trivial⟩

/-- The bounds a receive keeps, from every state that meets the invariant's part about it. -/
theorem receiveFrame_bounded (s : State) (h1 : 1 ≤ s.cfg.scratchSize)
    (hb : s.rxbuf.length ≤ MAX_FRAME - 1 + s.cfg.scratchSize) (hs : s.scratch.length = s.cfg.scratchSize)
    (hw : s.phase = .rxWait → dec s.cfg.decodeOrder s.rxbuf = .incomplete)
    (hr : s.phase = .rxWait → s.reads ≤ s.rxbuf.length) : Bounded s (receiveFrame s) := by
  unfold receiveFrame
  split
  · rename_i hp
    exact readLoop_bounded READ_BOUND s h1 hs (hw hp) (hr hp) (by omega)
  · refine decodeThen_bounded { s with reads := 0 } hb hs (Nat.zero_le _) fun hd => ?_
    exact readLoop_bounded READ_BOUND (setPhase .rxWait { s with reads := 0 }) h1 hs hd (Nat.zero_le _) (by omega)

/-! ## The number of reads allowed -/

/-- The loop does not depend on the number of reads allowed, as long as it is one for every byte that 260 bytes lack. -/
theorem readLoop_bound_irrelevant (k : Nat) :
    ∀ (k' : Nat) (s : State), 1 ≤ s.cfg.scratchSize → dec s.cfg.decodeOrder s.rxbuf = .incomplete →
      READ_BOUND ≤ k + s.rxbuf.length → READ_BOUND ≤ k' + s.rxbuf.length → readLoop k s = readLoop k' s := by
  have hB : READ_BOUND = 260 := rfl
  induction k with
  | zero =>
    intro k' s _ hd hk _
    have := dec_incomplete_length hd
    omega
  | succ k ih =>
    intro k' s h1 hd hk hk'
    have := dec_incomplete_length hd
    obtain ⟨k', rfl⟩ : ∃ j, k' = j + 1 := ⟨k' - 1, by omega⟩
    unfold readLoop
    rcases readTurn_cases s with ⟨_, e⟩ | ⟨b, bs, later, _, e⟩ | ⟨later, _, e⟩ | ⟨later, _, e⟩ <;> rw [e]
    have hc : 1 ≤ ((b :: bs).take s.cfg.scratchSize).length := by
      rw [List.length_take, List.length_cons]
      omega
    generalize (b :: bs).take s.cfg.scratchSize = c at hc
    dsimp only
    rw [decodeThen_eq, decodeThen_eq]
    cases hd' : dec (afterChunk c (arriving ((b :: bs).drop s.cfg.scratchSize) ++ later) s).cfg.decodeOrder
        (afterChunk c (arriving ((b :: bs).drop s.cfg.scratchSize) ++ later) s).rxbuf <;> dsimp only
    refine ih k' _ h1 hd' ?_ ?_ <;> simp only [setPhase, afterChunk, List.length_append] <;> omega

end Sys2Proof.Machine
end

