-- ==== Sys2Proof/Laws/PerInstr.lean ====
section
/-! SUPPORT. The per-instruction families of LAWS.json. -/

/-! ## RoundTrip: decoding the encoding of a well-formed instruction gives it back. -/
namespace Sys2Proof.Laws.RoundTrip
open Sys2Proof Config Machine

/-- Decoding the encoding, with any bytes after it, gives the instruction and those bytes. -/
def Statement (i : Instr) : Prop :=
  wellFormed i = true → ∀ rest : List Byte, Sys2Proof.decode (Sys2Proof.encode i ++ rest) = .instr i rest

theorem encode (cmd tgt : Byte) (pl : List Byte) : Statement (.encode cmd tgt pl) := by
  intro h rest
  have h : pl.length ≤ MAX_N := by simpa [wellFormed, payloadFits] using h
  exact (decode_requestBytes _ _ _ _ _ (by decide)).trans (decodeRequest_requestBytes _ _ _ _ _ h)
theorem decode : Statement .decode := fun _ _ =>
  (decode_requestBytes _ _ _ _ _ (by decide)).trans (decodeRequest_requestBytes _ _ _ _ _ (by decide))
theorem send (cmd tgt : Byte) (pl : List Byte) : Statement (.send cmd tgt pl) := by
  intro h rest
  have h : pl.length ≤ MAX_N := by simpa [wellFormed, payloadFits] using h
  exact (decode_requestBytes _ _ _ _ _ (by decide)).trans (decodeRequest_requestBytes _ _ _ _ _ h)
theorem receive : Statement .receive := fun _ _ =>
  (decode_requestBytes _ _ _ _ _ (by decide)).trans (decodeRequest_requestBytes _ _ _ _ _ (by decide))
theorem sendAck (cmd tgt : Byte) (pl : List Byte) : Statement (.sendAck cmd tgt pl) := by
  intro h rest
  have h : pl.length ≤ MAX_N := by simpa [wellFormed, payloadFits] using h
  exact (decode_requestBytes _ _ _ _ _ (by decide)).trans (decodeRequest_requestBytes _ _ _ _ _ h)
theorem aPowerOn (t : Byte) : Statement (.aPowerOn t) := fun _ _ =>
  (decode_requestBytes _ _ _ _ _ (by decide)).trans (decodeRequest_requestBytes _ _ _ _ _ (by decide))
theorem aPowerOff (t : Byte) : Statement (.aPowerOff t) := fun _ _ =>
  (decode_requestBytes _ _ _ _ _ (by decide)).trans (decodeRequest_requestBytes _ _ _ _ _ (by decide))
theorem aPanelOn (t : Byte) : Statement (.aPanelOn t) := fun _ _ =>
  (decode_requestBytes _ _ _ _ _ (by decide)).trans (decodeRequest_requestBytes _ _ _ _ _ (by decide))
theorem aPanelOff (t : Byte) : Statement (.aPanelOff t) := fun _ _ =>
  (decode_requestBytes _ _ _ _ _ (by decide)).trans (decodeRequest_requestBytes _ _ _ _ _ (by decide))
theorem aQueryPower (t : Byte) : Statement (.aQueryPower t) := fun _ _ =>
  (decode_requestBytes _ _ _ _ _ (by decide)).trans (decodeRequest_requestBytes _ _ _ _ _ (by decide))
theorem aQueryPanel (t : Byte) : Statement (.aQueryPanel t) := fun _ _ =>
  (decode_requestBytes _ _ _ _ _ (by decide)).trans (decodeRequest_requestBytes _ _ _ _ _ (by decide))
theorem bPowerOn : Statement .bPowerOn := fun _ _ =>
  (decode_requestBytes _ _ _ _ _ (by decide)).trans (decodeRequest_requestBytes _ _ _ _ _ (by decide))
theorem bPowerOff : Statement .bPowerOff := fun _ _ =>
  (decode_requestBytes _ _ _ _ _ (by decide)).trans (decodeRequest_requestBytes _ _ _ _ _ (by decide))
theorem bPanelOn : Statement .bPanelOn := fun _ _ =>
  (decode_requestBytes _ _ _ _ _ (by decide)).trans (decodeRequest_requestBytes _ _ _ _ _ (by decide))
theorem bPanelOff : Statement .bPanelOff := fun _ _ =>
  (decode_requestBytes _ _ _ _ _ (by decide)).trans (decodeRequest_requestBytes _ _ _ _ _ (by decide))

/-- A frame whose fields the row table names by `i` decodes to `i`. -/
theorem of_row {i : Instr} (cmd tgt : Byte) (pl : List Byte) (c : Byte) (he : Sys2Proof.encode i = frameBytes cmd tgt pl c)
    (hl : pl.length ≤ MAX_N) (hr : wireRow cmd tgt pl c = i) (rest : List Byte) :
    Sys2Proof.decode (Sys2Proof.encode i ++ rest) = .instr i rest := by
  rw [he, decode_frameBytes _ _ _ _ _ hl, hr]

/-- An addressed mutating row's target is not the broadcast one. -/
theorem ne_of_addressed {b : Bool} {t : Byte} (h : (b && addressed t) = true) : t ≠ TGT_BCAST := by
  simpa [addressed] using (Bool.and_eq_true_iff.mp h).2

theorem frame (cmd tgt : Byte) (pl : List Byte) (c : Byte) : Statement (.frame cmd tgt pl c) := by
  intro h rest
  simp only [wellFormed, payloadFits, generic, Bool.and_eq_true, decide_eq_true_eq, Bool.not_eq_true',
    Bool.and_eq_false_iff, decide_eq_false_iff_not, not_or] at h
  obtain ⟨⟨hl, _⟩, ⟨h1, h2⟩, h3⟩ := h
  refine of_row cmd tgt pl c rfl hl ?_ rest
  unfold wireRow
  rw [if_neg h1]
  rcases h2 with h2 | h2 <;> rcases h3 with h3 | h3 <;> simp [h2, h3]
theorem frAPowerOn (t c : Byte) : Statement (.frAPowerOn t c) := by
  intro h rest
  have ht := ne_of_addressed h
  exact of_row _ _ _ _ rfl (by decide) (by simp [wireRow, mutatingRow, ht, show CMD_POWER ≠ CMD_ACKNAK by decide]) rest
theorem frAPowerOff (t c : Byte) : Statement (.frAPowerOff t c) := by
  intro h rest
  have ht := ne_of_addressed h
  exact of_row _ _ _ _ rfl (by decide) (by simp [wireRow, mutatingRow, ht, show CMD_POWER ≠ CMD_ACKNAK by decide,
    show PL_POWER_OFF ≠ PL_POWER_ON by decide]) rest
theorem frAPanelOn (t c : Byte) : Statement (.frAPanelOn t c) := by
  intro h rest
  have ht := ne_of_addressed h
  exact of_row _ _ _ _ rfl (by decide) (by simp [wireRow, mutatingRow, ht, show CMD_PANEL ≠ CMD_ACKNAK by decide,
    show CMD_PANEL ≠ CMD_POWER by decide]) rest
theorem frAPanelOff (t c : Byte) : Statement (.frAPanelOff t c) := by
  intro h rest
  have ht := ne_of_addressed h
  exact of_row _ _ _ _ rfl (by decide) (by simp [wireRow, mutatingRow, ht, show CMD_PANEL ≠ CMD_ACKNAK by decide,
    show CMD_PANEL ≠ CMD_POWER by decide, show PL_PANEL_OFF ≠ PL_PANEL_ON by decide]) rest
theorem frPwrGet (t c : Byte) : Statement (.frPwrGet t c) := fun _ rest =>
  of_row _ _ _ _ rfl (by decide) (by simp [wireRow, show CMD_POWER ≠ CMD_ACKNAK by decide]) rest
theorem frPnlGet (t c : Byte) : Statement (.frPnlGet t c) := fun _ rest =>
  of_row _ _ _ _ rfl (by decide) (by simp [wireRow, show CMD_PANEL ≠ CMD_ACKNAK by decide,
    show CMD_PANEL ≠ CMD_POWER by decide]) rest
theorem frBPowerOn : Statement .frBPowerOn := fun _ rest => of_row _ _ _ _ rfl (by decide) (by decide) rest
theorem frBPowerOff : Statement .frBPowerOff := fun _ rest => of_row _ _ _ _ rfl (by decide) (by decide) rest
theorem frBPanelOn : Statement .frBPanelOn := fun _ rest => of_row _ _ _ _ rfl (by decide) (by decide) rest
theorem frBPanelOff : Statement .frBPanelOff := fun _ rest => of_row _ _ _ _ rfl (by decide) (by decide) rest
theorem acknak (t : Byte) (pl : List Byte) (c : Byte) : Statement (.acknak t pl c) := by
  intro h rest
  simp only [wellFormed, payloadFits, Bool.and_eq_true, decide_eq_true_eq] at h
  refine of_row _ _ _ _ rfl h.1.1 ?_ rest
  cases pl with
  | nil => simp [wireRow]
  | cons p0 ps =>
    have : p0 ≠ ACK_BYTE := by simpa using h.2
    simp [wireRow, this]
theorem ack (t : Byte) (more : List Byte) (c : Byte) : Statement (.ack t more c) := by
  intro h rest
  simp only [wellFormed, payloadFits, Bool.and_eq_true, decide_eq_true_eq] at h
  exact of_row _ _ _ _ rfl h.1 (by simp [wireRow]) rest

end Sys2Proof.Laws.RoundTrip

/-! ## EncodedLength: an encoded well-formed instruction has 4 to 260 bytes (30_encoding R71, R78). -/
namespace Sys2Proof.Laws.EncodedLength
open Sys2Proof Config Machine

/-- The length of the encoding: a request has `4 + LEN` bytes, a frame `5 + N`. -/
def Statement (i : Instr) : Prop :=
  wellFormed i = true → 4 ≤ (Sys2Proof.encode i).length ∧ (Sys2Proof.encode i).length ≤ MAX_FRAME

/-- A layout whose payload fits has 4 to 260 bytes. -/
theorem of_length {i : Instr} (n k : Nat) (hn : n ≤ MAX_N) (hk : k = 4 ∨ k = 5)
    (he : (Sys2Proof.encode i).length = n + k) :
    4 ≤ (Sys2Proof.encode i).length ∧ (Sys2Proof.encode i).length ≤ MAX_FRAME := by
  rw [he, maxFrame_eq]
  unfold MAX_N at hn
  omega

theorem encode (cmd tgt : Byte) (pl : List Byte) : Statement (.encode cmd tgt pl) := fun h =>
  of_length pl.length 4 (by simpa [wellFormed, payloadFits] using h) (.inl rfl) (by simp [Sys2Proof.encode])
theorem decode : Statement .decode := fun _ => by decide
theorem send (cmd tgt : Byte) (pl : List Byte) : Statement (.send cmd tgt pl) := fun h =>
  of_length pl.length 4 (by simpa [wellFormed, payloadFits] using h) (.inl rfl) (by simp [Sys2Proof.encode])
theorem receive : Statement .receive := fun _ => by decide
theorem sendAck (cmd tgt : Byte) (pl : List Byte) : Statement (.sendAck cmd tgt pl) := fun h =>
  of_length pl.length 4 (by simpa [wellFormed, payloadFits] using h) (.inl rfl) (by simp [Sys2Proof.encode])
theorem aPowerOn (t : Byte) : Statement (.aPowerOn t) := fun _ => of_length 0 4 (by decide) (.inl rfl) (by simp [Sys2Proof.encode])
theorem aPowerOff (t : Byte) : Statement (.aPowerOff t) := fun _ => of_length 0 4 (by decide) (.inl rfl) (by simp [Sys2Proof.encode])
theorem aPanelOn (t : Byte) : Statement (.aPanelOn t) := fun _ => of_length 0 4 (by decide) (.inl rfl) (by simp [Sys2Proof.encode])
theorem aPanelOff (t : Byte) : Statement (.aPanelOff t) := fun _ => of_length 0 4 (by decide) (.inl rfl) (by simp [Sys2Proof.encode])
theorem aQueryPower (t : Byte) : Statement (.aQueryPower t) := fun _ => of_length 0 4 (by decide) (.inl rfl) (by simp [Sys2Proof.encode])
theorem aQueryPanel (t : Byte) : Statement (.aQueryPanel t) := fun _ => of_length 0 4 (by decide) (.inl rfl) (by simp [Sys2Proof.encode])
theorem bPowerOn : Statement .bPowerOn := fun _ => by decide
theorem bPowerOff : Statement .bPowerOff := fun _ => by decide
theorem bPanelOn : Statement .bPanelOn := fun _ => by decide
theorem bPanelOff : Statement .bPanelOff := fun _ => by decide
theorem frame (cmd tgt : Byte) (pl : List Byte) (c : Byte) : Statement (.frame cmd tgt pl c) := by
  intro h
  simp only [wellFormed, payloadFits, Bool.and_eq_true, decide_eq_true_eq] at h
  exact of_length pl.length 5 h.1.1 (.inr rfl) (by simp [Sys2Proof.encode])
theorem frAPowerOn (t c : Byte) : Statement (.frAPowerOn t c) := fun _ => of_length 1 5 (by decide) (.inr rfl) (by simp [Sys2Proof.encode])
theorem frAPowerOff (t c : Byte) : Statement (.frAPowerOff t c) := fun _ => of_length 1 5 (by decide) (.inr rfl) (by simp [Sys2Proof.encode])
theorem frAPanelOn (t c : Byte) : Statement (.frAPanelOn t c) := fun _ => of_length 1 5 (by decide) (.inr rfl) (by simp [Sys2Proof.encode])
theorem frAPanelOff (t c : Byte) : Statement (.frAPanelOff t c) := fun _ => of_length 1 5 (by decide) (.inr rfl) (by simp [Sys2Proof.encode])
theorem frPwrGet (t c : Byte) : Statement (.frPwrGet t c) := fun _ => of_length 0 5 (by decide) (.inr rfl) (by simp [Sys2Proof.encode])
theorem frPnlGet (t c : Byte) : Statement (.frPnlGet t c) := fun _ => of_length 0 5 (by decide) (.inr rfl) (by simp [Sys2Proof.encode])
theorem frBPowerOn : Statement .frBPowerOn := fun _ => by decide
theorem frBPowerOff : Statement .frBPowerOff := fun _ => by decide
theorem frBPanelOn : Statement .frBPanelOn := fun _ => by decide
theorem frBPanelOff : Statement .frBPanelOff := fun _ => by decide
theorem acknak (t : Byte) (pl : List Byte) (c : Byte) : Statement (.acknak t pl c) := by
  intro h
  simp only [wellFormed, payloadFits, Bool.and_eq_true, decide_eq_true_eq] at h
  exact of_length pl.length 5 h.1.1 (.inr rfl) (by simp [Sys2Proof.encode])
theorem ack (t : Byte) (more : List Byte) (c : Byte) : Statement (.ack t more c) := by
  intro h
  simp only [wellFormed, payloadFits, Bool.and_eq_true, decide_eq_true_eq] at h
  exact of_length (ACK_BYTE :: more).length 5 h.1 (.inr rfl) (by simp [Sys2Proof.encode])

end Sys2Proof.Laws.EncodedLength
end

