-- ==== Sys2Proof/Tests/Slice0.lean ====
section
/-! SUPPORT. The model's own tests. Expected results are the spec's: the encodings of 30_encoding R70, R78, R79, R84 and the
vectors of 95_test_vectors, whose ids the names carry. After them, for each statement with hypotheses, a witness that meets
them. -/
namespace Sys2Proof.Tests
open Sys2Proof Sys2Proof.Machine Sys2Proof.Config

/-! ## Helpers -/

/-- A block with the reference sizes: decode order, query check, RXBUF, request, RX answers, TX answers. -/
def blk (o : DecodeOrder) (q : Bool) (rxbuf req : List Byte) (rx : List RxAnswer) (tx : List TxAnswer) : State :=
  { State.reset with
    cfg := { Params.reference with decodeOrder := o, queryAckCheck := q }, rxbuf := rxbuf, req := req, rx := rx, tx := tx }

/-- The reference block with nothing in RXBUF. -/
def ref (req : List Byte) (rx : List RxAnswer) (tx : List TxAnswer) : State := blk .lengthFirst true [] req rx tx

/-- A test of a next state. -/
def next (o : Outcome) (p : State → Bool) : Bool :=
  match o with
  | .next t => p t
  | .fault _ => false
  | .refused _ => false

/-- A next state with this response, RXBUF and wire, back in IDLE with the request taken. -/
def ends (o : Outcome) (r : Resp) (rxbuf wire : List Byte) : Bool :=
  next o fun t => decide (t.resp = some r) && decide (t.rxbuf = rxbuf) && decide (t.wire = wire) &&
    decide (t.phase = .idle) && decide (t.req = [])

/-- The positive acknowledgement of 95 V-AK-1, and what it decodes to. -/
def ackBytes : List Byte := [0xAA, 0xFF, 0x01, 0x03, 0x41, 0x11, 0x01, 0x56]
def ackRec : Frame := { cmd := 0xFF, tgt := 0x01, n := 3, pl := [0x41, 0x11, 0x01] }

/-- The DOC's frame of 95 V-L1-3, and what it decodes to. -/
def docBytes : List Byte := [0xAA, 0x4A, 0x00, 0x01, 0x00, 0x4B]
def docRec : Frame := { cmd := 0x4A, tgt := 0x00, n := 1, pl := [0x00] }

/-! ## WellFormed: an ill-formed term for each check -/

theorem test_wf_payload_too_long : wellFormed (.send 0x11 0x01 (List.replicate 256 0)) = false := by
  decide +kernel
theorem test_wf_encode_payload_too_long : wellFormed (.encode 0x11 0x01 (List.replicate 256 0)) = false := by
  decide +kernel
theorem test_wf_sendAck_payload_too_long : wellFormed (.sendAck 0x11 0x01 (List.replicate 256 0)) = false := by
  decide +kernel
theorem test_wf_longest_payload : wellFormed (.send 0x11 0x01 (List.replicate 255 0)) = true := by
  decide +kernel
theorem test_wf_wrong_checksum : wellFormed (.frame 0x4A 0x00 [0x00] 0x4C) = false := by decide +kernel
theorem test_wf_frame_payload_too_long :
    wellFormed (.frame 0x00 0x00 (List.replicate 256 0) (csum 0 0 (lenByte (List.replicate 256 0)) (List.replicate 256 0)))
      = false := by decide +kernel
theorem test_wf_frame_of_a_reserved_row : wellFormed (.frame 0x11 0x01 [0x01] 0x14) = false := by decide +kernel
theorem test_wf_frame_of_a_panel_row : wellFormed (.frame 0xF9 0x01 [] 0xFA) = false := by decide +kernel
theorem test_wf_frame_with_the_ack_id : wellFormed (.frame 0xFF 0x01 [0x4E] 0x4F) = false := by decide +kernel
theorem test_wf_addressed_rows_not_broadcast :
    (wellFormed (.frAPowerOn 0xFE 0x11) || wellFormed (.frAPowerOff 0xFE 0x10) || wellFormed (.frAPanelOn 0xFE 0xF8) ||
      wellFormed (.frAPanelOff 0xFE 0xF9)) = false := by decide +kernel
theorem test_wf_addressed_rows_checksum :
    (wellFormed (.frAPowerOn 0x01 0x15) || wellFormed (.frAPowerOff 0x01 0x14) || wellFormed (.frAPanelOn 0x01 0xFC) ||
      wellFormed (.frAPanelOff 0x01 0xFB) || wellFormed (.frPwrGet 0x01 0x13) || wellFormed (.frPnlGet 0x01 0xFB)) = false := by
  decide +kernel
theorem test_wf_acknak_is_not_an_ack : wellFormed (.acknak 0x01 [0x41] 0x42) = false := by decide +kernel
theorem test_wf_reply_checksums :
    (wellFormed (.acknak 0x01 [] 0x01) || wellFormed (.ack 0x01 [0x11, 0x01] 0x57)) = false := by decide +kernel
theorem test_wf_ack_payload_too_long :
    wellFormed (.ack 0x01 (List.replicate 255 0)
      (csum 0xFF 0x01 (lenByte (0x41 :: List.replicate 255 0)) (0x41 :: List.replicate 255 0))) = false := by
  decide +kernel

/-! ## Decode: a word of every constructor, written out from the spec's encoding -/

/-- 30_encoding R78, R79: the request bytes of the host operations. -/
def requestWords : List (List Byte × Instr) :=
  [ ([0x01, 0x4A, 0x00, 0x01, 0x00], .encode 0x4A 0x00 [0x00]),
    ([0x02, 0x00, 0x00, 0x00], .decode),
    ([0x03, 0x11, 0xFE, 0x01, 0x01], .send 0x11 0xFE [0x01]),
    ([0x04, 0x00, 0x00, 0x00], .receive),
    ([0x05, 0x11, 0x01, 0x02, 0x01, 0x07], .sendAck 0x11 0x01 [0x01, 0x07]),
    ([0x10, 0x00, 0x01, 0x00], .aPowerOn 0x01),
    ([0x11, 0x00, 0x02, 0x00], .aPowerOff 0x02),
    ([0x12, 0x00, 0x03, 0x00], .aPanelOn 0x03),
    ([0x13, 0x00, 0x04, 0x00], .aPanelOff 0x04) ] ++
  [ ([0x14, 0x00, 0x05, 0x00], .aQueryPower 0x05),
    ([0x15, 0x00, 0x06, 0x00], .aQueryPanel 0x06),
    ([0x20, 0x00, 0x00, 0x00], .bPowerOn),
    ([0x21, 0x00, 0x00, 0x00], .bPowerOff),
    ([0x22, 0x00, 0x00, 0x00], .bPanelOn),
    ([0x23, 0x00, 0x00, 0x00], .bPanelOff) ]

/-- 30_encoding R70, R84, 42 R142, R143: the bytes of the wire rows. -/
def frameWords : List (List Byte × Instr) :=
  [ ([0xAA, 0x4A, 0x00, 0x01, 0x00, 0x4B], .frame 0x4A 0x00 [0x00] 0x4B),
    ([0xAA, 0x11, 0x01, 0x01, 0x01, 0x14], .frAPowerOn 0x01 0x14),
    ([0xAA, 0x11, 0x01, 0x01, 0x00, 0x13], .frAPowerOff 0x01 0x13),
    ([0xAA, 0xF9, 0x01, 0x01, 0x00, 0xFB], .frAPanelOn 0x01 0xFB),
    ([0xAA, 0xF9, 0x01, 0x01, 0x01, 0xFC], .frAPanelOff 0x01 0xFC),
    ([0xAA, 0x11, 0x01, 0x00, 0x12], .frPwrGet 0x01 0x12),
    ([0xAA, 0xF9, 0x01, 0x00, 0xFA], .frPnlGet 0x01 0xFA) ] ++
  [ ([0xAA, 0x11, 0xFE, 0x01, 0x01, 0x11], .frBPowerOn),
    ([0xAA, 0x11, 0xFE, 0x01, 0x00, 0x10], .frBPowerOff),
    ([0xAA, 0xF9, 0xFE, 0x01, 0x00, 0xF8], .frBPanelOn),
    ([0xAA, 0xF9, 0xFE, 0x01, 0x01, 0xF9], .frBPanelOff),
    ([0xAA, 0xFF, 0x01, 0x03, 0x4E, 0x11, 0x01, 0x63], .acknak 0x01 [0x4E, 0x11, 0x01] 0x63),
    ([0xAA, 0xFF, 0x01, 0x03, 0x41, 0x11, 0x01, 0x56], .ack 0x01 [0x11, 0x01] 0x56) ]

theorem test_decode_requests : (requestWords.all fun w => decide (decode w.1 = .instr w.2 [])) = true := by decide +kernel
theorem test_decode_frames : (frameWords.all fun w => decide (decode w.1 = .instr w.2 [])) = true := by decide +kernel
theorem test_encode_requests : (requestWords.all fun w => decide (encode w.2 = w.1)) = true := by decide +kernel
theorem test_encode_frames : (frameWords.all fun w => decide (encode w.2 = w.1)) = true := by decide +kernel
theorem test_words_wellFormed : ((requestWords ++ frameWords).all fun w => wellFormed w.2) = true := by decide +kernel

/-- 30_encoding R78: an operation that uses no payload still carries and skips it. -/
theorem test_decode_skips_unused_payload :
    decode [0x10, 0x77, 0x01, 0x02, 0x05, 0x06, 0x02] = .instr (.aPowerOn 0x01) [0x02] := by decide +kernel
theorem test_decode_partial_request : decode [0x05, 0x11, 0x01, 0x02, 0x01] = .rejected .incomplete := by decide +kernel
theorem test_decode_partial_frame : decode [0xAA, 0x4A, 0x00, 0x01, 0x00] = .rejected .incomplete := by decide +kernel
theorem test_decodeWire_no_header : decodeWire [0x55, 0x00] = .rejected .notAFrame := by decide +kernel
theorem test_decode_bad_checksum_keeps_it :
    decode [0xAA, 0x11, 0xFE, 0x01, 0x01, 0x12] = .instr (.frAPowerOn 0xFE 0x12) [] := by decide +kernel
/-- 95 V-IL-1 to V-IL-4. -/
theorem test_decode_illegal_ops :
    ([0x00, 0x24, 0x25, 0xFF].all fun op =>
      decide (decode [op, 0x00, 0xFE, 0x00] = .rejected (.illegalOp op))) = true := by decide +kernel

/-- Words as spec/opcode_table.json numbers them, byte 0 most significant (30_encoding R78). -/
theorem test_table_request_word : decodeTableWord 32 0x10000100 = some (.aPowerOn 0x01) := by decide +kernel
theorem test_table_frame_word : decodeTableWord 48 0xAA11FE010111 = some .frBPowerOn := by decide +kernel
theorem test_table_refused_word : decodeTableWord 32 0x24000000 = none := by decide +kernel
theorem test_fetch_request_word : step (State.reset.withFetchWord 32 0x02000000) =
    exec .decode (State.reset.withFetchWord 32 0x02000000) := by rfl
theorem test_fetch_frame_word : next (step (State.reset.withFetchWord 48 0xAA11FE010111))
    (fun t => decide (t.rx = [.data 0xAA [0x11, 0xFE, 0x01, 0x01, 0x11]]) && decide (t.line = [])) = true := by decide +kernel

/-! ## The codec: 95 sections 1 and 2.1 to 2.3 -/

/-- 95 section 2.1, V-L1-1 and V-L1-2. -/
theorem test_checksum_vectors :
    (([ (0x11, 0xFE, [0x01], 0x11), (0xB9, 0x00, [0x00], 0xBA), (0x00, 0x00, [], 0x00), (0x11, 0x01, [], 0x12),
        (0xF9, 0x07, [], 0x00), (0xFF, 0xFF, [0xFF, 0xFF], 0xFE), (0xAA, 0xAA, [0xAA], 0xFF),
        (0x4A, 0x00, [0x01, 0x02], 0x4F), (0x4A, 0x00, [0x02, 0x01], 0x4F), (0xFF, 0x01, [0x41, 0x11, 0x01], 0x56) ] :
      List (Byte × Byte × List Byte × Byte)).all
      fun v => decide (csum v.1 v.2.1 (lenByte v.2.2.1) v.2.2.1 = v.2.2.2)) = true := by decide +kernel

/-- 95 section 2.3: the decode outcomes under the three orders (`F` a frame of so many bytes, `I` incomplete, `H` header,
`C` checksum). -/
inductive V where
  | F (c : Nat)
  | I
  | H
  | C
  deriving DecidableEq, Repr

def outcome : DecResult → V
  | .incomplete => .I
  | .invalidHeader => .H
  | .invalidChecksum => .C
  | .frame _ c => .F c

def decodes (v : List Byte × V × V × V) : Bool :=
  decide (outcome (dec .lengthFirst v.1) = v.2.1) && decide (outcome (dec .prefixFirst v.1) = v.2.2.1) &&
    decide (outcome (dec .headerFirst v.1) = v.2.2.2)

theorem test_V_DE_1_to_10 :
    (([ ([], .I, .I, .I), ([0xAA], .I, .I, .I), ([0xAA, 0x4A, 0x00], .I, .I, .I), ([0xAA, 0x4A, 0x00, 0x01], .I, .I, .I),
        ([0xAA, 0x4A, 0x00, 0x01, 0x00], .I, .I, .I), ([0xAA, 0x4A, 0x00, 0x01, 0x00, 0x4B], .F 6, .F 6, .F 6),
        ([0xAA, 0x4A, 0x00, 0x01, 0x00, 0x4C], .C, .C, .C), ([0x00, 0x4A, 0x00, 0x01, 0x00, 0x4B], .H, .H, .H),
        ([0x00], .I, .I, .H), ([0x55, 0x00, 0x00], .I, .I, .H) ] : List (List Byte × V × V × V)).all decodes) = true := by
  decide +kernel
theorem test_V_DE_11_to_17 :
    (([ ([0x55, 0x00, 0x00, 0xFF], .I, .H, .H), ([0xAA, 0x11, 0x01, 0x00, 0x12], .F 5, .F 5, .F 5),
        ([0xAA, 0x00, 0x00, 0x00, 0x00], .F 5, .F 5, .F 5), ([0xAA, 0xFF, 0xFF, 0x02, 0xFF, 0xFF, 0xFE], .F 7, .F 7, .F 7),
        ([0xAA, 0xAA, 0xAA, 0x01, 0xAA, 0xFF, 0xAA], .F 6, .F 6, .F 6), ([0xAA, 0xAA, 0xAA, 0x01, 0xAA, 0x54], .C, .C, .C),
        ([0xAA, 0x4A, 0x00, 0x01, 0x00, 0x4B, 0x00], .F 6, .F 6, .F 6) ] : List (List Byte × V × V × V)).all decodes)
      = true := by decide +kernel

/-- 95 V-L1-3. -/
theorem test_ENCODE : ends (step (ref [0x01, 0x4A, 0x00, 0x01, 0x00] [] [])) { code := .ok, bytes := some docBytes } [] []
    = true := by decide +kernel
/-- 95 section 2.2: 0xAA is not special. -/
theorem test_ENCODE_header_bytes : ends (step (ref [0x01, 0xAA, 0xAA, 0x01, 0xAA] [] []))
    { code := .ok, bytes := some [0xAA, 0xAA, 0xAA, 0x01, 0xAA, 0xFF] } [] [] = true := by decide +kernel
/-- 95 V-L1-6. -/
theorem test_DECODE_keeps_the_rest : ends (step (blk .lengthFirst true (docBytes ++ [0xAA, 0xFF]) [0x02, 0, 0, 0] [] []))
    { code := .ok, frame := some docRec, consumed := some 6 } [0xAA, 0xFF] [] = true := by decide +kernel
/-- 95 V-DE-7: DECODE clears nothing. -/
theorem test_DECODE_keeps_a_bad_frame : ends (step (blk .prefixFirst true [0xAA, 0x4A, 0x00, 0x01, 0x00, 0x4C] [0x02, 0, 0, 0] [] []))
    { code := .invalidChecksum } [0xAA, 0x4A, 0x00, 0x01, 0x00, 0x4C] [] = true := by decide +kernel

/-! ## SEND and the broadcast operations: 95 section 2.4 -/

theorem test_SEND_V_SE_1 : ends (step (ref [0x03, 0x11, 0xFE, 0x01, 0x01] [] [.ok])) { code := .ok } []
    [0xAA, 0x11, 0xFE, 0x01, 0x01, 0x11] = true := by decide +kernel
theorem test_SEND_V_SE_3 : ends (step (ref [0x03, 0x11, 0x01, 0x01, 0x01] [] [.ioErr 3]))
    { code := .ioWrite, written := some 3 } [] [0xAA, 0x11, 0x01] = true := by decide +kernel
theorem test_B_POWER_ON_V_SE_4 : ends (step (ref [0x20, 0, 0, 0] [] [.ok])) { code := .ok } []
    [0xAA, 0x11, 0xFE, 0x01, 0x01, 0x11] = true := by decide +kernel
theorem test_B_POWER_OFF_V_SE_5 : ends (step (ref [0x21, 0, 0, 0] [] [.ok])) { code := .ok } []
    [0xAA, 0x11, 0xFE, 0x01, 0x00, 0x10] = true := by decide +kernel
theorem test_B_PANEL_ON_V_SE_6 : ends (step (ref [0x22, 0, 0, 0] [] [.ok])) { code := .ok } []
    [0xAA, 0xF9, 0xFE, 0x01, 0x00, 0xF8] = true := by decide +kernel
theorem test_B_PANEL_OFF_V_SE_7 : ends (step (ref [0x23, 0, 0, 0] [] [.ok])) { code := .ok } []
    [0xAA, 0xF9, 0xFE, 0x01, 0x01, 0xF9] = true := by decide +kernel
theorem test_B_PANEL_OFF_V_SE_8 : ends (step (ref [0x23, 0, 0, 0] [] [.ioErr 0])) { code := .ioWrite, written := some 0 } [] []
    = true := by decide +kernel

/-! ## RECEIVE: 95 section 2.5 -/

/-- V-RX-2, two reads. -/
theorem test_RECEIVE_V_RX_2 :
    (let o := step (ref [0x04, 0, 0, 0] [.data 0xAA [0x4A, 0x00], .data 0x01 [0x00, 0x4B, 0xAA, 0xFF]] [])
     ends o { code := .ok, frame := some docRec, consumed := some 6 } [0xAA, 0xFF] [] &&
       next o fun t => decide (t.reads = 2)) = true := by decide +kernel
/-- V-RX-3, V-RX-4, V-RX-5, V-RX-6 and V-RX-7: the errors, and what they leave of RXBUF. -/
theorem test_RECEIVE_errors :
    (ends (step (ref [0x04, 0, 0, 0] [.ended] [])) { code := .streamEnded } [] [] &&
     ends (step (blk .lengthFirst true [0xAA, 0x4A] [0x04, 0, 0, 0] [.ioErr] [])) { code := .ioRead } [0xAA, 0x4A] [] &&
     ends (step (blk .lengthFirst true [0xAA, 0xFF] [0x04, 0, 0, 0] [.ended] [])) { code := .streamEnded } [0xAA, 0xFF] [] &&
     ends (step (ref [0x04, 0, 0, 0]
        [.data 0xAA [0x4A, 0x00, 0x01, 0x00, 0x4C, 0xAA, 0x4A, 0x00, 0x01, 0x00, 0x4B]] [])) { code := .invalidChecksum } [] [] &&
     ends (step (ref [0x04, 0, 0, 0] [.data 0x00 [0xFF, 0x01, 0x00, 0x00]] [])) { code := .invalidHeader } [] []) = true := by
  decide +kernel
/-- V-RX-8 under the three orders. -/
theorem test_wait_V_RX_8 :
    (let rx := [.data 0x55 [], .data 0x00 [0x00, 0xFF]]
     (next (step (blk .lengthFirst true [] [0x04, 0, 0, 0] rx [])) fun t => decide (t.phase = .rxWait) &&
        decide (t.rxbuf = [0x55, 0x00, 0x00, 0xFF]) && decide (t.reads = 2) && decide (t.req = [0x04, 0, 0, 0])) &&
     (next (step (blk .prefixFirst true [] [0x04, 0, 0, 0] rx [])) fun t =>
        decide (t.resp = some { code := .invalidHeader }) && decide (t.reads = 2) && decide (t.rxbuf = [])) &&
     (next (step (blk .headerFirst true [] [0x04, 0, 0, 0] rx [])) fun t =>
        decide (t.resp = some { code := .invalidHeader }) && decide (t.reads = 1) &&
        decide (t.rx = [.data 0x00 [0x00, 0xFF]]))) = true := by decide +kernel
/-- V-RX-9 under the three orders. -/
theorem test_wait_V_RX_9 :
    (let rx := [.data 0xAA [0x4A, 0x00, 0x01, 0x00, 0x4B]]
     (next (step (blk .lengthFirst true [0x00, 0x01] [0x04, 0, 0, 0] rx [])) fun t => decide (t.phase = .rxWait)) &&
     (next (step (blk .prefixFirst true [0x00, 0x01] [0x04, 0, 0, 0] rx [])) fun t =>
        decide (t.resp = some { code := .invalidHeader }) && decide (t.rxbuf = [])) &&
     (next (step (blk .headerFirst true [0x00, 0x01] [0x04, 0, 0, 0] rx [])) fun t =>
        decide (t.resp = some { code := .invalidHeader }) && decide (t.reads = 0) && decide (t.rxbuf = []))) = true := by
  decide +kernel
/-- A chunk longer than SCRATCH_SIZE is read in two reads (10_state R31: `1 <= len(s) <= max`; log 9). -/
theorem test_read_at_most_scratch :
    (next (step { ref [0x04, 0, 0, 0] [.data 0xAA [0x4A, 0x00, 0x01, 0x00, 0x4B]] [] with
        cfg := { Params.reference with scratchSize := 4 }, scratch := [1, 2, 3, 4] })
      fun t => decide (t.reads = 2) && decide (t.resp = some { code := .ok, frame := some docRec, consumed := some 6 }) &&
        decide (t.scratch = [0x00, 0x4B, 0x00, 0x01])) = true := by decide +kernel

/-! ## SEND_ACK and the addressed operations: 95 sections 2.6 and 2.7 -/

def sendAckReq : List Byte := [0x05, 0x11, 0x01, 0x01, 0x01]
def sendAckFrame : List Byte := [0xAA, 0x11, 0x01, 0x01, 0x01, 0x14]

/-- V-AK-1, V-AK-2, V-AK-10 and V-AK-12: accepted replies. -/
theorem test_SEND_ACK_accepts :
    (ends (step (ref sendAckReq [.data 0xAA [0xFF, 0x01, 0x03, 0x41, 0x11, 0x01, 0x56]] [.ok]))
        { code := .ok, frame := some ackRec } [] sendAckFrame &&
     ends (step (ref sendAckReq [.data 0xAA [0xFF, 0x01, 0x03, 0x41], .data 0x11 [0x01, 0x56]] [.ok]))
        { code := .ok, frame := some ackRec } [] sendAckFrame &&
     ends (step (ref sendAckReq [.data 0xAA ([0xFF, 0x01, 0x03, 0x41, 0x11, 0x01, 0x56] ++ ackBytes)] [.ok]))
        { code := .ok, frame := some ackRec } ackBytes sendAckFrame &&
     ends (step (ref sendAckReq [.data 0xAA [0xFF, 0x07, 0x03, 0x41, 0xF9, 0x01, 0x44]] [.ok]))
        { code := .ok, frame := some { cmd := 0xFF, tgt := 0x07, n := 3, pl := [0x41, 0xF9, 0x01] } } [] sendAckFrame) = true := by
  decide +kernel
/-- V-AK-3 to V-AK-9, V-AK-11: the errors. -/
theorem test_SEND_ACK_rejects :
    (ends (step (ref sendAckReq [.data 0xAA [0xFF, 0x01, 0x03, 0x4E, 0x11, 0x01, 0x63]] [.ok]))
        { code := .nak, frame := some { cmd := 0xFF, tgt := 0x01, n := 3, pl := [0x4E, 0x11, 0x01] } } [] sendAckFrame &&
     ends (step (ref sendAckReq [.data 0xAA [0xFF, 0x01, 0x00, 0x00]] [.ok]))
        { code := .nak, frame := some { cmd := 0xFF, tgt := 0x01, n := 0, pl := [] } } [] sendAckFrame &&
     ends (step (ref sendAckReq [.data 0xAA [0x11, 0x01, 0x01, 0x41, 0x54]] [.ok]))
        { code := .unexpectedResponse, frame := some { cmd := 0x11, tgt := 0x01, n := 1, pl := [0x41] } } [] sendAckFrame &&
     ends (step (ref sendAckReq [.ended] [.ok])) { code := .streamEnded } [] sendAckFrame &&
     ends (step (ref sendAckReq [.ioErr] [.ok])) { code := .ioRead } [] sendAckFrame &&
     ends (step (ref sendAckReq [.data 0x00 [0xFF, 0x01, 0x00, 0x00]] [.ok])) { code := .invalidHeader } [] sendAckFrame &&
     ends (step (ref sendAckReq [.data 0xAA [0xFF, 0x01, 0x01, 0x41, 0x00]] [.ok])) { code := .invalidChecksum } [] sendAckFrame &&
     ends (step (ref sendAckReq [] [.ioErr 3])) { code := .ioWrite, written := some 3 } [] [0xAA, 0x11, 0x01]) = true := by
  decide +kernel
theorem test_A_POWER_ON_V_DI_1 : ends (step (ref [0x10, 0, 0x01, 0] [.data 0xAA [0xFF, 0x01, 0x03, 0x41, 0x11, 0x01, 0x56]] [.ok]))
    { code := .ok, frame := some ackRec } [] [0xAA, 0x11, 0x01, 0x01, 0x01, 0x14] = true := by decide +kernel
/-- V-DI-5 and V-DI-7: the target is any byte, 0xFE among them. -/
theorem test_A_POWER_ON_targets :
    (ends (step (ref [0x10, 0, 0xFF, 0] [.data 0xAA [0xFF, 0x01, 0x03, 0x41, 0x11, 0x01, 0x56]] [.ok]))
        { code := .ok, frame := some ackRec } [] [0xAA, 0x11, 0xFF, 0x01, 0x01, 0x12] &&
     ends (step (ref [0x10, 0, 0xFE, 0] [.ended] [.ok])) { code := .streamEnded } [] [0xAA, 0x11, 0xFE, 0x01, 0x01, 0x11])
      = true := by decide +kernel
theorem test_A_POWER_OFF_V_DI_2 : ends (step (ref [0x11, 0, 0x01, 0] [.data 0xAA [0xFF, 0x01, 0x03, 0x41, 0x11, 0x00, 0x55]] [.ok]))
    { code := .ok, frame := some { ackRec with pl := [0x41, 0x11, 0x00] } } [] [0xAA, 0x11, 0x01, 0x01, 0x00, 0x13] = true := by
  decide +kernel
theorem test_A_PANEL_ON_V_DI_3 : ends (step (ref [0x12, 0, 0x01, 0] [.data 0xAA [0xFF, 0x01, 0x03, 0x41, 0xF9, 0x00, 0x3D]] [.ok]))
    { code := .ok, frame := some { ackRec with pl := [0x41, 0xF9, 0x00] } } [] [0xAA, 0xF9, 0x01, 0x01, 0x00, 0xFB] = true := by
  decide +kernel
theorem test_A_PANEL_OFF_V_DI_4 : ends (step (ref [0x13, 0, 0x01, 0] [.data 0xAA [0xFF, 0x01, 0x03, 0x41, 0xF9, 0x01, 0x3E]] [.ok]))
    { code := .ok, frame := some { ackRec with pl := [0x41, 0xF9, 0x01] } } [] [0xAA, 0xF9, 0x01, 0x01, 0x01, 0xFC] = true := by
  decide +kernel

/-- A power query of target 0x01 with this reply, checked or not. -/
def powerQuery (q : Bool) (b : Byte) (reply : List Byte) : Outcome :=
  step (blk .lengthFirst q [] [0x14, 0, 0x01, 0] [.data b reply] [.ok])
def powerFrame : List Byte := [0xAA, 0x11, 0x01, 0x00, 0x12]
def panelFrame : List Byte := [0xAA, 0xF9, 0x01, 0x00, 0xFA]

/-- V-Q-1, V-Q-2 and V-Q-3, with the reply checked and not. -/
theorem test_A_QUERY_POWER_status :
    ([true, false].all fun q =>
      ends (powerQuery q 0xAA [0xFF, 0x01, 0x03, 0x41, 0x11, 0x00, 0x55])
        { code := .ok, frame := some { ackRec with pl := [0x41, 0x11, 0x00] }, status := some 1 } [] powerFrame &&
      ends (powerQuery q 0xAA [0xFF, 0x01, 0x03, 0x41, 0x11, 0x01, 0x56])
        { code := .ok, frame := some ackRec, status := some 0 } [] powerFrame &&
      ends (powerQuery q 0xAA [0xFF, 0x01, 0x03, 0x41, 0x11, 0x02, 0x57])
        { code := .invalidStatus, frame := some { ackRec with pl := [0x41, 0x11, 0x02] }, badByte := some 0x02 } [] powerFrame)
      = true := by decide +kernel
/-- V-Q-5 and V-Q-6: what `P_QUERY_ACK_CHECK` decides. -/
theorem test_A_QUERY_POWER_check :
    (ends (powerQuery true 0xAA [0xFF, 0x01, 0x03, 0x4E, 0x11, 0x00, 0x62])
        { code := .nak, frame := some { ackRec with pl := [0x4E, 0x11, 0x00] } } [] powerFrame &&
     ends (powerQuery false 0xAA [0xFF, 0x01, 0x03, 0x4E, 0x11, 0x00, 0x62])
        { code := .ok, frame := some { ackRec with pl := [0x4E, 0x11, 0x00] }, status := some 1 } [] powerFrame &&
     ends (powerQuery true 0xAA [0x11, 0x01, 0x03, 0x41, 0x11, 0x00, 0x67])
        { code := .unexpectedResponse, frame := some { cmd := 0x11, tgt := 0x01, n := 3, pl := [0x41, 0x11, 0x00] } } [] powerFrame &&
     ends (powerQuery false 0xAA [0x11, 0x01, 0x03, 0x41, 0x11, 0x00, 0x67])
        { code := .ok, frame := some { cmd := 0x11, tgt := 0x01, n := 3, pl := [0x41, 0x11, 0x00] }, status := some 1 } [] powerFrame)
      = true := by decide +kernel
/-- V-Q-4: E_SHORT_STATUS is a fault in a model. -/
theorem test_short_status_faults : powerQuery true 0xAA [0xFF, 0x01, 0x02, 0x41, 0x11, 0x54] =
    .fault (.shortStatus { cmd := 0xFF, tgt := 0x01, n := 2, pl := [0x41, 0x11] }) := by rfl
/-- V-Q-7 and V-Q-8: the panel reads the same bytes the other way. -/
theorem test_A_QUERY_PANEL_status :
    (ends (step (ref [0x15, 0, 0x01, 0] [.data 0xAA [0xFF, 0x01, 0x03, 0x41, 0xF9, 0x00, 0x3D]] [.ok]))
        { code := .ok, frame := some { ackRec with pl := [0x41, 0xF9, 0x00] }, status := some 0 } [] panelFrame &&
     ends (step (ref [0x15, 0, 0x01, 0] [.data 0xAA [0xFF, 0x01, 0x03, 0x41, 0xF9, 0x01, 0x3E]] [.ok]))
        { code := .ok, frame := some { ackRec with pl := [0x41, 0xF9, 0x01] }, status := some 1 } [] panelFrame) = true := by
  decide +kernel

/-! ## Refused requests, waits, arrivals, the host -/

/-- 95 V-IL-2. -/
theorem test_refused_V_IL_2 : step (ref [0x24, 0x00, 0xFE, 0x00] [] []) = .refused (.illegalOp 0x24) := by rfl
theorem test_refused_configuration :
    step { ref [0x02, 0, 0, 0] [] [] with cfg := { Params.reference with fifoDepth := 1282 } } = .refused .configOutsideSpec := by
  rfl
theorem test_write_waits : next (step (ref [0x20, 0, 0, 0] [] [])) (fun t =>
    decide (t.phase = .tx) && decide (t.req = [0x20, 0, 0, 0]) && decide (t.wire = [])) = true := by decide +kernel

/-- A handshake blocked in RX_WAIT: its frame is on the wire, nothing has come back. -/
def waitingAck : State := { ref sendAckReq [] [] with phase := .rxWait, wire := sendAckFrame }

/-- 42 R141, R142, R143: what each kind of frame does to a blocked handshake. -/
theorem test_arriving_replies :
    (ends (exec (.ack 0x01 [0x11, 0x01] 0x56) waitingAck) { code := .ok, frame := some ackRec } [] sendAckFrame &&
     ends (exec (.acknak 0x01 [] 0x00) waitingAck)
        { code := .nak, frame := some { cmd := 0xFF, tgt := 0x01, n := 0, pl := [] } } [] sendAckFrame &&
     ends (exec (.frAPowerOn 0x01 0x14) waitingAck)
        { code := .unexpectedResponse, frame := some { cmd := 0x11, tgt := 0x01, n := 1, pl := [0x01] } } [] sendAckFrame &&
     ends (exec (.frBPanelOff) waitingAck)
        { code := .unexpectedResponse, frame := some { cmd := 0xF9, tgt := 0xFE, n := 1, pl := [0x01] } } [] sendAckFrame &&
     ends (exec (.frame 0x4A 0x00 [0x00] 0x4C) waitingAck) { code := .invalidChecksum } [] sendAckFrame) = true := by decide +kernel
/-- 60 R207: the other rows, with no read outstanding, wait in the stream. -/
theorem test_arriving_frames_wait :
    ((frameWords.map Prod.snd).all fun i => next (exec i (ref [] [] []))
      fun t => decide (streamBytes t.rx = encode i) && decide (t.phase = .idle) && decide (t.rxbuf = [])) = true := by decide +kernel

theorem test_host_reads :
    hostRead .consumed { State.reset with resp := some { code := .ok, consumed := some 6 } } = .next (.consumed 6) ∧
    hostRead .status { State.reset with resp := some { code := .ok, consumed := some 6 } } = .refused (.absentField .status) ∧
    hostRead .code State.reset = .refused (.absentField .code) := ⟨rfl, rfl, rfl⟩
theorem test_reset_clears : applyReset { waitingAck with rxbuf := [0xAA], resp := some { code := .ioRead }, reads := 3 } =
    { State.reset with wire := sendAckFrame } := by rfl
theorem test_busy : busy waitingAck = true ∧ busy State.reset = false := by decide +kernel
/-- 42 R141: the table's machine takes IDLE, TX, RX_DEC, RX_WAIT, RX_DEC, ACK_CHK, DONE, IDLE. -/
theorem test_fsm_phases :
    ([0, 1, 2, 3, 4, 5, 6, 7].map fun n =>
      (fsmRun 0x11 0x01 [0x01] n
        { st := ref sendAckReq [.data 0xAA [0xFF, 0x01, 0x03, 0x41, 0x11, 0x01, 0x56]] [.ok], held := none }).st.phase) =
    [.idle, .tx, .rxDec, .rxWait, .rxDec, .ackChk, .done, .idle] := by decide +kernel

/-! ## Witnesses: for each statement with hypotheses, concrete values that meet all of them, a clause at a time -/

/-- RECEIVE pending, nothing else. -/
def recvReq : List Byte := [0x04, 0, 0, 0]
/-- A state that meets the invariant, with DECODE pending on the DOC's frame. -/
def decReady : State := blk .lengthFirst true docBytes [0x02, 0, 0, 0] [] []
/-- SEND_ACK pending, its write answered, its reply cut in two. -/
def ackReady : State := ref sendAckReq [.data 0xAA [0xFF, 0x01, 0x03, 0x41], .data 0x11 [0x01, 0x56]] [.ok]
/-- The state after that write. -/
def ackWritten : State := { ackReady with tx := [], wire := sendAckFrame }
/-- A RECEIVE blocked in RX_WAIT after one read that brought the first three bytes of the DOC's frame. -/
def recvWaiting (rx : List RxAnswer) : State :=
  { blk .lengthFirst true [0xAA, 0x4A, 0x00] recvReq rx [] with phase := .rxWait, reads := 1 }

theorem witness_inv_decReady : MachineInv decReady :=
  ⟨by decide, by decide, by decide, List.length_replicate .., by decide, by decide, by decide, by simp [decReady, blk, State.reset]⟩
theorem witness_inv_recvWaiting : MachineInv (recvWaiting []) :=
  ⟨by decide, by decide, by decide, List.length_replicate .., by decide, by decide, by decide, by
    simp [recvWaiting, blk, State.reset]⟩

theorem witness_ResetLeavesCleanBlock : State.reset.cfg.ok = true ∧ State.reset.line = [] := by decide
theorem witness_StepKeepsInvariant : MachineInv decReady ∧ ∃ t, step decReady = .next t ∧ t.rxbuf = [] :=
  ⟨witness_inv_decReady, _, rfl, by decide⟩
theorem witness_StepRunsPendingRequest :
    (decReady.cfg.ok = true ∧ decReady.line = [] ∧ decodeRequest decReady.req = .instr .decode [] ∧
      ∃ t, exec .decode decReady = .next t ∧ t.phase = .idle) ∧
    ((recvWaiting []).cfg.ok = true ∧ (recvWaiting []).line = [] ∧ decodeRequest (recvWaiting []).req = .instr .receive [] ∧
      ∃ t, exec .receive (recvWaiting []) = .next t ∧ t.phase = .rxWait) :=
  ⟨⟨by decide, by decide, by decide, _, rfl, by decide⟩, by decide, by decide, by decide, _, rfl, by decide⟩
theorem witness_StepTakesArrivingBytes :
    (let s := { decReady with line := docBytes ++ [0xAA] }
     s.cfg.ok = true ∧ s.line ≠ [] ∧ decodeWire s.line = .instr (.frame 0x4A 0x00 [0x00] 0x4B) [0xAA]) ∧
    (let s := { decReady with line := [0x55, 0x00] }
     s.cfg.ok = true ∧ s.line ≠ [] ∧ decodeWire s.line = .rejected .notAFrame) ∧
    decReady.phase ≠ .rxWait ∧
    ((recvWaiting []).phase = .rxWait ∧ decodeRequest (recvWaiting []).req = .instr .receive [] ∧ receives .receive) ∧
    (let s := { recvWaiting [] with req := [] }
     s.phase = .rxWait ∧ ∀ j rest, decodeRequest s.req = .instr j rest → ¬ receives j) :=
  ⟨by decide, by decide, by decide, ⟨rfl, by decide, .inl rfl⟩, rfl, nofun⟩
theorem witness_BlockedOperationWaits :
    (let s := { ref [0x20, 0, 0, 0] [] [] with phase := .tx }
     s.cfg.ok = true ∧ s.line = [] ∧ decodeRequest s.req = .instr .bPowerOn [] ∧ s.phase = .tx ∧ s.tx = [] ∧
       sentBytes .bPowerOn ≠ []) ∧
    ((recvWaiting []).cfg.ok = true ∧ (recvWaiting []).line = [] ∧ decodeRequest (recvWaiting []).req = .instr .receive [] ∧
      (recvWaiting []).phase = .rxWait ∧ (recvWaiting []).rx = []) ∧ receives .receive :=
  ⟨by decide, by decide, .inl rfl⟩
/-- A power query blocked in RX_WAIT. -/
def queryWaiting : State := { ref [0x14, 0, 0x01, 0] [] [] with phase := .rxWait, wire := powerFrame }
theorem witness_StopsAreTheSpecsOwn :
    (∃ r, exec (.aQueryPower 0x01) (ref [] [.data 0xAA [0xFF, 0x01, 0x02, 0x41, 0x11, 0x54]] [.ok]) = .fault r) ∧
    (∃ r, exec (.ack 0x01 [0x11] 0x54) queryWaiting = .fault r) ∧
    (∃ r, step { ref [0x14, 0, 0x01, 0] [.data 0xAA [0xFF, 0x01, 0x02, 0x41, 0x11, 0x54]] [.ok] with line := [] } = .fault r) ∧
    (∃ r, step { queryWaiting with line := [0xAA, 0xFF, 0x01, 0x02, 0x41, 0x11, 0x54] } = .fault r) ∧
    (∃ r, step { queryWaiting with rxbuf := [0xAA, 0xFF, 0x01, 0x02], line := [0x41, 0x11, 0x54] } = .fault r) ∧
    (∃ r, step (ref [0x24, 0, 0xFE, 0] [] []) = .refused r) ∧
    (∃ r, step { ref [] [] [] with cfg := { Params.reference with scratchSize := 0 } } = .refused r) :=
  ⟨⟨_, rfl⟩, ⟨_, rfl⟩, ⟨_, rfl⟩, ⟨_, rfl⟩, ⟨_, rfl⟩, ⟨_, rfl⟩, ⟨_, rfl⟩⟩
theorem witness_DecodeInvertsEncode :
    wellFormed (.frame 0x4A 0x00 [0x00] 0x4B) = true ∧ wellFormed (.sendAck 0xFF 0xFF []) = true := by decide
theorem witness_WireDecodeLosesNoBit :
    decodeWire (ackBytes ++ [0xAA]) = .instr (.ack 0x01 [0x11, 0x01] 0x56) [0xAA] := by decide
theorem witness_UnusedRequestFieldsIgnored :
    ([0x05] : List Byte).length ≤ MAX_N ∧
    (OP_A_QUERY_PANEL, Instr.aQueryPanel 0x01) ∈ [(OP_DECODE, Instr.decode), (OP_A_QUERY_PANEL, .aQueryPanel 0x01)] ∧
    (OP_SEND, Instr.send 0x11 0x01 [0x05]) ∈ [(OP_ENCODE, Instr.encode 0x11 0x01 [0x05]), (OP_SEND, .send 0x11 0x01 [0x05])] := by
  decide
theorem witness_DecodedRequestsWellFormed : decodeRequest (sendAckReq ++ [0x02]) = .instr (.sendAck 0x11 0x01 [0x01]) [0x02] := by
  decide
theorem witness_UnassignedOpCodesRefused :
    (let s := ref [0x16, 0x00, 0xFE, 0x00] [] []
     s.cfg.ok = true ∧ s.line = [] ∧ s.req = 0x16 :: [0x00, 0xFE, 0x00] ∧ 0x16 ≤ (0x16 : Byte).toNat) ∧
    (0x06 ≤ (0x0F : Byte).toNat ∧ (0x0F : Byte).toNat ≤ 0x0F) ∧ 0x24 ≤ (0xFF : Byte).toNat ∧ (0x00 : Byte).toNat = 0 ∧
    ([] : List Byte).length ≤ MAX_N ∧ (0x01 ≤ (0x05 : Byte).toNat ∧ (0x05 : Byte).toNat ≤ 0x05) ∧
    (0x10 ≤ (0x15 : Byte).toNat ∧ (0x15 : Byte).toNat ≤ 0x15) ∧ (0x20 ≤ (0x23 : Byte).toNat ∧ (0x23 : Byte).toNat ≤ 0x23) := by
  decide
theorem witness_DispatcherFramesFixed :
    (Instr.aPowerOn 0xFF, [0xAA, 0x11, 0xFF, 0x01, 0x01, 0x12]) ∈
      [(Instr.aPowerOn 0xFF, [0xAA, 0x11, 0xFF, 0x01, 0x01, (0x13 + 0xFF : Byte)])] ∧
    (ref [] [] [.ok]).tx = .ok :: [] ∧ (ref [] [] [.ok]).phase ≠ .rxWait ∧
    ∃ u, exec (.aPowerOn 0xFF) (ref [] [] [.ok]) = .next u := ⟨by decide, by decide, by decide, _, rfl⟩
theorem witness_ChecksumMissesCorruption :
    ((0x4A :: 0x00 :: 0x02 :: [0x01, 0x02]) : List Byte).Perm (0x4A :: 0x00 :: 0x02 :: [0x02, 0x01]) ∧
    sumBytes (0x4A :: 0x00 :: 0x01 :: [0x00]) % 256 = sumBytes (0x49 :: 0x01 :: 0x01 :: [0x00]) % 256 ∧
    sumBytes (0x4A :: 0x00 :: 0x01 :: [0x00]) % 256 = sumBytes (0x49 :: 0x01 :: lenByte [0x00] :: [0x00]) % 256 ∧
    ([0x00] : List Byte).length ≤ MAX_N := by decide
theorem witness_DecodeOrdersDiffer :
    (([] : List Byte).head? = none ∧ (docBytes.head? = none ∨ docBytes.head? = some HDR)) ∧
    ([0x55, 0x00, 0x00, 0xFF] : List Byte) = 0x55 :: [0x00, 0x00, 0xFF] ∧ (0x55 : Byte) ≠ HDR := by decide
theorem witness_DecReadsOnlyItsFrame : dec .lengthFirst docBytes ≠ .incomplete ∧ dec .headerFirst [0x55] ≠ .incomplete := by decide
theorem witness_CodecRoundTrip : ([0xAA, 0x00] : List Byte).length ≤ MAX_N := by decide
theorem witness_ProperPrefixIncomplete :
    ([0x00] : List Byte).length ≤ MAX_N ∧ enc 0x4A 0x00 [0x00] = [0xAA, 0x4A, 0x00, 0x01, 0x00] ++ [0x4B] ∧
      ([0x4B] : List Byte) ≠ [] := by decide
theorem witness_DecAcceptsOnlyEncodings : dec .prefixFirst (docBytes ++ [0x00]) = .frame docRec 6 := by decide
theorem witness_EncodeAnswersFrame : ([] : List Byte).length ≤ MAX_N := by decide
theorem witness_DecodeOpOutcomes :
    dec decReady.cfg.decodeOrder decReady.rxbuf = .frame docRec 6 ∧
    dec State.reset.cfg.decodeOrder State.reset.rxbuf = .incomplete ∧
    (let s := blk .headerFirst true [0x55] [] [] []
     dec s.cfg.decodeOrder s.rxbuf = .invalidHeader) ∧
    (let s := blk .prefixFirst true [0xAA, 0x4A, 0x00, 0x01, 0x00, 0x4C] [] [] []
     dec s.cfg.decodeOrder s.rxbuf = .invalidChecksum) := by decide
theorem witness_SendCompletes :
    sendFields .bPanelOff ≠ none ∧ sendFields (.send 0x11 0xFE []) ≠ none ∧ (ref [] [] [.ok, .ok]).tx = .ok :: [.ok] := by decide
theorem witness_WriteFailureEndsOperation :
    sentBytes (.aQueryPower 0x01) ≠ [] ∧ (ref [] [] [.ioErr 5]).phase ≠ .rxWait ∧ (ref [] [] [.ioErr 5]).tx = .ioErr 5 :: [] ∧
      5 ≤ (sentBytes (.aQueryPower 0x01)).length := by decide
theorem witness_UnansweredWriteWaits :
    sentBytes (.sendAck 0x11 0x01 []) ≠ [] ∧ (ref [] [] []).phase ≠ .rxWait ∧ (ref [] [] []).tx = [] := by decide
theorem witness_SendLeavesReceiveSide :
    sendFields .bPowerOff ≠ none ∧ ∃ t, exec .bPowerOff (ref [0x21, 0, 0, 0] [] [.ioErr 2]) = .next t := ⟨by decide, _, rfl⟩

/-- The chunks of V-RX-2, from a receive that starts now. -/
theorem witness_ReceiveReturnsDecodedFrame :
    Started (ref recvReq [.data 0xAA [0x4A, 0x00], .data 0x01 [0x00, 0x4B, 0xAA, 0xFF], .ended] []) 0 ∧
    ReadsTo (ref recvReq [.data 0xAA [0x4A, 0x00], .data 0x01 [0x00, 0x4B, 0xAA, 0xFF], .ended] [])
      [[0xAA, 0x4A, 0x00], [0x01, 0x00, 0x4B, 0xAA, 0xFF]] [.ended] ∧
    dec .lengthFirst (bufAfter (ref recvReq [] []) [[0xAA, 0x4A, 0x00], [0x01, 0x00, 0x4B, 0xAA, 0xFF]]) =
      .frame docRec 6 := ⟨.inl ⟨by decide, rfl⟩, ⟨by decide, by decide, by decide⟩, by decide⟩
/-- The same statement of a receive that goes on from RX_WAIT. -/
theorem witness_ReceiveReturnsDecodedFrame_resumed :
    Started (recvWaiting [.data 0x01 [0x00, 0x4B]]) 1 ∧
    ReadsTo (recvWaiting [.data 0x01 [0x00, 0x4B]]) [[0x01, 0x00, 0x4B]] [] ∧
    dec .lengthFirst (bufAfter (recvWaiting [.data 0x01 [0x00, 0x4B]]) [[0x01, 0x00, 0x4B]]) = .frame docRec 6 :=
  ⟨.inr ⟨rfl, rfl, by decide⟩, ⟨by decide, by decide, by decide⟩, by decide⟩
theorem witness_ReceiveReassemblesAnyChunking :
    Started (ref recvReq [.data 0xAA [0x4A, 0x00], .data 0x01 [0x00, 0x4B, 0xAA, 0xFF], .ended] []) 0 ∧
    (let s := ref recvReq [.data 0xAA [0x4A, 0x00], .data 0x01 [0x00, 0x4B, 0xAA, 0xFF], .ended] []
     let chunks : List (List Byte) := [[0xAA, 0x4A, 0x00], [0x01, 0x00, 0x4B, 0xAA, 0xFF]]
     ([0x00] : List Byte).length ≤ MAX_N ∧ (∀ c ∈ chunks, c ≠ [] ∧ c.length ≤ s.cfg.scratchSize) ∧
       s.rx = chunks.flatMap arriving ++ [.ended] ∧ s.rxbuf ++ chunks.flatten = enc 0x4A 0x00 [0x00] ++ [0xAA, 0xFF]) ∧
    (∀ front last, ([[0xAA, 0x4A, 0x00], [0x01, 0x00, 0x4B, 0xAA, 0xFF]] : List (List Byte)) = front ++ [last] →
      ([0xAA, 0xFF] : List Byte).length < last.length) := by
  refine ⟨.inl ⟨by decide, rfl⟩, by decide, fun front last h => ?_⟩
  have := congrArg List.getLast? h
  simp at this
  subst this
  decide

/-- An operation at its reads: SEND_ACK after its write, with its reply in two chunks. -/
theorem witness_reading_ack : Reading (.sendAck 0x11 0x01 [0x01]) ackReady ackWritten 0 :=
  ⟨.inl ⟨by decide, rfl⟩, .inl ⟨by decide, .inr ⟨.inl (by decide), [], rfl, by decide +kernel⟩⟩⟩
theorem witness_reads_ack :
    ReadsTo ackWritten [[0xAA, 0xFF, 0x01, 0x03, 0x41], [0x11, 0x01, 0x56]] [] := ⟨by decide, by decide, by decide⟩
/-- RECEIVE at its reads, starting now and going on from RX_WAIT. -/
theorem witness_reading_receive (rx : List RxAnswer) : Reading .receive (ref recvReq rx []) (ref recvReq rx []) 0 :=
  ⟨.inl ⟨nofun, rfl⟩, .inl ⟨nofun, .inl ⟨rfl, rfl⟩⟩⟩
theorem witness_reading_resumed (rx : List RxAnswer) : Reading .receive (recvWaiting rx) (recvWaiting rx) 1 :=
  ⟨.inr ⟨rfl, rfl, rfl⟩, .inr ⟨rfl, .inl rfl, rfl⟩⟩

theorem witness_FramingErrorClearsBuffer :
    (let s := ref recvReq [.data 0x00 [0xFF, 0x01, 0x00, 0x00]] []
     Reading .receive s s 0 ∧ ReadsTo s [[0x00, 0xFF, 0x01, 0x00, 0x00]] [] ∧
       dec s.cfg.decodeOrder (bufAfter s [[0x00, 0xFF, 0x01, 0x00, 0x00]]) = .invalidHeader) ∧
    (let s := ref recvReq [.data 0xAA [0xFF, 0x01, 0x01, 0x41, 0x00]] []
     Reading .receive s s 0 ∧ ReadsTo s [[0xAA, 0xFF, 0x01, 0x01, 0x41, 0x00]] [] ∧
       dec s.cfg.decodeOrder (bufAfter s [[0xAA, 0xFF, 0x01, 0x01, 0x41, 0x00]]) = .invalidChecksum) :=
  ⟨⟨witness_reading_receive _, ⟨by decide, by decide, by decide⟩, by decide⟩,
    ⟨witness_reading_receive _, ⟨by decide, by decide, by decide⟩, by decide⟩⟩
theorem witness_StreamEndKeepsBuffer :
    Reading .receive (recvWaiting [.data 0x01 [], .ended]) (recvWaiting [.data 0x01 [], .ended]) 1 ∧
    ReadsTo (recvWaiting [.data 0x01 [], .ended]) [[0x01]] (.ended :: []) ∧
    dec .lengthFirst (bufAfter (recvWaiting [.data 0x01 [], .ended]) [[0x01]]) = .incomplete :=
  ⟨witness_reading_resumed _, ⟨by decide, by decide, by decide⟩, by decide⟩
theorem witness_ReadFailureKeepsBuffer :
    Reading .receive (ref recvReq [.data 0xAA [], .ioErr] []) (ref recvReq [.data 0xAA [], .ioErr] []) 0 ∧
    ReadsTo (ref recvReq [.data 0xAA [], .ioErr] []) [[0xAA]] (.ioErr :: []) ∧
    dec .lengthFirst (bufAfter (ref recvReq [.data 0xAA [], .ioErr] []) [[0xAA]]) = .incomplete :=
  ⟨witness_reading_receive _, ⟨by decide, by decide, by decide⟩, by decide⟩
theorem witness_UnansweredReadWaits :
    Reading .receive (ref recvReq [.data 0xAA []] []) (ref recvReq [.data 0xAA []] []) 0 ∧
    ReadsTo (ref recvReq [.data 0xAA []] []) [[0xAA]] [] ∧
    dec .lengthFirst (bufAfter (ref recvReq [.data 0xAA []] []) [[0xAA]]) = .incomplete :=
  ⟨witness_reading_receive _, ⟨by decide, by decide, by decide⟩, by decide⟩
theorem witness_WaitingChangesNothing :
    MachineInv (recvWaiting []) ∧ receives .receive ∧
      ∃ t, exec .receive (recvWaiting []) = .next t ∧ t.phase = .rxWait :=
  ⟨witness_inv_recvWaiting, .inl rfl, _, rfl, by decide⟩
theorem witness_OnlyDecodeReportsIncomplete :
    Instr.receive ≠ .decode ∧ wireFields .receive = none ∧
    (∃ t, exec .receive (ref recvReq [.ended] []) = .next t ∧ t.phase = .idle) ∧
    waitingAck.phase = .rxWait ∧ ∃ t, exec (.ack 0x01 [0x11, 0x01] 0x56) waitingAck = .next t ∧ t.phase = .idle :=
  ⟨by decide, rfl, ⟨_, rfl, by decide⟩, rfl, _, rfl, by decide⟩
theorem witness_ReceiveReadBound :
    MachineInv (recvWaiting []) ∧ receives .receive ∧
      ∃ t, exec .receive (recvWaiting []) = .next t ∧ t.phase = .rxWait :=
  ⟨witness_inv_recvWaiting, .inl rfl, _, rfl, by decide⟩
theorem witness_ReceiveFrameCondition : ∃ t, exec .receive (ref recvReq [.ended] []) = .next t := ⟨_, rfl⟩

theorem witness_HandshakeAcceptsPositive :
    handshakeFields (.sendAck 0x11 0x01 [0x01]) ≠ none ∧ Reading (.sendAck 0x11 0x01 [0x01]) ackReady ackWritten 0 ∧
    ReadsTo ackWritten [[0xAA, 0xFF, 0x01, 0x03, 0x41], [0x11, 0x01, 0x56]] [] ∧
    dec .lengthFirst (bufAfter ackWritten [[0xAA, 0xFF, 0x01, 0x03, 0x41], [0x11, 0x01, 0x56]]) = .frame ackRec 8 ∧
    positive ackRec := ⟨by decide, witness_reading_ack, witness_reads_ack, by decide, by decide, by decide⟩
/-- SEND_ACK after its write, with this reply in one chunk. -/
def replied (b : Byte) (bs : List Byte) : State := { ref sendAckReq [.data b bs] [] with wire := sendAckFrame }
theorem witness_reading_replied (b : Byte) (bs : List Byte) :
    Reading (.sendAck 0x11 0x01 [0x01]) (ref sendAckReq [.data b bs] [.ok]) (replied b bs) 0 :=
  ⟨.inl ⟨nofun, rfl⟩, .inl ⟨nofun, .inr ⟨.inl nofun, [], rfl, rfl⟩⟩⟩
theorem witness_UnexpectedReplyRejected :
    checksReply (.sendAck 0x11 0x01 [0x01]) (ref [] [] []) ∧ checksReply (.aQueryPanel 0x01) (ref [] [] []) ∧
    Reading (.sendAck 0x11 0x01 [0x01]) (ref sendAckReq [.data 0xAA [0x11, 0x01, 0x01, 0x41, 0x54]] [.ok])
      (replied 0xAA [0x11, 0x01, 0x01, 0x41, 0x54]) 0 ∧
    ReadsTo (replied 0xAA [0x11, 0x01, 0x01, 0x41, 0x54]) [[0xAA, 0x11, 0x01, 0x01, 0x41, 0x54]] [] ∧
    dec .lengthFirst (bufAfter (replied 0xAA [0x11, 0x01, 0x01, 0x41, 0x54]) [[0xAA, 0x11, 0x01, 0x01, 0x41, 0x54]]) =
      .frame { cmd := 0x11, tgt := 0x01, n := 1, pl := [0x41] } 6 ∧ (0x11 : Byte) ≠ CMD_ACKNAK :=
  ⟨.inl (by decide), .inr ⟨by simp [queryFields], rfl⟩, witness_reading_replied _ _, ⟨by decide, by decide, by decide⟩, by decide, by decide⟩
theorem witness_NegativeReplyRejected :
    checksReply (.sendAck 0x11 0x01 [0x01]) (ref [] [] []) ∧
    Reading (.sendAck 0x11 0x01 [0x01]) (ref sendAckReq [.data 0xAA [0xFF, 0x01, 0x00, 0x00]] [.ok])
      (replied 0xAA [0xFF, 0x01, 0x00, 0x00]) 0 ∧
    ReadsTo (replied 0xAA [0xFF, 0x01, 0x00, 0x00]) [[0xAA, 0xFF, 0x01, 0x00, 0x00]] [] ∧
    dec .lengthFirst (bufAfter (replied 0xAA [0xFF, 0x01, 0x00, 0x00]) [[0xAA, 0xFF, 0x01, 0x00, 0x00]]) =
      .frame { cmd := 0xFF, tgt := 0x01, n := 0, pl := [] } 5 ∧ (0xFF : Byte) = CMD_ACKNAK ∧
    ([] : List Byte).head? ≠ some ACK_BYTE :=
  ⟨.inl (by decide), witness_reading_replied _ _, ⟨by decide, by decide, by decide⟩, by decide, by decide, by decide⟩

/-- A status query blocked in RX_WAIT with nothing held, and this reply on the port. -/
def querying (op b : Byte) (bs : List Byte) : State := { ref [op, 0, 0x01, 0] [.data b bs] [] with phase := .rxWait }
/-- What the statements about a query assume of an acknowledged reply `0xAA :: bs` that decodes to `f`. -/
structure Replied (i : Instr) (op : Byte) (bs : List Byte) (f : Frame) (c : Nat) : Prop where
  reading : Reading i (querying op 0xAA bs) (querying op 0xAA bs) 0
  reads : ReadsTo (querying op 0xAA bs) [0xAA :: bs] []
  decoded : dec (querying op 0xAA bs).cfg.decodeOrder (bufAfter (querying op 0xAA bs) [0xAA :: bs]) = .frame f c
  accepted : positive f
theorem Replied.of (i : Instr) (op : Byte) (bs : List Byte) (f : Frame) (c : Nat) (hi : queryFields i ≠ none)
    (hl : (0xAA :: bs).length ≤ 1024) (hd : dec .lengthFirst (0xAA :: bs) = .frame f c) (hp : positive f) :
    Replied i op bs f c where
  reading := ⟨.inr ⟨rfl, rfl, rfl⟩, .inr ⟨rfl, .inr (.inr hi), rfl⟩⟩
  reads := ⟨by simpa [querying, ref, blk, Params.reference] using hl, by simp [querying, ref, blk], by
    intro k hk
    obtain rfl : k = 0 := by simpa using hk
    rfl⟩
  decoded := by simpa [bufAfter, querying, ref, blk, State.reset] using hd
  accepted := hp
/-- A short reply, 0x00, 0x01, 0x02: the four clauses. -/
theorem witness_QueryPowerReportsStatus :
    (Replied (.aQueryPower 0x01) 0x14 [0xFF, 0x01, 0x02, 0x41, 0x11, 0x54]
        { cmd := 0xFF, tgt := 0x01, n := 2, pl := [0x41, 0x11] } 7 ∧ (2 : Byte).toNat < STATUS_OFFSET + 1) ∧
    (Replied (.aQueryPower 0x01) 0x14 [0xFF, 0x01, 0x03, 0x41, 0x11, 0x00, 0x55] { ackRec with pl := [0x41, 0x11, 0x00] } 8 ∧
      STATUS_OFFSET < ackRec.n.toNat ∧ ([0x41, 0x11, 0x00] : List Byte)[STATUS_OFFSET]? = some ST_POWER_ON) ∧
    (Replied (.aQueryPower 0x01) 0x14 [0xFF, 0x01, 0x03, 0x41, 0x11, 0x01, 0x56] ackRec 8 ∧
      STATUS_OFFSET < ackRec.n.toNat ∧ ackRec.pl[STATUS_OFFSET]? = some ST_POWER_OFF) ∧
    (Replied (.aQueryPower 0x01) 0x14 [0xFF, 0x01, 0x03, 0x41, 0x11, 0x02, 0x57] { ackRec with pl := [0x41, 0x11, 0x02] } 8 ∧
      STATUS_OFFSET < ackRec.n.toNat ∧ ([0x41, 0x11, 0x02] : List Byte)[STATUS_OFFSET]? = some 0x02 ∧
      (0x02 : Byte) ≠ ST_POWER_ON ∧ (0x02 : Byte) ≠ ST_POWER_OFF) :=
  ⟨⟨.of _ _ _ _ _ (by simp [queryFields]) (by decide) (by decide) ⟨by decide, by decide⟩, by decide⟩,
    ⟨.of _ _ _ _ _ (by simp [queryFields]) (by decide) (by decide) ⟨by decide, by decide⟩, by decide⟩,
    ⟨.of _ _ _ _ _ (by simp [queryFields]) (by decide) (by decide) ⟨by decide, by decide⟩, by decide⟩,
    ⟨.of _ _ _ _ _ (by simp [queryFields]) (by decide) (by decide) ⟨by decide, by decide⟩, by decide⟩⟩
theorem witness_QueryPanelReportsStatus :
    (Replied (.aQueryPanel 0x01) 0x15 [0xFF, 0x01, 0x01, 0x41, 0x42] { cmd := 0xFF, tgt := 0x01, n := 1, pl := [0x41] } 6 ∧
      (1 : Byte).toNat < STATUS_OFFSET + 1) ∧
    (Replied (.aQueryPanel 0x01) 0x15 [0xFF, 0x01, 0x03, 0x41, 0xF9, 0x00, 0x3D] { ackRec with pl := [0x41, 0xF9, 0x00] } 8 ∧
      STATUS_OFFSET < ackRec.n.toNat ∧ ([0x41, 0xF9, 0x00] : List Byte)[STATUS_OFFSET]? = some ST_PANEL_OFF) ∧
    (Replied (.aQueryPanel 0x01) 0x15 [0xFF, 0x01, 0x03, 0x41, 0xF9, 0x01, 0x3E] { ackRec with pl := [0x41, 0xF9, 0x01] } 8 ∧
      STATUS_OFFSET < ackRec.n.toNat ∧ ([0x41, 0xF9, 0x01] : List Byte)[STATUS_OFFSET]? = some ST_PANEL_ON) ∧
    (Replied (.aQueryPanel 0x01) 0x15 [0xFF, 0x01, 0x03, 0x41, 0xF9, 0xFF, 0x3C] { ackRec with pl := [0x41, 0xF9, 0xFF] } 8 ∧
      STATUS_OFFSET < ackRec.n.toNat ∧ ([0x41, 0xF9, 0xFF] : List Byte)[STATUS_OFFSET]? = some 0xFF ∧
      (0xFF : Byte) ≠ ST_PANEL_OFF ∧ (0xFF : Byte) ≠ ST_PANEL_ON) :=
  ⟨⟨.of _ _ _ _ _ (by simp [queryFields]) (by decide) (by decide) ⟨by decide, by decide⟩, by decide⟩,
    ⟨.of _ _ _ _ _ (by simp [queryFields]) (by decide) (by decide) ⟨by decide, by decide⟩, by decide⟩,
    ⟨.of _ _ _ _ _ (by simp [queryFields]) (by decide) (by decide) ⟨by decide, by decide⟩, by decide⟩,
    ⟨.of _ _ _ _ _ (by simp [queryFields]) (by decide) (by decide) ⟨by decide, by decide⟩, by decide⟩⟩
theorem witness_StatusDecodesAsymmetric : (0x02 : Byte) ≠ 0x00 ∧ (0x02 : Byte) ≠ 0x01 := by decide
theorem witness_QueryExpandsToSendAck :
    queryFields (.aQueryPower 0x01) = some (CMD_POWER, 0x01, powerBit) ∧ (ref [] [] []).cfg.queryAckCheck = true ∧
    (∃ u, exec (.sendAck CMD_POWER 0x01 []) (querying 0x14 0xAA [0xFF, 0x01, 0x03, 0x41, 0x11, 0x01, 0x56]) = .next u ∧
      u.phase = .idle ∧ u.resp = some { code := .ok, frame := some ackRec }) ∧
    (∃ u, exec (.sendAck CMD_POWER 0x01 []) (ref [] [.ended] [.ok]) = .next u ∧ u.resp.map Resp.code ≠ some .ok) ∧
    ∃ u, exec (.sendAck CMD_POWER 0x01 []) (ref [] [] [.ok]) = .next u ∧ u.phase ≠ .idle :=
  ⟨rfl, rfl, ⟨_, rfl, by decide, by decide⟩, ⟨_, rfl, by decide⟩, _, rfl, by decide⟩
theorem witness_AwaitingOpsFrameCondition :
    (handshakeFields (.aPanelOn 0x07) ≠ none ∧ ∃ t, exec (.aPanelOn 0x07) (ref [] [.ended] [.ok]) = .next t) ∧
    queryFields (.aQueryPower 0x01) ≠ none ∧ ∃ t, exec (.aQueryPower 0x01) (ref [] [] [.ok]) = .next t :=
  ⟨⟨by decide, _, rfl⟩, by simp [queryFields], _, rfl⟩
theorem witness_FsmRefinesHandshake :
    handshakeFields (.sendAck 0x11 0x01 [0x01]) = some (0x11, 0x01, [0x01]) ∧ restingPhase ackReady.phase = true ∧
      ∃ t, exec (.sendAck 0x11 0x01 [0x01]) ackReady = .next t ∧ t.phase = .idle := ⟨rfl, rfl, _, rfl, by decide⟩

theorem witness_ArrivingFrameWaitsInStream :
    wireFields .frBPowerOn = some (0x11, 0xFE, [0x01], 0x11) ∧ (ref [] [] []).phase ≠ .rxWait := by decide
/-- A RECEIVE blocked in RX_WAIT with nothing held. -/
def recvEmpty : State := { ref (recvReq ++ [0x02]) [] [] with phase := .rxWait }
theorem witness_blocked_recvEmpty : Blocked recvEmpty .receive [0x02] := ⟨rfl, rfl, by decide, by decide⟩
/-- A RECEIVE blocked with a header, a command, a target and the length byte 1 held, which five bytes more complete. -/
def recvHeld : State := { recvEmpty with rxbuf := [0xAA, 0x4A, 0x00, 0x01] }
theorem witness_blocked_recvHeld : Blocked recvHeld .receive [0x02] := ⟨rfl, rfl, by decide, by decide⟩
theorem witness_ArrivingFrameAnswersReceive :
    (wireFields (.frame 0x4A 0x00 [0x00] 0x4B) = some (0x4A, 0x00, [0x00], 0x4B) ∧
      wellFormed (.frame 0x4A 0x00 [0x00] 0x4B) = true ∧ Blocked recvEmpty .receive [0x02] ∧ recvEmpty.rxbuf = [] ∧
      (encode (.frame 0x4A 0x00 [0x00] 0x4B)).length ≤ recvEmpty.cfg.scratchSize) ∧
    wireFields (.frame 0xF5 0x00 [] 0x00) ≠ none ∧ Blocked recvHeld .receive [0x02] ∧
    (encode (.frame 0xF5 0x00 [] 0x00)).length ≤ recvHeld.cfg.scratchSize ∧
    dec recvHeld.cfg.decodeOrder (recvHeld.rxbuf ++ encode (.frame 0xF5 0x00 [] 0x00)) =
      .frame { cmd := 0x4A, tgt := 0x00, n := 1, pl := [0xAA] } 6 :=
  ⟨⟨rfl, by decide, witness_blocked_recvEmpty, rfl, by decide⟩, by decide, witness_blocked_recvHeld, by decide, by decide⟩
theorem witness_blocked_waitingAck : Blocked waitingAck (.sendAck 0x11 0x01 [0x01]) [] := ⟨rfl, rfl, by decide, by decide⟩
theorem witness_ArrivingReplySettlesHandshake :
    handshakeFields (.sendAck 0x11 0x01 [0x01]) ≠ none ∧ Blocked waitingAck (.sendAck 0x11 0x01 [0x01]) [] ∧
    waitingAck.rxbuf = [] ∧
    (wireFields (.ack 0x01 [0x11, 0x01] 0x56) = some (0xFF, 0x01, [0x41, 0x11, 0x01], 0x56) ∧
      wellFormed (.ack 0x01 [0x11, 0x01] 0x56) = true ∧
      (encode (.ack 0x01 [0x11, 0x01] 0x56)).length ≤ waitingAck.cfg.scratchSize ∧
      dec waitingAck.cfg.decodeOrder (waitingAck.rxbuf ++ encode (.ack 0x01 [0x11, 0x01] 0x56)) = .frame ackRec 8) ∧
    (wireFields (.acknak 0x01 [] 0x00) = some (0xFF, 0x01, [], 0x00) ∧ wellFormed (.acknak 0x01 [] 0x00) = true) ∧
    wireFields (.frAPowerOn 0x01 0x14) = some (0x11, 0x01, [0x01], 0x14) ∧ wellFormed (.frAPowerOn 0x01 0x14) = true ∧
    (∀ rest, Instr.frAPowerOn 0x01 0x14 ≠ .ack 0x01 rest 0x14) ∧ Instr.frAPowerOn 0x01 0x14 ≠ .acknak 0x01 [0x01] 0x14 :=
  ⟨by decide, witness_blocked_waitingAck, rfl, by decide, by decide, by decide, by decide, by simp, by decide⟩
theorem witness_NoByteRepeatedOrReordered : ∃ t, step ackReady = .next t ∧ t.rxbuf ++ streamBytes t.rx = [] :=
  ⟨_, rfl, by decide⟩
theorem witness_WireGrowsByRequestFrame : ∃ t, step ackReady = .next t ∧ t.wire = sendAckFrame := ⟨_, rfl, by decide⟩
theorem witness_AbsentFieldReadRefused :
    State.reset.resp = none ∧
    (let r : Resp := { code := .ioWrite, written := some 3 }
     ({ State.reset with resp := some r } : State).resp = some r ∧ r.written = some 3 ∧ r.bytes = none ∧ r.frame = none ∧
       r.consumed = none ∧ r.status = none ∧ r.badByte = none) ∧
    (let r : Resp := { code := .ok, bytes := some docBytes, frame := some docRec, consumed := some 6, status := some 1, badByte := some 2 }
     ({ State.reset with resp := some r } : State).resp = some r ∧ r.bytes = some docBytes ∧ r.frame = some docRec ∧
       r.consumed = some 6 ∧ r.status = some 1 ∧ r.badByte = some 2 ∧ r.written = none) := by decide

theorem witness_ArrivalGoesOnWithBlockedOperation :
    (wireFields (.ack 0x01 [0x11] 0x54) ≠ none ∧ queryWaiting.phase = .rxWait ∧
      decodeRequest queryWaiting.req = .instr (.aQueryPower 0x01) [] ∧ receives (.aQueryPower 0x01)) ∧
    (let s := { queryWaiting with req := [] }
     s.phase = .rxWait ∧ ∀ j rest, decodeRequest s.req = .instr j rest → ¬ receives j) :=
  ⟨⟨by decide, rfl, by decide, .inr (.inr nofun)⟩, rfl, nofun⟩
/-- A panel query blocked in RX_WAIT. -/
def panelWaiting : State := { queryWaiting with req := [0x15, 0, 0x01, 0] }
theorem witness_blocked_queryWaiting : Blocked queryWaiting (.aQueryPower 0x01) [] := ⟨rfl, rfl, by decide, by decide⟩
theorem witness_blocked_panelWaiting : Blocked panelWaiting (.aQueryPanel 0x01) [] := ⟨rfl, rfl, by decide, by decide⟩
/-- What the statement assumes of the arrival of `i` at the blocked power query, that it decodes to `f`. -/
def Arrives (i : Instr) (f : Frame) (c : Nat) : Prop :=
  wireFields i ≠ none ∧ (encode i).length ≤ queryWaiting.cfg.scratchSize ∧
    dec queryWaiting.cfg.decodeOrder (queryWaiting.rxbuf ++ encode i) = .frame f c
/-- An echo, a NAK, and positive replies that are short, with byte 2 on, off and no status. -/
theorem witness_ArrivingReplySettlesQuery :
    queryFields (.aQueryPower 0x01) ≠ none ∧ Blocked queryWaiting (.aQueryPower 0x01) [] ∧
    queryFields (.aQueryPanel 0x01) ≠ none ∧ Blocked panelWaiting (.aQueryPanel 0x01) [] ∧
    queryWaiting.cfg.queryAckCheck = true ∧
    (Arrives (.frPwrGet 0x01 0x12) { cmd := 0x11, tgt := 0x01, n := 0, pl := [] } 5 ∧ (0x11 : Byte) ≠ CMD_ACKNAK) ∧
    (Arrives (.acknak 0x01 [] 0x00) { cmd := 0xFF, tgt := 0x01, n := 0, pl := [] } 5 ∧
      ([] : List Byte).head? ≠ some ACK_BYTE) ∧
    (Arrives (.ack 0x01 [0x11] 0x54) { cmd := 0xFF, tgt := 0x01, n := 2, pl := [0x41, 0x11] } 7 ∧
      (2 : Byte).toNat < STATUS_OFFSET + 1) ∧
    (Arrives (.ack 0x01 [0x11, 0x00] 0x55) { ackRec with pl := [0x41, 0x11, 0x00] } 8 ∧
      ([0x41, 0x11, 0x00] : List Byte)[STATUS_OFFSET]? = some 0x00) ∧
    (Arrives (.ack 0x01 [0x11, 0x01] 0x56) ackRec 8 ∧ ackRec.pl[STATUS_OFFSET]? = some 0x01) ∧
    (Arrives (.ack 0x01 [0x11, 0x02] 0x57) { ackRec with pl := [0x41, 0x11, 0x02] } 8 ∧
      ([0x41, 0x11, 0x02] : List Byte)[STATUS_OFFSET]? = some 0x02) ∧
    STATUS_OFFSET < ackRec.n.toNat ∧ positive ackRec := by
  refine ⟨nofun, witness_blocked_queryWaiting, nofun, witness_blocked_panelWaiting, rfl, ?_, ?_, ?_, ?_, ?_, ?_, ?_⟩ <;>
    simp only [Arrives, positive] <;> decide
/-- A bad header completed, a wrong checksum, more bytes needed. -/
theorem witness_ArrivingBytesFailOrWait :
    (let s := { recvEmpty with rxbuf := [0x55, 0x00, 0x00, 0x00] }
     wireFields .frBPowerOn ≠ none ∧ receives .receive ∧ Blocked s .receive [0x02] ∧
       (encode .frBPowerOn).length ≤ s.cfg.scratchSize ∧
       dec s.cfg.decodeOrder (s.rxbuf ++ encode .frBPowerOn) = .invalidHeader) ∧
    (Blocked recvEmpty .receive [0x02] ∧
       dec recvEmpty.cfg.decodeOrder (recvEmpty.rxbuf ++ encode (.frPwrGet 0x01 0x13)) = .invalidChecksum) ∧
    (let s := { recvEmpty with rxbuf := [0xAA, 0x4A, 0x00] }
     Blocked s .receive [0x02] ∧ dec s.cfg.decodeOrder (s.rxbuf ++ encode .frBPowerOn) = .incomplete) :=
  ⟨⟨nofun, .inl rfl, ⟨rfl, rfl, by decide, by decide⟩, by decide, by decide⟩,
    ⟨witness_blocked_recvEmpty, by decide⟩, ⟨rfl, rfl, by decide, by decide⟩, by decide⟩
/-- SCRATCH_SIZE 2, so that an answer of three bytes is longer. -/
theorem witness_LongAnswersAreReadInPieces :
    wireFields .receive = none ∧ ([0xAA, 0x4A] : List Byte) ≠ [] ∧
    ([0xAA, 0x4A] : List Byte).length =
      ({ ref recvReq [] [] with cfg := { Params.reference with scratchSize := 2 } } : State).cfg.scratchSize := by decide

end Sys2Proof.Tests
end

section
/-! PROOFS. Two runs in lockstep: a relation between states that the reads of a receive and the updates of an operation
respect holds between the outcomes of every instruction. What a part of the state cannot influence (10_state R22, R26) and
how a stream may be cut (10_state R31) are instances of it. -/
namespace Sys2Proof.Machine
open Sys2Proof.Config

/-! ## A read and DECODE, by what they find -/

/-- What one read does, by the port's first answer (10_state R31). -/
theorem readTurn_eq (s : State) :
    readTurn s =
      match s.rx with
      | [] => .waits s
      | .data b bs :: later =>
        .done () (afterChunk ((b :: bs).take s.cfg.scratchSize)
          (arriving ((b :: bs).drop s.cfg.scratchSize) ++ later) s)
      | .ended :: later => .raised (finish { code := .streamEnded } { s with rx := later, reads := s.reads + 1 })
      | .ioErr :: later => .raised (finish { code := .ioRead } { s with rx := later, reads := s.reads + 1 }) := by
  rcases readTurn_cases s with ⟨h, e⟩ | ⟨b, bs, later, h, e⟩ | ⟨later, h, e⟩ | ⟨later, h, e⟩ <;> rw [e, h] <;> rfl

/-- What DECODE does, by the outcome of `DEC`. -/
theorem execDecode_eq (s : State) :
    execDecode s =
      match dec s.cfg.decodeOrder s.rxbuf with
      | .frame f c =>
        .next (finish { code := .ok, frame := some f, consumed := some (BitVec.ofNat 9 c) } (fifoDrop c (setPhase .dec s)))
      | .incomplete => .next (finish { code := .incomplete } (setPhase .dec s))
      | .invalidHeader => .next (finish { code := .invalidHeader } (setPhase .dec s))
      | .invalidChecksum => .next (finish { code := .invalidChecksum } (setPhase .dec s)) := by
  unfold execDecode decodeFront
  simp only [setPhase_cfg, setPhase_rxbuf]
  cases dec s.cfg.decodeOrder s.rxbuf <;> rfl

/-! ## Related stages and outcomes -/

/-- Two shared steps end alike: with the same value, both with an error, or both waiting, and in related states. -/
inductive StageRel (R : State → State → Prop) {α : Type} : Stage α → Stage α → Prop
  | done (a : α) {s t : State} (h : R s t) : StageRel R (.done a s) (.done a t)
  | raised {s t : State} (h : R s t) : StageRel R (.raised s) (.raised t)
  | waits {s t : State} (h : R s t) : StageRel R (.waits s) (.waits t)

/-- Two outcomes are alike: related next states, or the same stop. -/
inductive OutcomeRel (R : State → State → Prop) : Outcome → Outcome → Prop
  | next {s t : State} (h : R s t) : OutcomeRel R (.next s) (.next t)
  | fault (r : Fault) : OutcomeRel R (.fault r) (.fault r)
  | refused (r : Refusal) : OutcomeRel R (.refused r) (.refused r)

/-- What two states need to have in common for an operation to take the same branches on both, its reads aside. -/
structure SameView (s t : State) : Prop where
  cfg : s.cfg = t.cfg
  rxbuf : s.rxbuf = t.rxbuf
  phase : s.phase = t.phase
  req : s.req = t.req
  tx : s.tx = t.tx
  line : s.line = t.line

/-- The updates the shared steps of an operation are made of, its reads aside. -/
inductive OpUpdate : (State → State) → Prop
  | phase (p : Phase) : OpUpdate (setPhase p)
  | ends (r : Resp) : OpUpdate (finish r)
  | drop (n : Nat) : OpUpdate (fifoDrop n)
  | clear : OpUpdate fifoClear
  | count : OpUpdate fun s => { s with reads := 0 }
  | write (later : List TxAnswer) (bs : List Byte) : OpUpdate fun s => { s with tx := later, wire := s.wire ++ bs }

theorem OpUpdate.cfg_eq {g : State → State} (hg : OpUpdate g) (s : State) : (g s).cfg = s.cfg := by
  cases hg <;> rfl

/-- No update of an operation touches the stream: only reads do. -/
theorem OpUpdate.rx_comm {g : State → State} (hg : OpUpdate g) (s : State) (rx : List RxAnswer) :
    g { s with rx := rx } = { g s with rx := rx } := by
  cases hg <;> rfl

/-- The updates an arrival is made of (60 R207). -/
inductive ArrivalUpdate : (State → State) → Prop
  | deliver (bs : List Byte) : ArrivalUpdate (deliver bs)
  | line (rest : List Byte) : ArrivalUpdate fun s => { s with line := rest }

/-- A relation that the operations respect. -/
structure Lockstep (R : State → State → Prop) : Prop where
  view : ∀ {s t}, R s t → SameView s t
  update : ∀ {g}, OpUpdate g → ∀ {s t}, R s t → R (g s) (g t)
  read : ∀ {s t}, R s t → StageRel R (readTurn s) (readTurn t)

/-- A relation that the arrivals respect too. -/
structure LockstepArrivals (R : State → State → Prop) : Prop extends Lockstep R where
  arrival : ∀ {g}, ArrivalUpdate g → ∀ {s t}, R s t → R (g s) (g t)

/-! ## The operations -/

section
variable {R : State → State → Prop} {s t : State}

theorem andThen_lockstep {α : Type} {x y : Stage α} {rest : α → State → Outcome} (h : StageRel R x y)
    (hrest : ∀ (a : α) {u v : State}, R u v → OutcomeRel R (rest a u) (rest a v)) :
    OutcomeRel R (x.andThen rest) (y.andThen rest) := by
  cases h with
  | done a h => exact hrest a h
  | raised h => exact .next h
  | waits h => exact .next h

variable (hR : Lockstep R)
include hR

theorem finish_lockstep (r : Resp) (h : R s t) : OutcomeRel R (.next (finish r s)) (.next (finish r t)) :=
  .next (hR.update (.ends r) h)

theorem sendFrame_lockstep (cmd tgt : Byte) (pl : List Byte) (h : R s t) :
    StageRel R (sendFrame cmd tgt pl s) (sendFrame cmd tgt pl t) := by
  have hp : R (setPhase .tx s) (setPhase .tx t) := hR.update (.phase .tx) h
  have htx : s.tx = t.tx := (hR.view h).tx
  rcases e : s.tx with _ | ⟨_ | p, later⟩ <;> rw [htx] at e
  · rw [sendFrame_noAnswer _ _ _ _ (htx.trans e), sendFrame_noAnswer _ _ _ _ e]
    exact .waits hp
  · rw [sendFrame_ok _ _ _ _ _ (htx.trans e), sendFrame_ok _ _ _ _ _ e]
    exact .done () (hR.update (.write later _) hp)
  · rw [sendFrame_ioErr _ _ _ _ _ _ (htx.trans e), sendFrame_ioErr _ _ _ _ _ _ e]
    exact .raised (hR.update (.ends _) (hR.update (.write later _) hp))

theorem decodeThen_lockstep {more : State → Stage (Frame × Nat)}
    (hmore : ∀ {u v}, R u v → StageRel R (more u) (more v)) (h : R s t) :
    StageRel R (decodeThen more s) (decodeThen more t) := by
  have hd : R (setPhase .rxDec s) (setPhase .rxDec t) := hR.update (.phase .rxDec) h
  rw [decodeThen_eq, decodeThen_eq, (hR.view h).cfg, (hR.view h).rxbuf]
  cases dec t.cfg.decodeOrder t.rxbuf with
  | incomplete => exact hmore (hR.update (.phase .rxWait) h)
  | invalidHeader => exact .raised (hR.update (.ends _) (hR.update .clear hd))
  | invalidChecksum => exact .raised (hR.update (.ends _) (hR.update .clear hd))
  | frame f c => exact .done (f, c) (hR.update (.drop c) hd)

theorem readLoop_lockstep (k : Nat) : ∀ {s t : State}, R s t → StageRel R (readLoop k s) (readLoop k t) := by
  induction k with
  | zero => exact fun h => .waits h
  | succ k ih =>
    intro s t h
    have hread := hR.read h
    unfold readLoop
    generalize readTurn s = x, readTurn t = y at hread
    cases hread with
    | done _ h => exact decodeThen_lockstep hR ih h
    | raised h => exact .raised h
    | waits h => exact .waits h

theorem receiveFrame_lockstep (h : R s t) : StageRel R (receiveFrame s) (receiveFrame t) := by
  have hp : s.phase = .rxWait ↔ t.phase = .rxWait := by rw [(hR.view h).phase]
  unfold receiveFrame
  simp only [hp]
  split
  · exact readLoop_lockstep hR _ h
  · exact decodeThen_lockstep hR (readLoop_lockstep hR _) (hR.update .count h)

theorem awaitAck_lockstep (h : R s t) : StageRel R (awaitAck s) (awaitAck t) := by
  have hr := receiveFrame_lockstep hR h
  unfold awaitAck
  generalize receiveFrame s = x, receiveFrame t = y at hr
  cases hr with
  | raised h => exact .raised h
  | waits h => exact .waits h
  | done r h =>
    have hc := hR.update (.phase .ackChk) h
    dsimp only
    cases ackVerdict r.1 with
    | unexpected => exact .raised (hR.update (.ends _) hc)
    | negative => exact .raised (hR.update (.ends _) hc)
    | positive => exact .done _ hc

theorem queryReply_lockstep (h : R s t) : StageRel R (queryReply s) (queryReply t) := by
  have hr := receiveFrame_lockstep hR h
  unfold queryReply
  rw [(hR.view h).cfg]
  split
  · exact awaitAck_lockstep hR h
  · generalize receiveFrame s = x, receiveFrame t = y at hr
    cases hr with
    | raised h => exact .raised h
    | waits h => exact .waits h
    | done r h => exact .done _ h

theorem sendThen_lockstep (cmd tgt : Byte) (pl : List Byte) {reply : State → Outcome}
    (hreply : ∀ {u v}, R u v → OutcomeRel R (reply u) (reply v)) (h : R s t) :
    OutcomeRel R (sendThen cmd tgt pl reply s) (sendThen cmd tgt pl reply t) := by
  unfold sendThen
  rw [(hR.view h).phase]
  split
  · exact hreply h
  · exact andThen_lockstep (sendFrame_lockstep hR cmd tgt pl h) fun _ => hreply

theorem statusReply_lockstep (statusOf : Byte → Option (BitVec 1)) (f : Frame) (h : R s t) :
    OutcomeRel R (statusReply statusOf f s) (statusReply statusOf f t) := by
  unfold statusReply
  split
  · exact .fault _
  · split <;> exact finish_lockstep hR _ h

theorem execDecode_lockstep (h : R s t) : OutcomeRel R (execDecode s) (execDecode t) := by
  have hp : R (setPhase .dec s) (setPhase .dec t) := hR.update (.phase .dec) h
  rw [execDecode_eq, execDecode_eq, (hR.view h).cfg, (hR.view h).rxbuf]
  cases dec t.cfg.decodeOrder t.rxbuf with
  | frame f c => exact finish_lockstep hR _ (hR.update (.drop c) hp)
  | incomplete => exact finish_lockstep hR _ hp
  | invalidHeader => exact finish_lockstep hR _ hp
  | invalidChecksum => exact finish_lockstep hR _ hp

/-- Every host operation, from related states, has related outcomes. -/
theorem exec_request_lockstep {i : Instr} (hi : wireFields i = none) (h : R s t) :
    OutcomeRel R (exec i s) (exec i t) := by
  rcases instr_kinds i with ⟨cmd, tgt, pl, rfl⟩ | rfl | rfl | hk | hk | hk | hk
  · exact finish_lockstep hR _ (hR.update (.phase .enc) h)
  · exact execDecode_lockstep hR h
  · exact andThen_lockstep (receiveFrame_lockstep hR h) fun _ => finish_lockstep hR _
  · obtain ⟨⟨cmd, tgt, pl⟩, e⟩ := Option.ne_none_iff_exists'.mp hk
    rw [exec_handshake e, exec_handshake e]
    exact sendThen_lockstep hR cmd tgt pl
      (fun h => andThen_lockstep (awaitAck_lockstep hR h) fun _ => finish_lockstep hR _) h
  · obtain ⟨⟨cmd, tgt, statusOf⟩, e⟩ := Option.ne_none_iff_exists'.mp hk
    rw [exec_query e, exec_query e]
    exact sendThen_lockstep hR cmd tgt []
      (fun h => andThen_lockstep (queryReply_lockstep hR h) fun f _ _ h =>
        statusReply_lockstep hR statusOf f (hR.update (.phase .stDec) h)) h
  · obtain ⟨⟨cmd, tgt, pl⟩, e⟩ := Option.ne_none_iff_exists'.mp hk
    rw [exec_send e, exec_send e]
    exact andThen_lockstep (sendFrame_lockstep hR cmd tgt pl h) fun _ => finish_lockstep hR _
  · exact absurd hi hk

end

/-! ## Arrivals and the step -/

/-- An operation that receives is a host operation, never a wire row (20_memory R60). -/
theorem wireFields_of_receives {i : Instr} (h : receives i) : wireFields i = none := by
  cases i <;> simp [receives, handshakeFields, queryFields, wireFields] at h ⊢

section
variable {R : State → State → Prop} {s t : State} (hR : LockstepArrivals R)
include hR

theorem arrive_lockstep (bs : List Byte) (h : R s t) : OutcomeRel R (arrive bs s) (arrive bs t) := by
  have hd : R (deliver bs s) (deliver bs t) := hR.arrival (.deliver bs) h
  unfold arrive
  rw [(hR.view h).phase, (hR.view h).req]
  split
  · split
    · rename_i i _ _
      rcases resumeReceive_cases i (deliver bs s) with ⟨hr, e⟩ | ⟨hn, e⟩ <;>
        rcases resumeReceive_cases i (deliver bs t) with ⟨hr', e'⟩ | ⟨hn', e'⟩
      · rw [e, e']
        exact exec_request_lockstep hR.toLockstep (wireFields_of_receives hr) hd
      · exact absurd hr hn'
      · exact absurd hr' hn
      · rw [e, e']
        exact .next hd
    · exact .next hd
  · exact .next hd

/-- Every instruction, from related states, has related outcomes. -/
theorem exec_lockstep (i : Instr) (h : R s t) : OutcomeRel R (exec i s) (exec i t) := by
  cases hw : wireFields i with
  | none => exact exec_request_lockstep hR.toLockstep hw h
  | some fields =>
    rw [exec_wire hw, exec_wire hw]
    exact arrive_lockstep hR _ h

/-- A step from related states has related outcomes. -/
theorem step_lockstep (h : R s t) : OutcomeRel R (step s) (step t) := by
  have hv := hR.view h
  unfold step
  rw [congrArg Params.ok hv.cfg, hv.line, congrArg decodeRequest hv.req]
  split
  · exact .refused _
  · split
    · split
      · exact exec_lockstep hR _ (hR.arrival (.line _) h)
      · exact arrive_lockstep hR _ (hR.arrival (.line []) h)
    · split
      · exact exec_lockstep hR _ h
      · exact .next h
      · exact .refused _
      · exact .next h

end

/-! ## The two parts of the state that no step looks at -/

/-- The parts of the state that nothing in a step looks at. -/
inductive Unseen where
  | scratch
  | resp

/-- The state without what the part holds. -/
def Unseen.erase : Unseen → State → State
  | .scratch, s => { s with scratch := [] }
  | .resp, s => { s with resp := none }

/-- Outcomes related by what `erase` leaves are the same once the erased part is forgotten. -/
theorem forget_eq_of_outcomeRel {erase : State → State} {o o' : Outcome}
    (h : OutcomeRel (fun s t => erase s = erase t) o o') : forget erase o = forget erase o' := by
  cases h with
  | next h => exact congrArg Host.Outcome.next h
  | fault r => rfl
  | refused r => rfl

/-- An update that does not look at the erased part keeps states alike that differ only there. -/
theorem erase_update {erase g : State → State} (hg : ∀ s, erase (g (erase s)) = erase (g s)) {s t : State}
    (h : erase s = erase t) : erase (g s) = erase (g t) := by
  rw [← hg s, h, hg t]

/-- States that differ in SCRATCH alone, or in RESP alone, go in lockstep: a read takes from SCRATCH only the cells it has
just filled (10_state R22), and RESP is only written. -/
theorem lockstep_erase (part : Unseen) : LockstepArrivals fun s t => part.erase s = part.erase t where
  view h := by
    cases part <;> exact
      ⟨(congrArg State.cfg h :), (congrArg State.rxbuf h :), (congrArg State.phase h :), (congrArg State.req h :),
        (congrArg State.tx h :), (congrArg State.line h :)⟩
  update hg _ _ h := erase_update (by cases part <;> cases hg <;> exact fun _ => rfl) h
  arrival hg _ _ h := erase_update (by cases part <;> cases hg <;> exact fun _ => rfl) h
  read {s t} h := by
    have hsize : s.cfg.scratchSize = t.cfg.scratchSize := by
      cases part <;> exact (congrArg (fun u : State => u.cfg.scratchSize) h :)
    have hrx : s.rx = t.rx := by cases part <;> exact (congrArg State.rx h :)
    have hfail (r : Resp) (later : List RxAnswer) :
        part.erase (finish r { s with rx := later, reads := s.reads + 1 }) =
          part.erase (finish r { t with rx := later, reads := t.reads + 1 }) :=
      erase_update (g := fun u => finish r { u with rx := later, reads := u.reads + 1 })
        (by cases part <;> exact fun _ => rfl) h
    rw [readTurn_eq s, readTurn_eq t, hsize, hrx]
    rcases t.rx with _ | ⟨_ | _ | _, later⟩
    · exact .waits h
    · exact .done () (erase_update (g := afterChunk _ _) (by cases part <;> exact fun _ => rfl) h)
    · exact .raised (hfail _ later)
    · exact .raised (hfail _ later)

/-- Settles O50: states that differ in SCRATCH alone go in lockstep. -/
theorem scratchNeverMatters : Obligations.ScratchNeverMatters := fun _ _ =>
  forget_eq_of_outcomeRel (erase := Unseen.scratch.erase) (step_lockstep (lockstep_erase .scratch) rfl)

/-- Settles O51: states that differ in RESP alone go in lockstep. -/
theorem responseNeverMatters : Obligations.ResponseNeverMatters := fun _ _ =>
  forget_eq_of_outcomeRel (erase := Unseen.resp.erase) (step_lockstep (lockstep_erase .resp) rfl)

/-! ## A long answer and its pieces -/

/-- The same state, or the same but for a long answer still in the stream of the one, whose two pieces are in the stream
of the other. -/
inductive CutAlike (piece others : List Byte) (later : List RxAnswer) : State → State → Prop
  | same (s : State) : CutAlike piece others later s s
  | cut (u : State) (left : List RxAnswer) (hl : piece.length = u.cfg.scratchSize) :
    CutAlike piece others later { u with rx := left ++ arriving (piece ++ others) ++ later }
      { u with rx := left ++ arriving piece ++ arriving others ++ later }

/-- A read that meets a long answer takes the piece that fits SCRATCH and leaves the others (log 9). -/
theorem readTurn_piece {piece others : List Byte} (later : List RxAnswer) (u : State) (hp : piece ≠ [])
    (hl : piece.length = u.cfg.scratchSize) :
    readTurn { u with rx := arriving (piece ++ others) ++ later } =
      .done () (afterChunk piece (arriving others ++ later) u) := by
  obtain ⟨b, bs, rfl⟩ := List.exists_cons_of_ne_nil hp
  rw [readTurn_eq]
  simp only [List.cons_append, arriving_cons, List.nil_append, ← hl]
  rw [← List.cons_append, List.take_left, List.drop_left]
  rfl

/-- A read keeps the two states alike, and makes them one where it meets the long answer. -/
theorem readTurn_cutAlike {piece others : List Byte} {later : List RxAnswer} (hp : piece ≠ []) {s t : State}
    (h : CutAlike piece others later s t) : StageRel (CutAlike piece others later) (readTurn s) (readTurn t) := by
  cases h with
  | same s => cases readTurn s with
    | done a u => exact .done a (.same u)
    | raised u => exact .raised (.same u)
    | waits u => exact .waits (.same u)
  | cut u left hl => cases left with
    | nil =>
      have long := readTurn_piece (others := others) later u hp hl
      have short := readTurn_chunk { u with rx := arriving piece ++ arriving others ++ later } piece
        (arriving others ++ later) hp (Nat.le_of_eq hl) (List.append_assoc _ _ _)
      simp only [List.nil_append, long, short]
      exact .done () (.same _)
    | cons a left =>
      rw [readTurn_eq, readTurn_eq]
      cases a with
      | data b bs =>
        have := CutAlike.cut (others := others) (later := later)
          (afterChunk ((b :: bs).take u.cfg.scratchSize) [] u)
          (arriving ((b :: bs).drop u.cfg.scratchSize) ++ left) hl
        exact .done () (by simpa [afterChunk] using this)
      | ended => exact .raised (.cut (finish { code := .streamEnded } { u with reads := u.reads + 1 }) left hl)
      | ioErr => exact .raised (.cut (finish { code := .ioRead } { u with reads := u.reads + 1 }) left hl)

theorem lockstep_cutAlike {piece : List Byte} (others : List Byte) (later : List RxAnswer) (hp : piece ≠ []) :
    Lockstep (CutAlike piece others later) where
  view h := by cases h <;> exact ⟨rfl, rfl, rfl, rfl, rfl, rfl⟩
  update {g} hg _ _ h := by cases h with
    | same => exact .same _
    | cut u left hl =>
      have := CutAlike.cut (others := others) (later := later) (g u) left (by rw [hl, hg.cfg_eq])
      simpa only [← hg.rx_comm] using this
  read := readTurn_cutAlike hp

/-- Settles O60: the stream with the long answer and the stream with its pieces go in lockstep, and a read that meets the
long answer leaves the same state of both. -/
theorem longAnswersAreReadInPieces : Obligations.LongAnswersAreReadInPieces := by
  intro i s before later piece others hi hp hl
  have h := exec_request_lockstep (lockstep_cutAlike others later hp) hi (.cut s before hl)
  generalize exec i { s with rx := before ++ arriving (piece ++ others) ++ later } = o,
    exec i { s with rx := before ++ arriving piece ++ arriving others ++ later } = o' at h ⊢
  cases h with
  | fault r => exact .inl rfl
  | refused r => exact .inl rfl
  | next h => cases h with
    | same t => exact .inl rfl
    | cut t left _ => exact .inr ⟨t, left, rfl, rfl⟩

end Sys2Proof.Machine
end

section
/-! PROOFS. Requests whose operation leaves fields unused, and the host's reads of a response (10_state R27 to R29). -/
namespace Sys2Proof.Machine
open Sys2Proof.Config

/-- Settles O11: the row of each op-code drops the fields its operation does not use. -/
theorem unusedRequestFieldsIgnored : Obligations.UnusedRequestFieldsIgnored := by
  intro cmd tgt pl rest hl
  constructor <;> intro op i h <;> simp only [List.mem_cons, Prod.mk.injEq, List.not_mem_nil, or_false] at h
  · rcases h with ⟨rfl, rfl⟩ | ⟨rfl, rfl⟩ | ⟨rfl, rfl⟩ | ⟨rfl, rfl⟩ | ⟨rfl, rfl⟩ | ⟨rfl, rfl⟩ | ⟨rfl, rfl⟩ | ⟨rfl, rfl⟩ |
      ⟨rfl, rfl⟩ | ⟨rfl, rfl⟩ | ⟨rfl, rfl⟩ | ⟨rfl, rfl⟩ <;> exact decodeRequest_requestBytes _ cmd tgt pl rest hl
  · rcases h with ⟨rfl, rfl⟩ | ⟨rfl, rfl⟩ | ⟨rfl, rfl⟩ <;> exact decodeRequest_requestBytes _ cmd tgt pl rest hl

/-- With no response present, every read is refused by name. -/
theorem hostRead_noResponse {s : State} (hs : s.resp = none) (field : RespField) :
    hostRead field s = .refused (.absentField field) := by
  simp [hostRead, hs]

/-- The host's read of a field answers the value where the response holds one, and is refused where it holds none. -/
theorem hostRead_field {s : State} {r : Resp} {field : RespField} {α : Type} {held : Option α} {value : α → RespValue}
    (hs : s.resp = some r) (hf : r.field field = held.map value) :
    (∀ v, held = some v → hostRead field s = .next (value v)) ∧
      (held = none → hostRead field s = .refused (.absentField field)) := by
  cases held <;> simp [hostRead, hs, hf]

/-- Settles O54: each field of the response by its own entry. -/
theorem absentFieldReadRefused : Obligations.AbsentFieldReadRefused := fun _ =>
  ⟨hostRead_noResponse, fun r hs =>
    ⟨(hostRead_field (held := some r.code.toByte) hs rfl).1 _ rfl, hostRead_field hs rfl, hostRead_field hs rfl,
      hostRead_field hs rfl, hostRead_field hs rfl, hostRead_field hs rfl, hostRead_field hs rfl⟩⟩

theorem code_toByte_lt (c : Code) : c.toByte.toNat < 0x0C := by
  cases c <;> decide

/-- Settles O55: the table of R29 line by line, and its bound for every code. -/
theorem responseCodeNumbers : Obligations.ResponseCodeNumbers :=
  ⟨rfl, rfl, rfl, rfl, rfl, rfl, rfl, rfl, rfl, rfl, rfl, rfl, code_toByte_lt⟩

end Sys2Proof.Machine
end

section
/-! PROOFS. What an answer of a decoder says: a request is a well-formed host operation (30_encoding R78, R79), and a frame
read off the line is the row's bytes (R70). -/
namespace Sys2Proof
open Config Machine

/-- Everything a request that decodes consists of: an assigned op-code, the fields, the whole payload. -/
theorem decodeRequest_instr {bs rest : List Byte} {i : Instr} (h : decodeRequest bs = .instr i rest) :
    ∃ op cmd tgt len pl make, bs = op :: cmd :: tgt :: len :: pl ∧ (op, make) ∈ requestRows ∧ len.toNat ≤ pl.length ∧
      i = make cmd tgt (pl.take len.toNat) ∧ rest = pl.drop len.toNat := by
  unfold decodeRequest at h
  split at h
  · cases h
  · rename_i op fields
    split at h
    · cases h
    · rename_i make hrow
      split at h
      · rename_i cmd tgt len pl
        split at h
        · cases h
        · cases h
          obtain ⟨before, after, hrows, _⟩ := List.lookup_eq_some_iff.mp hrow
          exact ⟨op, cmd, tgt, len, pl, make, rfl, by simp [hrows], by omega, rfl, rfl⟩
      · cases h

/-- Every row of the op-code map makes a host operation, well formed where the payload fits. -/
theorem requestRow_wellFormed {op : Byte} {make : Byte → Byte → List Byte → Instr} (h : (op, make) ∈ requestRows)
    (cmd tgt : Byte) (pl : List Byte) (hl : pl.length ≤ MAX_N) :
    wellFormed (make cmd tgt pl) = true ∧ wireFields (make cmd tgt pl) = none := by
  simp only [requestRows, List.mem_cons, Prod.mk.injEq, List.not_mem_nil, or_false] at h
  rcases h with ⟨-, rfl⟩ | ⟨-, rfl⟩ | ⟨-, rfl⟩ | ⟨-, rfl⟩ | ⟨-, rfl⟩ | ⟨-, rfl⟩ | ⟨-, rfl⟩ | ⟨-, rfl⟩ | ⟨-, rfl⟩ |
    ⟨-, rfl⟩ | ⟨-, rfl⟩ | ⟨-, rfl⟩ | ⟨-, rfl⟩ | ⟨-, rfl⟩ | ⟨-, rfl⟩ <;>
    simp [wellFormed, wireFields, payloadFits_iff, hl]

/-- A decoded request is a well-formed host operation, never a wire row (20_memory R60). -/
theorem wellFormed_of_decodeRequest {bs rest : List Byte} {i : Instr} (h : decodeRequest bs = .instr i rest) :
    wellFormed i = true ∧ wireFields i = none := by
  obtain ⟨op, cmd, tgt, len, pl, make, -, hrow, -, rfl, -⟩ := decodeRequest_instr h
  refine requestRow_wellFormed hrow cmd tgt _ ((List.length_take_le _ _).trans ?_)
  have := len.isLt
  unfold MAX_N
  omega

/-- The row that names a frame has that frame's fields. -/
theorem wireFields_wireRow (cmd tgt : Byte) (pl : List Byte) (c : Byte) :
    wireFields (wireRow cmd tgt pl c) = some (cmd, tgt, pl, c) := by
  have hmut {bcast addr : Instr} (hb : wireFields bcast = some (checked cmd TGT_BCAST pl))
      (ha : wireFields addr = some (cmd, tgt, pl, c)) :
      wireFields (mutatingRow cmd tgt pl c bcast addr) = some (cmd, tgt, pl, c) := by
    unfold mutatingRow
    split
    · rename_i hc
      obtain ⟨rfl, rfl⟩ := hc
      exact hb
    · exact ha
  unfold wireRow
  split_ifs with hack h1 h2 h3 h4 h5 h6
  · split
    · simp [wireFields, hack]
    · split_ifs with hA <;> simp [wireFields, hack, hA]
  · obtain ⟨rfl, rfl⟩ := h1
    exact hmut rfl rfl
  · obtain ⟨rfl, rfl⟩ := h2
    exact hmut rfl rfl
  · obtain ⟨rfl, rfl⟩ := h3
    exact hmut rfl rfl
  · obtain ⟨rfl, rfl⟩ := h4
    exact hmut rfl rfl
  · simp [wireFields, h5]
  · simp [wireFields, h6]
  · rfl

/-- A frame read off the line: its bytes, and what follows them. -/
theorem decodeWire_instr {bs rest : List Byte} {i : Instr} (h : decodeWire bs = .instr i rest) :
    ∃ cmd tgt pl c, wireFields i = some (cmd, tgt, pl, c) ∧ bs = frameBytes cmd tgt pl c ++ rest := by
  unfold decodeWire at h
  split at h
  · cases h
  · split_ifs at h with hh
    rw [not_not] at hh
    split at h
    · rename_i cmd tgt n body
      split at h
      · cases h
      · rename_i c more hdrop
        cases h
        have hn : n.toNat < body.length := by
          rw [← List.drop_eq_nil_iff.not.trans Nat.not_le, hdrop]
          exact List.cons_ne_nil _ _
        refine ⟨cmd, tgt, body.take n.toNat, c, wireFields_wireRow .., ?_⟩
        have hlen : lenByte (body.take n.toNat) = n := by
          rw [lenByte, List.length_take_of_le hn.le, BitVec.ofNat_toNat, BitVec.setWidth_eq]
        rw [frameBytes, hlen, hh]
        simp only [List.cons_append, List.nil_append, List.append_assoc]
        rw [← hdrop, List.take_append_drop]
    · cases h

end Sys2Proof
end

section
/-! PROOFS. A step by what stands on the line and on the request port (20_memory R51, R52, R57). -/
namespace Sys2Proof.Machine
open Sys2Proof.Config

/-- With a whole frame on the line, a step runs its row. -/
theorem step_frame {s : State} {i : Instr} {rest : List Byte} (hok : s.cfg.ok = true)
    (hw : decodeWire s.line = .instr i rest) : step s = exec i { s with line := rest } := by
  have hline : s.line ≠ [] := by
    intro h
    simp [h, decodeWire] at hw
  simp [step, hok, hline, hw]

/-- Other bytes on the line arrive as they are. -/
theorem step_bytes {s : State} {r : Reject} (hok : s.cfg.ok = true) (hline : s.line ≠ [])
    (hw : decodeWire s.line = .rejected r) : step s = arrive s.line { s with line := [] } := by
  simp [step, hok, hline, hw]

/-- With nothing on the line, a step runs the front request. -/
theorem step_request {s : State} {i : Instr} {rest : List Byte} (hok : s.cfg.ok = true) (hline : s.line = [])
    (hreq : decodeRequest s.req = .instr i rest) : step s = exec i s := by
  simp [step, hok, hline, hreq]

/-- Settles O5: the two ways bytes leave the line, and the two things an arrival can do. -/
theorem stepTakesArrivingBytes : Obligations.StepTakesArrivingBytes := by
  refine ⟨fun s hok hline => ⟨fun i rest => step_frame hok, fun r => step_bytes hok hline⟩, fun bs s => ?_⟩
  rcases arrive_cases bs s with ⟨j, rest, hp, hreq, hj, e⟩ | ⟨hno, e⟩
  · refine ⟨fun h => absurd hp h, fun _ => ⟨fun j' rest' hreq' _ => ?_, fun h => absurd hj (h j rest hreq)⟩⟩
    cases hreq.symm.trans hreq'
    exact e
  · exact ⟨fun _ => e, fun hp => ⟨fun j rest hreq hj => absurd hj (hno hp j rest hreq), fun _ => e⟩⟩

/-- The state from which a step's operation goes on: the step's own, or, with bytes on the line, the one in which a first
part of them has arrived. -/
inductive Arrived (s : State) : State → Prop
  | nothing : Arrived s s
  | bytes (bs rest : List Byte) (h : s.line = bs ++ rest) : Arrived s (deliver bs { s with line := rest })

/-- Everything a step can do that has a next state: bytes arrive or not, and then the front request's operation goes on or
nothing more happens. -/
theorem step_next {s t : State} (h : step s = .next t) :
    s.cfg.ok = true ∧ ∃ u, Arrived s u ∧
      (t = u ∨ ∃ i rest, decodeRequest u.req = .instr i rest ∧ exec i u = .next t) := by
  have harrive {bs rest : List Byte} (hl : s.line = bs ++ rest) (h : arrive bs { s with line := rest } = .next t) :
      ∃ u, Arrived s u ∧ (t = u ∨ ∃ i rest, decodeRequest u.req = .instr i rest ∧ exec i u = .next t) := by
    refine ⟨_, .bytes bs rest hl, ?_⟩
    rcases arrive_cases bs { s with line := rest } with ⟨j, more, _, hreq, _, e⟩ | ⟨_, e⟩ <;> rw [e] at h
    · exact .inr ⟨j, more, hreq, h⟩
    · cases h
      exact .inl rfl
  unfold step at h
  split_ifs at h with hok hline
  all_goals refine ⟨by simpa using hok, ?_⟩
  · split at h
    · rename_i i rest hw
      obtain ⟨cmd, tgt, pl, c, hi, hl⟩ := decodeWire_instr hw
      rw [exec_wire hi] at h
      exact harrive hl h
    · exact harrive (List.append_nil _).symm h
  · refine ⟨s, .nothing, ?_⟩
    split at h
    · exact .inr ⟨_, _, ‹_›, h⟩
    · cases h
      exact .inl rfl
    · cases h
    · cases h
      exact .inl rfl

end Sys2Proof.Machine
end

section
/-! PROOFS. Everything a host operation can do that has a next state: what it writes, what it receives, and the response
it ends with (20_memory R53, R57, 10_state R25, R28). -/
namespace Sys2Proof.Machine
open Sys2Proof.Config

/-! ## Responses -/

/-- The answer of an operation writes PHASE itself. -/
@[simp] theorem finish_setPhase (r : Resp) (p : Phase) (s : State) : finish r (setPhase p s) = finish r s := rfl

/-- A receive's error has its code alone (60 R200). -/
theorem respSound_recvCode {code : Code} (h : code ∈ recvCodes) : respSound { code := code } = true := by
  simp only [recvCodes, List.mem_cons, List.not_mem_nil, or_false] at h
  rcases h with rfl | rfl | rfl | rfl <;> rfl

/-- A failed write's response has a count of at most a frame's length. -/
theorem respSound_ioWrite {n : Nat} (h : n ≤ MAX_FRAME) :
    respSound { code := .ioWrite, written := some (BitVec.ofNat 9 n) } = true := by
  simp only [respSound, Option.any_some, Bool.and_eq_true, decide_eq_true_eq, and_true, BitVec.toNat_ofNat]
  exact (Nat.mod_le _ _).trans h

/-- ENCODE's response has a frame's bytes. -/
theorem respSound_encode (cmd tgt : Byte) {pl : List Byte} (h : pl.length ≤ MAX_N) :
    respSound { code := .ok, bytes := some (enc cmd tgt pl) } = true := by
  have hl : pl.length + 5 ≤ MAX_FRAME := by
    simp only [MAX_N, maxFrame_eq] at h ⊢
    omega
  simp [respSound, hl]

section
variable {f : Frame} (hf : frameSound f = true)
include hf

/-- The response of DECODE and RECEIVE has the length of the frame it carries. -/
theorem respSound_frame_consumed :
    respSound { code := .ok, frame := some f, consumed := some (BitVec.ofNat 9 (frameLen f.n.toNat)) } = true := by
  simp [respSound, hf]

theorem respSound_frame : respSound { code := .ok, frame := some f } = true := by
  simp [respSound, hf]

theorem respSound_unexpected : respSound { code := .unexpectedResponse, frame := some f } = true := by
  simp [respSound, hf]

theorem respSound_nak : respSound { code := .nak, frame := some f } = true := by
  simp [respSound, hf]

theorem respSound_status (v : BitVec 1) : respSound { code := .ok, frame := some f, status := some v } = true := by
  simp [respSound, hf]

theorem respSound_invalidStatus (b : Byte) :
    respSound { code := .invalidStatus, frame := some f, badByte := some b } = true := by
  simp [respSound, hf]

end

/-! ## How an operation goes -/

/-- The state after the write of an operation: as before where it has none to make now, else with the TX port's answer used
and a first part of its frame on the wire (20_memory R53, R54 (b)). -/
inductive AfterWrite (i : Instr) (s : State) : State → Prop
  | none : AfterWrite i s s
  | written {a : TxAnswer} {later : List TxAnswer} {p : List Byte} (htx : s.tx = a :: later) (hp : p <+: sentBytes i) :
    AfterWrite i s { s with phase := .tx, tx := later, wire := s.wire ++ p }

/-- The state in which an operation answers, PHASE aside: the one after its write, with the front frame taken (DECODE), or
with what a receive leaves that found a frame. -/
inductive BeforeAnswer (w : State) : State → Prop
  | asIs : BeforeAnswer w w
  | decoded (c : Nat) : BeforeAnswer w (fifoDrop c w)
  | received {r : Frame × Nat} {u : State} (h : receiveFrame w = .done r u) : BeforeAnswer w u

/-- The next states of a host operation: blocked on its write; ended by a sound response of its own; ended by an error of
its receive; blocked on its receive. -/
inductive Runs (i : Instr) (s : State) : State → Prop
  | blockedTx (htx : s.tx = []) : Runs i s (setPhase .tx s)
  | answered {w u : State} {r : Resp} (hw : AfterWrite i s w) (hu : BeforeAnswer w u) (hr : respSound r = true) :
    Runs i s (finish r u)
  | failed {w t : State} (hw : AfterWrite i s w) (h : receiveFrame w = .raised t) : Runs i s t
  | blockedRx {w t : State} (hw : AfterWrite i s w) (h : receiveFrame w = .waits t) : Runs i s t

/-- The frame a receive hands over is sound. -/
theorem frameSound_of_receiveFrame {s u : State} {r : Frame × Nat} (h : receiveFrame s = .done r u) :
    frameSound r.1 = true ∧ r.2 = frameLen r.1.n.toNat := by
  have hends := receiveFrame_ends s
  rw [h] at hends
  exact ⟨hends.1, hends.2.1⟩

/-- How the wait for a reply ends: as its receive does, or, with the received frame, in the error of a check or with the
frame handed on; PHASE aside. -/
inductive ReplyEnds (w : State) : Stage Frame → Prop
  | failed {t : State} (h : receiveFrame w = .raised t) : ReplyEnds w (.raised t)
  | blocked {t : State} (h : receiveFrame w = .waits t) : ReplyEnds w (.waits t)
  | rejected {r : Frame × Nat} {u : State} {resp : Resp} (h : receiveFrame w = .done r u)
    (hr : respSound resp = true) : ReplyEnds w (.raised (finish resp u))
  | accepted {r : Frame × Nat} {u v : State} (h : receiveFrame w = .done r u)
    (hv : ∀ resp, finish resp v = finish resp u) : ReplyEnds w (.done r.1 v)

theorem awaitAck_replyEnds (w : State) : ReplyEnds w (awaitAck w) := by
  unfold awaitAck
  cases h : receiveFrame w with
  | raised t => exact .failed h
  | waits t => exact .blocked h
  | done r u =>
    have hf := (frameSound_of_receiveFrame h).1
    dsimp only
    cases ackVerdict r.1 with
    | unexpected => exact .rejected (u := u) h (respSound_unexpected hf)
    | negative => exact .rejected (u := u) h (respSound_nak hf)
    | positive => exact .accepted h fun _ => rfl

theorem queryReply_replyEnds (w : State) : ReplyEnds w (queryReply w) := by
  unfold queryReply
  split
  · exact awaitAck_replyEnds w
  · cases h : receiveFrame w with
    | raised t => exact .failed h
    | waits t => exact .blocked h
    | done r u => exact .accepted h fun _ => rfl

section
variable {i : Instr} {s t : State}

/-- An operation that answers a reply's frame with a sound response runs as `Runs` says. -/
theorem andThen_reply_runs {w : State} {x : Stage Frame} {answer : Frame → State → Outcome} (hw : AfterWrite i s w)
    (hx : ReplyEnds w x)
    (hanswer : ∀ f v, frameSound f = true → answer f v = .next t → ∃ r, respSound r = true ∧ t = finish r v)
    (h : x.andThen answer = .next t) : Runs i s t := by
  cases hx with
  | failed hr => cases h; exact .failed hw hr
  | blocked hr => cases h; exact .blockedRx hw hr
  | rejected hr hs => cases h; exact .answered hw (.received hr) hs
  | accepted hr hv =>
    obtain ⟨resp, hs, rfl⟩ := hanswer _ _ (frameSound_of_receiveFrame hr).1 h
    rw [hv]
    exact .answered hw (.received hr) hs

/-- The status decode of a sound frame answers with a sound response, where it does not stop. -/
theorem statusReply_next {statusOf : Byte → Option (BitVec 1)} {f : Frame} {v : State} (hf : frameSound f = true)
    (h : statusReply statusOf f v = .next t) : ∃ r, respSound r = true ∧ t = finish r v := by
  unfold statusReply at h
  split at h
  · cases h
  · split at h <;> cases h
    · exact ⟨_, respSound_invalidStatus hf _, rfl⟩
    · exact ⟨_, respSound_status hf _, rfl⟩

/-- An operation that begins with its write. -/
theorem sendFrame_runs {cmd tgt : Byte} {pl : List Byte} {rest : State → Outcome} (hsent : sentBytes i = enc cmd tgt pl)
    (hl : (sentBytes i).length ≤ MAX_FRAME) (hrest : ∀ w, AfterWrite i s w → rest w = .next t → Runs i s t)
    (h : (sendFrame cmd tgt pl s).andThen (fun _ => rest) = .next t) : Runs i s t := by
  rcases htx : s.tx with _ | ⟨_ | p, later⟩
  · rw [sendFrame_noAnswer _ _ _ _ htx] at h
    cases h
    exact .blockedTx htx
  · rw [sendFrame_ok _ _ _ _ _ htx, ← hsent] at h
    exact hrest _ (.written htx (List.prefix_refl _)) h
  · rw [sendFrame_ioErr _ _ _ _ _ _ htx, ← hsent] at h
    cases h
    rw [hsent, enc_length] at hl
    exact .answered (.written htx (List.take_prefix _ _)) .asIs (respSound_ioWrite ((Nat.min_le_right _ _).trans hl))

/-- An operation that writes and then awaits a reply, or goes on with the reply. -/
theorem sendThen_runs {cmd tgt : Byte} {pl : List Byte} {reply : State → Outcome} (hsent : sentBytes i = enc cmd tgt pl)
    (hl : (sentBytes i).length ≤ MAX_FRAME) (hreply : ∀ w, AfterWrite i s w → reply w = .next t → Runs i s t)
    (h : sendThen cmd tgt pl reply s = .next t) : Runs i s t := by
  unfold sendThen at h
  split at h
  · exact hreply s .none h
  · exact sendFrame_runs hsent hl hreply h

theorem execDecode_runs (h : execDecode s = .next t) : Runs i s t := by
  rw [execDecode_eq] at h
  split at h <;> cases h
  · rename_i f c hd
    obtain ⟨hf, rfl, -⟩ := dec_frame_sound hd
    exact .answered (u := fifoDrop _ s) .none (.decoded _) (respSound_frame_consumed hf)
  · exact .answered (u := s) .none .asIs rfl
  · exact .answered (u := s) .none .asIs rfl
  · exact .answered (u := s) .none .asIs rfl

theorem execReceive_runs (h : execReceive s = .next t) : Runs i s t := by
  unfold execReceive at h
  cases hr : receiveFrame s with
  | raised u => rw [hr] at h; cases h; exact .failed .none hr
  | waits u => rw [hr] at h; cases h; exact .blockedRx .none hr
  | done r u =>
    rw [hr] at h
    cases h
    obtain ⟨hf, hc⟩ := frameSound_of_receiveFrame hr
    rw [hc]
    exact .answered .none (.received hr) (respSound_frame_consumed hf)

end

/-- A well-formed operation's frame is at most the longest frame. -/
theorem sentBytes_length_le {i : Instr} (h : wellFormed i = true) : (sentBytes i).length ≤ MAX_FRAME := by
  rw [maxFrame_eq]
  cases i <;> simp [sentBytes, handshakeFields, queryFields, sendFields, wellFormed, payloadFits_iff, MAX_N] at h ⊢ <;>
    omega

/-- Every next state of a well-formed host operation is one that `Runs` names. -/
theorem exec_runs {i : Instr} {s t : State} (hi : wireFields i = none) (hwf : wellFormed i = true)
    (h : exec i s = .next t) : Runs i s t := by
  have hl := sentBytes_length_le hwf
  rcases instr_kinds i with ⟨cmd, tgt, pl, rfl⟩ | rfl | rfl | hk | hk | hk | hk
  · cases h
    exact .answered (u := s) .none .asIs (respSound_encode cmd tgt ((payloadFits_iff pl).mp hwf))
  · exact execDecode_runs h
  · exact execReceive_runs h
  · obtain ⟨⟨cmd, tgt, pl⟩, e⟩ := Option.ne_none_iff_exists'.mp hk
    rw [exec_handshake e] at h
    refine sendThen_runs (sentBytes_handshake e) hl (fun w hw hreply => ?_) h
    refine andThen_reply_runs hw (awaitAck_replyEnds w) (fun f v hf hv => ?_) hreply
    cases hv
    exact ⟨_, respSound_frame hf, rfl⟩
  · obtain ⟨⟨cmd, tgt, statusOf⟩, e⟩ := Option.ne_none_iff_exists'.mp hk
    rw [exec_query e] at h
    refine sendThen_runs (sentBytes_query e) hl (fun w hw hreply => ?_) h
    exact andThen_reply_runs hw (queryReply_replyEnds w) (fun f v hf hv => statusReply_next hf hv) hreply
  · obtain ⟨⟨cmd, tgt, pl⟩, e⟩ := Option.ne_none_iff_exists'.mp hk
    rw [exec_send e] at h
    refine sendFrame_runs (sentBytes_send e) hl (fun w hw hanswer => ?_) h
    cases hanswer
    exact .answered hw .asIs rfl
  · exact absurd hi hk

end Sys2Proof.Machine
end

section
/-! PROOFS. What the next states of an operation have in common: the invariant (20_memory R62, 10_state R21 to R33), the
order of the bytes (20_memory R51, R54), the wire (R53) and the request port (R57). -/
namespace Sys2Proof.Machine
open Sys2Proof.Config

/-! ## The invariant -/

/-- The invariant's part that does not speak of PHASE and RESP. -/
structure InBounds (s : State) : Prop where
  config : s.cfg.ok = true
  rxbuf : s.rxbuf.length ≤ MAX_FRAME - 1 + s.cfg.scratchSize
  scratch : s.scratch.length = s.cfg.scratchSize
  readBound : s.reads ≤ READ_BOUND

theorem MachineInv.inBounds {s : State} (h : MachineInv s) : InBounds s := ⟨h.config, h.rxbuf, h.scratch, h.readBound⟩

/-- A state in bounds in which no read is outstanding meets the invariant. -/
theorem InBounds.machineInv {s : State} (h : InBounds s) (hp : s.phase = .idle ∨ s.phase = .tx)
    (hr : ∀ r, s.resp = some r → respSound r = true) : MachineInv s where
  config := h.config
  phase := by rcases hp with hp | hp <;> rw [hp] <;> rfl
  rxbuf := h.rxbuf
  scratch := h.scratch
  waiting hw := by simp [hw] at hp
  counted hw := by simp [hw] at hp
  readBound := h.readBound
  response := hr

theorem MachineInv.afterWrite {i : Instr} {s w : State} (h : MachineInv s) (hw : AfterWrite i s w) : MachineInv w := by
  cases hw with
  | none => exact h
  | written => exact InBounds.machineInv ⟨h.config, h.rxbuf, h.scratch, h.readBound⟩ (.inr rfl) h.response

theorem MachineInv.bounded_receiveFrame {w : State} (h : MachineInv w) : Bounded w (receiveFrame w) := by
  have hok : 1 ≤ w.cfg.scratchSize := by
    have := h.config
    simp only [Params.ok, Bool.and_eq_true, decide_eq_true_eq] at this
    exact this.1
  exact receiveFrame_bounded w hok h.rxbuf h.scratch h.waiting h.counted

theorem MachineInv.inBounds_receiveFrame {w : State} (h : MachineInv w) : InBounds (receiveFrame w).state := by
  obtain ⟨hbuf, hscratch, hreads, -⟩ := h.bounded_receiveFrame
  have hcfg := (receiveFrame_keeps w).cfg
  exact ⟨by rw [hcfg, h.config], by rwa [hcfg], by rwa [hcfg], hreads⟩

theorem MachineInv.beforeAnswer {w u : State} (h : MachineInv w) (hu : BeforeAnswer w u) : InBounds u := by
  cases hu with
  | asIs => exact h.inBounds
  | decoded c =>
    have hdrop : (w.rxbuf.drop c).length ≤ w.rxbuf.length := by simp
    exact ⟨h.config, hdrop.trans h.rxbuf, h.scratch, h.readBound⟩
  | received hr => simpa only [hr, Stage.state_done] using h.inBounds_receiveFrame

/-- Where its receive fails, the operation ends in a state that meets the invariant. -/
theorem MachineInv.receive_raised {w t : State} (h : MachineInv w) (hr : receiveFrame w = .raised t) : MachineInv t := by
  have hbounds := h.inBounds_receiveFrame
  have hends := receiveFrame_ends w
  rw [hr] at hbounds hends
  obtain ⟨hp, -, code, hcode, hresp⟩ := hends
  refine InBounds.machineInv hbounds (.inl hp) fun r hsome => ?_
  cases hresp.symm.trans hsome
  exact respSound_recvCode hcode

/-- Where its receive waits, an incomplete frame is held and each read counted brought a byte (41 R128, R130). -/
theorem MachineInv.receive_waits {w t : State} (h : MachineInv w) (hr : receiveFrame w = .waits t) : MachineInv t := by
  have hbounds := h.inBounds_receiveFrame
  have hwait := h.bounded_receiveFrame
  have hends := receiveFrame_ends w
  rw [hr] at hbounds hwait hends
  obtain ⟨hcfg, hbuf, hscratch, hreads⟩ := hbounds
  obtain ⟨-, -, -, hdec, hcount, -⟩ := hwait
  obtain ⟨hp, -, hresp⟩ := hends
  exact
    { config := hcfg, phase := by rw [hp]; rfl, rxbuf := hbuf, scratch := hscratch, waiting := fun _ => hdec,
      counted := fun _ => hcount, readBound := hreads, response := fun r hsome => h.response r (hresp ▸ hsome) }

/-- Every next state of an operation meets the invariant. -/
theorem MachineInv.runs {i : Instr} {s t : State} (h : MachineInv s) (hrun : Runs i s t) : MachineInv t := by
  cases hrun with
  | blockedTx => exact InBounds.machineInv ⟨h.config, h.rxbuf, h.scratch, h.readBound⟩ (.inr rfl) h.response
  | answered hw hu hr =>
    obtain ⟨hcfg, hbuf, hscratch, hreads⟩ := (h.afterWrite hw).beforeAnswer hu
    exact InBounds.machineInv ⟨hcfg, hbuf, hscratch, hreads⟩ (.inl rfl) fun _ hsome => by cases hsome; exact hr
  | failed hw hr => exact (h.afterWrite hw).receive_raised hr
  | blockedRx hw hr => exact (h.afterWrite hw).receive_waits hr

/-- An arrival changes nothing the invariant speaks of. -/
theorem MachineInv.arrived {s u : State} (h : MachineInv s) (hu : Arrived s u) : MachineInv u := by
  cases hu with
  | nothing => exact h
  | bytes => exact ⟨h.config, h.phase, h.rxbuf, h.scratch, h.waiting, h.counted, h.readBound, h.response⟩

/-- Everything a step can do that has a next state, the operation's next states named. -/
theorem step_runs {s t : State} (h : step s = .next t) :
    ∃ u, Arrived s u ∧ (t = u ∨ ∃ i rest, decodeRequest u.req = .instr i rest ∧ Runs i u t) := by
  obtain ⟨-, u, hu, rfl | ⟨i, rest, hreq, h⟩⟩ := step_next h
  · exact ⟨_, hu, .inl rfl⟩
  · obtain ⟨hwf, hi⟩ := wellFormed_of_decodeRequest hreq
    exact ⟨u, hu, .inr ⟨i, rest, hreq, exec_runs hi hwf h⟩⟩

/-- Settles O3: an arrival keeps the invariant, and so does every way an operation goes. -/
theorem stepKeepsInvariant : Obligations.StepKeepsInvariant := by
  intro s t hinv h
  obtain ⟨u, hu, rfl | ⟨i, rest, -, hrun⟩⟩ := step_runs h
  · exact hinv.arrived hu
  · exact (hinv.arrived hu).runs hrun

/-! ## The bytes and the wire -/

theorem BeforeAnswer.keeps {w u : State} (hu : BeforeAnswer w u) : Keeps w u := by
  cases hu with
  | asIs => exact Keeps.refl w
  | decoded c =>
    refine ⟨rfl, rfl, rfl, rfl, w.rxbuf.take c, ?_⟩
    simp [← List.append_assoc]
  | received hr => simpa only [hr, Stage.state_done] using receiveFrame_keeps w

/-- After its write, an operation leaves the TX port, the wire and the line alone, and takes bytes from the front only. -/
theorem Runs.keeps {i : Instr} {s t : State} (h : Runs i s t) : ∃ w, AfterWrite i s w ∧ Keeps w t := by
  cases h with
  | blockedTx => exact ⟨s, .none, rfl, rfl, rfl, rfl, List.suffix_refl _⟩
  | answered hw hu => exact ⟨_, hw, hu.keeps.trans ⟨rfl, rfl, rfl, rfl, List.suffix_refl _⟩⟩
  | @failed w _ hw hr => exact ⟨w, hw, by simpa only [hr, Stage.state_raised] using receiveFrame_keeps w⟩
  | @blockedRx w _ hw hr => exact ⟨w, hw, by simpa only [hr, Stage.state_waits] using receiveFrame_keeps w⟩

/-- The bytes the block holds and those still to come, in order: RXBUF, the stream, the line (20_memory R51). -/
def bytesToCome (s : State) : List Byte := s.rxbuf ++ streamBytes s.rx ++ s.line

theorem Keeps.bytesToCome_suffix {s t : State} (h : Keeps s t) : bytesToCome t <:+ bytesToCome s := by
  obtain ⟨taken, htaken⟩ := h.bytes
  exact ⟨taken, by rw [bytesToCome, bytesToCome, h.line, ← htaken, List.append_assoc taken]⟩

theorem AfterWrite.bytesToCome_eq {i : Instr} {s w : State} (h : AfterWrite i s w) : bytesToCome w = bytesToCome s := by
  cases h <;> rfl

/-- Bytes that arrive go from the front of the line to the back of the stream. -/
theorem Arrived.bytesToCome_eq {s u : State} (h : Arrived s u) : bytesToCome u = bytesToCome s := by
  cases h with
  | nothing => rfl
  | bytes bs rest hline => simp [bytesToCome, hline]

/-- Settles O52: an arrival keeps the bytes to come, and an operation takes some from their front. -/
theorem noByteRepeatedOrReordered : Obligations.NoByteRepeatedOrReordered := by
  intro s t h
  change bytesToCome t <:+ bytesToCome s
  obtain ⟨u, hu, hstep⟩ := step_runs h
  rw [← hu.bytesToCome_eq]
  rcases hstep with rfl | ⟨i, rest, -, hrun⟩
  · exact List.suffix_refl _
  · obtain ⟨w, hw, hkeeps⟩ := hrun.keeps
    exact hw.bytesToCome_eq ▸ hkeeps.bytesToCome_suffix

theorem AfterWrite.wire_eq {i : Instr} {s w : State} (h : AfterWrite i s w) :
    w.wire = s.wire ∨ ∃ p, p <+: sentBytes i ∧ w.wire = s.wire ++ p := by
  cases h with
  | none => exact .inl rfl
  | written _ hp => exact .inr ⟨_, hp, rfl⟩

/-- An arrival touches neither the wire nor the request port. -/
theorem Arrived.wire_req {s u : State} (h : Arrived s u) : u.wire = s.wire ∧ u.req = s.req := by
  cases h <;> exact ⟨rfl, rfl⟩

/-- Settles O53: only the write of the front request's operation adds to the wire. -/
theorem wireGrowsByRequestFrame : Obligations.WireGrowsByRequestFrame := by
  intro s t h
  obtain ⟨u, hu, hstep⟩ := step_runs h
  obtain ⟨hwire, hreq⟩ := hu.wire_req
  rw [← hwire, ← hreq]
  rcases hstep with rfl | ⟨i, rest, hdec, hrun⟩
  · exact .inl rfl
  · obtain ⟨w, hw, hkeeps⟩ := hrun.keeps
    rw [hkeeps.wire]
    exact hw.wire_eq.imp_right fun ⟨p, hp, e⟩ => ⟨i, rest, p, hdec, hp, e⟩

/-! ## The request port and the response -/

theorem AfterWrite.req_resp {i : Instr} {s w : State} (h : AfterWrite i s w) : w.req = s.req ∧ w.resp = s.resp := by
  cases h <;> exact ⟨rfl, rfl⟩

theorem BeforeAnswer.req_eq {w u : State} (h : BeforeAnswer w u) : u.req = w.req := by
  cases h with
  | asIs => rfl
  | decoded => rfl
  | received hr =>
    have hends := receiveFrame_ends w
    rw [hr] at hends
    obtain ⟨-, -, -, hreq, -⟩ := hends
    exact hreq

/-- An operation ends with a response and its request off the port, or blocks with both as before. -/
theorem Runs.ends_or_blocks {i : Instr} {s t : State} (h : Runs i s t) :
    (t.phase = .idle ∧ t.req = dropRequest s.req ∧ t.resp ≠ none) ∨
      ((t.phase = .tx ∨ t.phase = .rxWait) ∧ t.req = s.req ∧ t.resp = s.resp) := by
  cases h with
  | blockedTx => exact .inr ⟨.inl rfl, rfl, rfl⟩
  | answered hw hu => exact .inl ⟨rfl, by rw [finish_req, hu.req_eq, hw.req_resp.1], Option.some_ne_none _⟩
  | @failed w _ hw hr =>
    have hends := receiveFrame_ends w
    rw [hr] at hends
    obtain ⟨hp, hreq, code, -, hresp⟩ := hends
    exact .inl ⟨hp, by rw [hreq, hw.req_resp.1], by simp [hresp]⟩
  | @blockedRx w _ hw hr =>
    have hends := receiveFrame_ends w
    rw [hr] at hends
    obtain ⟨hp, hreq, hresp⟩ := hends
    exact .inr ⟨.inr hp, hreq.trans hw.req_resp.1, hresp.trans hw.req_resp.2⟩

/-- Settles O4: the step is the front request's operation, and that ends or blocks. -/
theorem stepRunsPendingRequest : Obligations.StepRunsPendingRequest := by
  intro s i rest hok hline hreq
  have hdrop : dropRequest s.req = rest := dropRequest_of_decodeRequest hreq
  refine ⟨step_request hok hline hreq, hdrop, fun t h => ?_⟩
  obtain ⟨hwf, hi⟩ := wellFormed_of_decodeRequest hreq
  simpa only [hdrop] using (exec_runs hi hwf h).ends_or_blocks

end Sys2Proof.Machine
end

section
/-! PROOFS. The encodings (30_encoding.md): what decoding an encoding gives (R70, R78), which op-codes are assigned (R79,
R80), and the frames and the expansions of the dispatcher's operations (R83, R84). -/
namespace Sys2Proof.Machine
open Sys2Proof.Config

/-! ## Decoding and encoding -/

/-- Settles O9: the round trip of each row. -/
theorem decodeInvertsEncode : Obligations.DecodeInvertsEncode := by
  intro i rest h
  revert rest
  cases i with
  | encode cmd tgt pl => exact Laws.RoundTrip.encode cmd tgt pl h
  | decode => exact Laws.RoundTrip.decode h
  | send cmd tgt pl => exact Laws.RoundTrip.send cmd tgt pl h
  | receive => exact Laws.RoundTrip.receive h
  | sendAck cmd tgt pl => exact Laws.RoundTrip.sendAck cmd tgt pl h
  | aPowerOn t => exact Laws.RoundTrip.aPowerOn t h
  | aPowerOff t => exact Laws.RoundTrip.aPowerOff t h
  | aPanelOn t => exact Laws.RoundTrip.aPanelOn t h
  | aPanelOff t => exact Laws.RoundTrip.aPanelOff t h
  | aQueryPower t => exact Laws.RoundTrip.aQueryPower t h
  | aQueryPanel t => exact Laws.RoundTrip.aQueryPanel t h
  | bPowerOn => exact Laws.RoundTrip.bPowerOn h
  | bPowerOff => exact Laws.RoundTrip.bPowerOff h
  | bPanelOn => exact Laws.RoundTrip.bPanelOn h
  | bPanelOff => exact Laws.RoundTrip.bPanelOff h
  | frame cmd tgt pl c => exact Laws.RoundTrip.frame cmd tgt pl c h
  | frAPowerOn t c => exact Laws.RoundTrip.frAPowerOn t c h
  | frAPowerOff t c => exact Laws.RoundTrip.frAPowerOff t c h
  | frAPanelOn t c => exact Laws.RoundTrip.frAPanelOn t c h
  | frAPanelOff t c => exact Laws.RoundTrip.frAPanelOff t c h
  | frPwrGet t c => exact Laws.RoundTrip.frPwrGet t c h
  | frPnlGet t c => exact Laws.RoundTrip.frPnlGet t c h
  | frBPowerOn => exact Laws.RoundTrip.frBPowerOn h
  | frBPowerOff => exact Laws.RoundTrip.frBPowerOff h
  | frBPanelOn => exact Laws.RoundTrip.frBPanelOn h
  | frBPanelOff => exact Laws.RoundTrip.frBPanelOff h
  | acknak t pl c => exact Laws.RoundTrip.acknak t pl c h
  | ack t more c => exact Laws.RoundTrip.ack t more c h

/-- Settles O10: the row read has the fields of the frame read, and its encoding is the frame of its fields. -/
theorem wireDecodeLosesNoBit : Obligations.WireDecodeLosesNoBit := by
  intro bs i rest h
  obtain ⟨cmd, tgt, pl, c, hi, hbs⟩ := decodeWire_instr h
  exact ⟨by rw [encode_wire hi, hbs], by simp [hi]⟩

/-- Settles O12: a request that decodes is a row of the op-code map on its four fields, and leaves what follows its
payload. -/
theorem decodedRequestsWellFormed : Obligations.DecodedRequestsWellFormed := by
  intro bs i rest h
  obtain ⟨hwf, hi⟩ := wellFormed_of_decodeRequest h
  obtain ⟨op, cmd, tgt, len, pl, make, rfl, -, hlen, -, rfl⟩ := decodeRequest_instr h
  refine ⟨hwf, hi, ?_⟩
  have hpl : payloadLen (op :: cmd :: tgt :: len :: pl) = len.toNat := rfl
  simp only [hpl, PREFIX_LEN, List.length_cons, List.length_drop]
  omega

/-- Settles O8: the decoder runs on the written-out words. -/
theorem specWordsDecode : Obligations.SpecWordsDecode :=
  ⟨rfl, rfl, rfl, rfl, rfl, rfl, rfl, rfl, rfl, rfl, rfl⟩

/-! ## The assigned op-codes -/

/-- The assigned op-codes by their numbers (R79, R80). -/
theorem mem_assignedOps_iff (op : Byte) :
    op ∈ assignedOps ↔ (0x01 ≤ op.toNat ∧ op.toNat ≤ 0x05) ∨ (0x10 ≤ op.toNat ∧ op.toNat ≤ 0x15) ∨
      (0x20 ≤ op.toNat ∧ op.toNat ≤ 0x23) := by
  simp only [assignedOps, requestRows, List.map_cons, List.map_nil, List.mem_cons, List.not_mem_nil, or_false,
    BitVec.toNat_eq, BitVec.reduceToNat, OP_ENCODE, OP_DECODE, OP_SEND, OP_RECEIVE, OP_SEND_ACK, OP_A_POWER_ON,
    OP_A_POWER_OFF, OP_A_PANEL_ON, OP_A_PANEL_OFF, OP_A_QUERY_POWER, OP_A_QUERY_PANEL, OP_B_POWER_ON, OP_B_POWER_OFF,
    OP_B_PANEL_ON, OP_B_PANEL_OFF]
  omega

/-- An op-code has no row exactly where it is not assigned. -/
theorem lookup_requestRows_eq_none_iff (op : Byte) : requestRows.lookup op = none ↔ op ∉ assignedOps := by
  simp only [List.lookup_eq_none_iff, assignedOps, List.mem_map, not_exists, not_and, bne_iff_ne]
  exact forall₂_congr fun _ _ => ne_comm

/-- With nothing on the line, a step refuses an unassigned op-code (60 R203). -/
theorem step_unassigned {s : State} {op : Byte} {fields : List Byte} (hok : s.cfg.ok = true) (hline : s.line = [])
    (hreq : s.req = op :: fields) (hop : op ∉ assignedOps) : step s = .refused (.illegalOp op) := by
  have hdec := decodeRequest_unassigned op fields ((lookup_requestRows_eq_none_iff op).mpr hop)
  simp [step, hok, hline, hreq, hdec]

/-- An assigned op-code with its whole request is an instruction, whatever its fields. -/
theorem decodeRequest_assigned {op : Byte} (cmd tgt : Byte) {pl : List Byte} (hl : pl.length ≤ MAX_N)
    (hop : op ∈ assignedOps) : ∃ i, decodeRequest (requestBytes op cmd tgt pl) = .instr i [] := by
  obtain ⟨make, hrow⟩ := Option.ne_none_iff_exists'.mp fun h => (lookup_requestRows_eq_none_iff op).mp h hop
  have hdec := decodeRequest_requestBytes op cmd tgt pl [] hl
  rw [List.append_nil, hrow] at hdec
  exact ⟨_, hdec⟩

/-- Settles O13: the two clauses of R80 for the op-codes outside and inside R79. -/
theorem unassignedOpCodesRefused : Obligations.UnassignedOpCodesRefused := by
  refine ⟨fun s op fields hok hline hreq hop => ?_, fun op cmd tgt pl hl hop => ?_⟩
  · refine step_unassigned hok hline hreq fun h => ?_
    rw [mem_assignedOps_iff] at h
    omega
  · exact decodeRequest_assigned cmd tgt hl ((mem_assignedOps_iff op).mpr hop)

/-! ## The frames of the dispatcher -/

/-- The checksum is the sum of the bytes themselves, which wrap (40 R100); the target stands last, as in the
table of 30_encoding R84. -/
theorem csum_eq_sum (cmd tgt n : Byte) (pl : List Byte) : csum cmd tgt n pl = cmd + n + pl.sum + tgt := by
  have hpl : BitVec.ofNat 8 (sumBytes pl) = pl.sum := by
    induction pl with
    | nil => rfl
    | cons b bs ih =>
      simp only [sumBytes, List.map_cons, List.sum_cons, BitVec.ofNat_add] at ih ⊢
      simp [ih]
  simp only [csum, BitVec.ofNat_add, hpl, BitVec.ofNat_toNat, BitVec.setWidth_eq]
  ring

/-- The frame of a payload, its checksum written as a sum of bytes. -/
theorem enc_eq_sum (cmd tgt : Byte) (pl : List Byte) :
    enc cmd tgt pl = [HDR, cmd, tgt, lenByte pl] ++ pl ++ [cmd + lenByte pl + pl.sum + tgt] := by
  rw [enc, csum_eq_sum, frameBytes]

/-- The wait for a reply, and the answer to it, leave the wire as it is. -/
theorem andThen_reply_wire {w u : State} {x : Stage Frame} {answer : Frame → State → Outcome} (hx : ReplyEnds w x)
    (hanswer : ∀ f v, frameSound f = true → answer f v = .next u → ∃ r, u = finish r v) (h : x.andThen answer = .next u) :
    u.wire = w.wire := by
  have hrecv := (receiveFrame_keeps w).wire
  cases hx with
  | failed hr => cases h; rwa [hr] at hrecv
  | blocked hr => cases h; rwa [hr] at hrecv
  | rejected hr => cases h; rwa [hr] at hrecv
  | accepted hr hv =>
    obtain ⟨r, rfl⟩ := hanswer _ _ (frameSound_of_receiveFrame hr).1 h
    rw [hv]
    rwa [hr] at hrecv

/-- An operation that starts and whose write is taken adds its frame to the wire, and nothing else. -/
theorem exec_adds_sentBytes {i : Instr} {s u : State} {later : List TxAnswer}
    (hi : handshakeFields i ≠ none ∨ queryFields i ≠ none ∨ sendFields i ≠ none) (htx : s.tx = .ok :: later)
    (hp : s.phase ≠ .rxWait) (h : exec i s = .next u) : u.wire = s.wire ++ sentBytes i := by
  have hreading (hk : handshakeFields i ≠ none ∨ queryFields i ≠ none) :
      Reading i s { s with tx := later, wire := s.wire ++ sentBytes i } 0 :=
    ⟨.inl ⟨hp, rfl⟩, .inl ⟨hp, .inr ⟨hk, later, htx, rfl⟩⟩⟩
  rcases hi with hk | hk | hk
  · obtain ⟨w, hw, -, -, hack, -⟩ := exec_reading (hreading (.inl hk))
    rw [hack hk] at h
    rw [andThen_reply_wire (awaitAck_replyEnds w) (fun f v _ hv => ⟨_, (Host.Outcome.next.inj hv).symm⟩) h]
    rcases hw with rfl | rfl <;> rfl
  · obtain ⟨w, hw, -, -, -, hquery⟩ := exec_reading (hreading (.inr hk))
    obtain ⟨⟨cmd, tgt, statusOf⟩, e⟩ := Option.ne_none_iff_exists'.mp hk
    rw [hquery _ _ _ e] at h
    rw [andThen_reply_wire (queryReply_replyEnds w) (fun f v hf hv => ?_) h]
    · rcases hw with rfl | rfl <;> rfl
    · obtain ⟨r, -, rfl⟩ := statusReply_next hf hv
      exact ⟨r, rfl⟩
  · obtain ⟨⟨cmd, tgt, pl⟩, e⟩ := Option.ne_none_iff_exists'.mp hk
    rw [exec_send e, sendOnly, sendFrame_ok _ _ _ _ _ htx, ← sentBytes_send e] at h
    cases h
    rfl

/-- Settles O14: each operation's frame with its checksum summed byte by byte, and the write that adds it. -/
theorem dispatcherFramesFixed : Obligations.DispatcherFramesFixed := by
  intro t i fb h
  have hframe : sentBytes i = fb ∧ (handshakeFields i ≠ none ∨ queryFields i ≠ none ∨ sendFields i ≠ none) := by
    simp only [List.mem_cons, Prod.mk.injEq, List.not_mem_nil, or_false] at h
    rcases h with ⟨rfl, rfl⟩ | ⟨rfl, rfl⟩ | ⟨rfl, rfl⟩ | ⟨rfl, rfl⟩ | ⟨rfl, rfl⟩ | ⟨rfl, rfl⟩ | ⟨rfl, rfl⟩ | ⟨rfl, rfl⟩ |
      ⟨rfl, rfl⟩ | ⟨rfl, rfl⟩
    · exact ⟨enc_eq_sum CMD_POWER t [PL_POWER_ON], .inl nofun⟩
    · exact ⟨enc_eq_sum CMD_POWER t [PL_POWER_OFF], .inl nofun⟩
    · exact ⟨enc_eq_sum CMD_PANEL t [PL_PANEL_ON], .inl nofun⟩
    · exact ⟨enc_eq_sum CMD_PANEL t [PL_PANEL_OFF], .inl nofun⟩
    · exact ⟨enc_eq_sum CMD_POWER t [], .inr (.inl nofun)⟩
    · exact ⟨enc_eq_sum CMD_PANEL t [], .inr (.inl nofun)⟩
    · exact ⟨rfl, .inr (.inr nofun)⟩
    · exact ⟨rfl, .inr (.inr nofun)⟩
    · exact ⟨rfl, .inr (.inr nofun)⟩
    · exact ⟨rfl, .inr (.inr nofun)⟩
  obtain ⟨rfl, hi⟩ := hframe
  exact ⟨rfl, fun s u later htx hp => exec_adds_sentBytes hi htx hp⟩

/-! ## The expansions -/

/-- Settles O43: each operation and its expansion are the same handshake, or the same plain send. -/
theorem dispatcherOpsExpand : Obligations.DispatcherOpsExpand := fun _ _ => ⟨rfl, rfl, rfl, rfl, rfl, rfl, rfl, rfl⟩

/-- The operation is blocked, or has ended by an error. -/
def BlockedOrFailed (u : State) : Prop := u.phase ≠ .idle ∨ u.resp.map Resp.code ≠ some .ok

theorem recvCodes_ne_ok {code : Code} (h : code ∈ recvCodes) : code ≠ .ok := by
  rintro rfl
  simp [recvCodes] at h

/-- The wait for an acknowledgement hands a frame on, or leaves the operation blocked or failed. -/
theorem awaitAck_cases (w : State) :
    (∃ f v, awaitAck w = .done f v) ∨
      ∃ u, BlockedOrFailed u ∧ (awaitAck w = .raised u ∨ awaitAck w = .waits u) := by
  have hends := receiveFrame_ends w
  unfold awaitAck
  cases h : receiveFrame w with
  | raised u =>
    rw [h] at hends
    obtain ⟨-, -, code, hcode, hresp⟩ := hends
    exact .inr ⟨u, .inr (by simp [hresp, recvCodes_ne_ok hcode]), .inl rfl⟩
  | waits u =>
    rw [h] at hends
    obtain ⟨hp, -, -⟩ := hends
    exact .inr ⟨u, .inl (by simp [hp]), .inr rfl⟩
  | done r u =>
    dsimp only
    cases ackVerdict r.1 with
    | unexpected => exact .inr ⟨_, .inr (by simp), .inl rfl⟩
    | negative => exact .inr ⟨_, .inr (by simp), .inl rfl⟩
    | positive => exact .inl ⟨_, _, rfl⟩

/-- A handshake's outcome and a checked query's on the same reply: the same state, blocked or failed, or OK with
the frame here and that frame's status decode there. -/
inductive SameReply (statusOf : Byte → Option (BitVec 1)) : Outcome → Outcome → Prop
  | noAnswer {u : State} (h : BlockedOrFailed u) : SameReply statusOf (.next u) (.next u)
  | answered (f : Frame) (v : State) :
    SameReply statusOf (.next (finish { code := .ok, frame := some f } v)) (statusReply statusOf f v)

/-- A checked query and the handshake of its frame write the same frame and wait for the same acknowledgement. -/
theorem handshake_query_sameReply (cmd tgt : Byte) (statusOf : Byte → Option (BitVec 1)) {s : State}
    (hcheck : s.cfg.queryAckCheck = true) :
    SameReply statusOf (handshake cmd tgt [] s) (query cmd tgt statusOf s) := by
  have hreply (w : State) (hw : w.cfg.queryAckCheck = true) :
      SameReply statusOf ((awaitAck w).andThen fun f u => .next (respond none (some f) none none u))
        ((queryReply w).andThen fun f u => statusReply statusOf f (setPhase .stDec u)) := by
    rw [queryReply, if_pos hw]
    rcases awaitAck_cases w with ⟨f, v, e⟩ | ⟨u, hu, e | e⟩ <;> rw [e]
    · exact .answered f (setPhase .stDec v)
    · exact .noAnswer hu
    · exact .noAnswer hu
  unfold handshake query sendThen
  split
  · exact hreply s hcheck
  · rcases htx : s.tx with _ | ⟨_ | p, later⟩
    · rw [sendFrame_noAnswer _ _ _ _ htx]
      exact .noAnswer (.inl (by simp))
    · rw [sendFrame_ok _ _ _ _ _ htx]
      exact hreply _ hcheck
    · rw [sendFrame_ioErr _ _ _ _ _ _ htx]
      exact .noAnswer (.inr (by simp))

/-- Settles O44: the two have the same reply, and the statement is the status decode of it, written out. -/
theorem queryExpandsToSendAck : Obligations.QueryExpandsToSendAck := by
  intro i cmd tgt statusOf s u hi hcheck h
  have hsame := handshake_query_sameReply cmd tgt statusOf hcheck
  rw [exec_handshake rfl] at h
  rw [exec_query hi]
  rw [h] at hsame
  generalize query cmd tgt statusOf s = o at hsame ⊢
  cases hsame with
  | noAnswer hu => exact ⟨fun f hp hr => absurd hu (by simp [BlockedOrFailed, hp, hr]), fun _ => rfl⟩
  | answered f v =>
    refine ⟨fun f' _ hr => ?_, fun hu => absurd hu (by simp)⟩
    obtain rfl : f = f' := by simpa using hr
    unfold statusReply
    split
    · rfl
    · cases statusOf (byteAt f.pl STATUS_OFFSET) <;> rfl

end Sys2Proof.Machine
end

section
/-! PROOFS. The codec (40_codec.md): the length from which each order reports (R103), what a decode of a laid-out frame
finds (R106, R107, R101), and the two operations ENCODE and DECODE (R101, R105). -/
namespace Sys2Proof.Machine
open Sys2Proof.Config

/-! ## The decode orders -/

/-- The length from which a decode is no longer incomplete (40 R103): that of the whole frame where the header is right, and
where it is wrong that of the part which the order wants to see first. -/
def reportLen (o : DecodeOrder) (buf : List Byte) : Nat :=
  if byteAt buf 0 = HDR then frameLen (payloadLen buf)
  else
    match o with
    | .headerFirst => 1
    | .prefixFirst => PREFIX_LEN
    | .lengthFirst => frameLen (payloadLen buf)

/-- No order reports anything of an empty buffer. -/
theorem reportLen_pos (o : DecodeOrder) (buf : List Byte) : 0 < reportLen o buf := by
  have hlen := frameLen_eq (payloadLen buf)
  unfold reportLen
  split_ifs
  · omega
  · cases o with
    | headerFirst => exact Nat.one_pos
    | prefixFirst => exact Nat.succ_pos 3
    | lengthFirst => dsimp only; omega

theorem dec_nil (o : DecodeOrder) : dec o [] = .incomplete := by
  cases o <;> rfl

/-- Of two length tests with the same answer the weaker one can go. -/
theorem ite_lt_ite_lt {α : Type} {l a b : Nat} (h : a ≤ b) (x y : α) :
    (if l < a then x else if l < b then x else y) = if l < b then x else y := by
  by_cases hl : l < a
  · rw [if_pos hl, if_pos (hl.trans_le h)]
  · rw [if_neg hl]

/-- The three orders in one form: they differ in the length from which they report, and in nothing else. -/
theorem dec_eq (o : DecodeOrder) (buf : List Byte) :
    dec o buf =
      if buf.length < reportLen o buf then .incomplete
      else if byteAt buf 0 ≠ HDR then .invalidHeader
      else decBody buf := by
  rcases buf with _ | ⟨b, rest⟩
  · rw [dec_nil, List.length_nil, if_pos (reportLen_pos o [])]
  have hframe : PREFIX_LEN ≤ frameLen (payloadLen (b :: rest)) := Nat.le_add_right_of_le (Nat.le_add_right _ _)
  by_cases hb : byteAt (b :: rest) 0 = HDR <;> cases o <;> simp [dec, reportLen, hb, ite_lt_ite_lt hframe]

/-- Where the header is right the order does not matter. -/
theorem dec_order_irrelevant {buf : List Byte} (hb : byteAt buf 0 = HDR) (o o' : DecodeOrder) : dec o buf = dec o' buf := by
  simp [dec_eq, reportLen, hb]

/-- Where the header is wrong the length alone decides. -/
theorem dec_badHeader {buf : List Byte} (hb : byteAt buf 0 ≠ HDR) (o : DecodeOrder) :
    dec o buf = if buf.length < reportLen o buf then .incomplete else .invalidHeader := by
  simp [dec_eq, hb]

/-- Settles O16: the orders agree on a right header; on a wrong one each reports from its own length. -/
theorem decodeOrdersDiffer : Obligations.DecodeOrdersDiffer := by
  refine fun buf => ⟨fun h o o' => ?_, fun b rest hbuf hb => ?_⟩
  · rcases buf with _ | ⟨b, rest⟩
    · rw [dec_nil, dec_nil]
    · exact dec_order_irrelevant (by simpa [byteAt] using h) o o'
  · have hb0 : byteAt buf 0 ≠ HDR := by simpa [hbuf, byteAt] using hb
    have hlen : 0 < buf.length := by simp [hbuf]
    refine ⟨?_, ?_, ?_⟩ <;> rw [dec_badHeader hb0] <;> simp only [reportLen, if_neg hb0]
    · rw [if_neg (by omega)]
    · rfl
    · rw [frameLen_eq]
      exact if_congr (by omega) rfl rfl

/-- Where a decode reports, the length from which it does so does not depend on what follows. -/
theorem reportLen_append {o : DecodeOrder} {buf : List Byte} (more : List Byte) (h : reportLen o buf ≤ buf.length) :
    reportLen o (buf ++ more) = reportLen o buf := by
  have hframe (hl : frameLen (payloadLen buf) ≤ buf.length) :
      frameLen (payloadLen (buf ++ more)) = frameLen (payloadLen buf) := by
    rw [frameLen_eq] at hl
    rw [payloadLen_append buf more (by omega)]
  have hhead : byteAt (buf ++ more) 0 = byteAt buf 0 := byteAt_append buf more 0 ((reportLen_pos o buf).trans_le h)
  unfold reportLen at h ⊢
  rw [hhead]
  split_ifs at h ⊢
  · exact hframe h
  · cases o with
    | headerFirst => rfl
    | prefixFirst => rfl
    | lengthFirst => exact hframe h

/-- Settles O17: neither the length from which a decode reports nor what it then reports looks past the frame. -/
theorem decReadsOnlyItsFrame : Obligations.DecReadsOnlyItsFrame := by
  intro o buf more h
  have hl : reportLen o buf ≤ buf.length := by
    by_contra hlt
    exact h (by rw [dec_eq, if_pos (by omega)])
  have hl' : reportLen o buf ≤ (buf ++ more).length := by
    rw [List.length_append]
    omega
  rw [dec_eq o buf, dec_eq, reportLen_append more hl, if_neg (not_lt.mpr hl), if_neg (not_lt.mpr hl'),
    byteAt_append buf more 0 ((reportLen_pos o buf).trans_le hl)]
  split_ifs with hb
  · rfl
  · exact decBody_append buf more (by simpa [reportLen, not_not.mp hb] using hl)

/-! ## Laid-out frames -/

/-- A decode of a laid-out frame, with any bytes after it, looks at its checksum byte alone. -/
theorem dec_frameBytes (o : DecodeOrder) (cmd tgt : Byte) {pl : List Byte} (c : Byte) (rest : List Byte)
    (hl : pl.length ≤ MAX_N) :
    dec o (frameBytes cmd tgt pl c ++ rest) =
      if c = csum cmd tgt (lenByte pl) pl then
        .frame { cmd := cmd, tgt := tgt, n := lenByte pl, pl := pl } (frameLen pl.length)
      else .invalidChecksum := by
  have hn := lenByte_toNat pl hl
  have hb : byteAt (frameBytes cmd tgt pl c ++ rest) 0 = HDR := rfl
  have hpl : payloadLen (frameBytes cmd tgt pl c ++ rest) = pl.length := hn
  have hc : byteAt (frameBytes cmd tgt pl c ++ rest) (PREFIX_LEN + pl.length) = c := by
    simp [byteAt, frameBytes, PREFIX_LEN, Nat.add_comm 4]
  have hrep : reportLen o (frameBytes cmd tgt pl c ++ rest) = frameLen pl.length := by
    unfold reportLen
    rw [if_pos hb, hpl]
  rw [dec_eq, hrep, frameLen_eq, if_neg (by simp), if_neg (by simp [hb]), decBody, hpl, hc]
  simp [byteAt, frameBytes, PREFIX_LEN, frameLen_eq]

/-- Settles O18: an encoding is a laid-out frame with its own checksum byte. -/
theorem codecRoundTrip : Obligations.CodecRoundTrip := by
  intro o cmd tgt pl rest hl
  rw [enc, dec_frameBytes o cmd tgt _ rest hl, if_pos rfl, frameLen_eq, Nat.add_comm]
  rfl

/-- Settles O19: a prefix that is reported would be reported as the whole frame (R103 (b)), which is longer than it. -/
theorem properPrefixIncomplete : Obligations.ProperPrefixIncomplete := by
  intro o cmd tgt pl hl
  have hround := codecRoundTrip o cmd tgt pl [] hl
  rw [List.append_nil] at hround
  refine ⟨fun p tail hp htail => ?_, by rw [hround, frameLen_eq, Nat.add_comm]⟩
  by_contra hd
  have hsame := decReadsOnlyItsFrame o p tail hd
  rw [← hp, hround] at hsame
  obtain ⟨-, -, hle, -⟩ := dec_frame_sound hsame.symm
  have hlen := congrArg List.length hp
  have htail := List.length_pos_iff.mpr htail
  rw [enc_length, List.length_append] at hlen
  omega

/-- A payload as long as its length byte says has that length byte (30_encoding R72). -/
theorem lenByte_eq_of_length {pl : List Byte} {n : Byte} (h : pl.length = n.toNat) : lenByte pl = n := by
  rw [lenByte, h, BitVec.ofNat_toNat, BitVec.setWidth_eq]

/-- A buffer that holds a whole frame is that frame laid out, and the bytes after it. -/
theorem eq_frameBytes_append_drop {buf : List Byte} (hb : byteAt buf 0 = HDR) (hl : payloadLen buf + 5 ≤ buf.length) :
    buf = frameBytes (byteAt buf 1) (byteAt buf 2) ((buf.drop 4).take (payloadLen buf)) (byteAt buf (4 + payloadLen buf)) ++
      buf.drop (payloadLen buf + 5) := by
  rcases buf with _ | ⟨b0, _ | ⟨cmd, _ | ⟨tgt, _ | ⟨n, body⟩⟩⟩⟩
  iterate 4 exact absurd hl (by simp)
  obtain rfl : b0 = HDR := hb
  have hpl : payloadLen (HDR :: cmd :: tgt :: n :: body) = n.toNat := rfl
  rw [hpl] at hl ⊢
  have hn : n.toNat < body.length := by
    simp only [List.length_cons] at hl
    omega
  have hlen : lenByte (body.take n.toNat) = n := lenByte_eq_of_length (List.length_take_of_le hn.le)
  have hc : byteAt (HDR :: cmd :: tgt :: n :: body) (4 + n.toNat) = body[n.toNat] := by
    simp [byteAt, Nat.add_comm 4, hn]
  rw [hc]
  simp [frameBytes, byteAt, hlen]

/-- Settles O20: the frame accepted is laid out at the front, and its checksum byte is that of an encoding. -/
theorem decAcceptsOnlyEncodings : Obligations.DecAcceptsOnlyEncodings := by
  intro o buf f c h
  obtain ⟨hsound, -, -, -⟩ := dec_frame_sound h
  obtain ⟨hb, -, rfl, hle, hf, hc⟩ := dec_frame h
  have hpl : f.pl.length = f.n.toNat := by simpa [frameSound] using hsound
  have hbuf := eq_frameBytes_append_drop hb hle
  rw [hc, ← lenByte_eq_of_length hpl] at hbuf
  subst hf
  refine ⟨hbuf, ?_, hpl⟩
  rw [hpl, Nat.add_comm]
  rfl

/-! ## ENCODE and DECODE -/

/-- Settles O21: the response is the encoding, its length byte and its checksum written out. -/
theorem encodeAnswersFrame : Obligations.EncodeAnswersFrame := by
  intro s cmd tgt pl hl
  have hreq := decodeRequest_requestBytes OP_ENCODE cmd tgt pl [] hl
  rw [List.append_nil] at hreq
  refine ⟨hreq, ?_⟩
  have henc : enc cmd tgt pl = [HDR, cmd, tgt, BitVec.ofNat 8 pl.length] ++ pl ++
      [BitVec.ofNat 8 (cmd.toNat + tgt.toNat + pl.length + (pl.map BitVec.toNat).sum)] := by
    rw [enc, csum, lenByte_toNat pl hl]
    rfl
  rw [← henc]
  rfl

/-- Settles O22: DECODE by the four outcomes of `DEC`. -/
theorem decodeOpOutcomes : Obligations.DecodeOpOutcomes := by
  intro s
  have hexec : exec .decode s = execDecode s := rfl
  rw [hexec, execDecode_eq]
  refine ⟨rfl, fun f c h => ?_, fun h => ?_, fun h => ?_, fun h => ?_⟩ <;> rw [h] <;> rfl

end Sys2Proof.Machine
end

section
/-! PROOFS. RECEIVE on a frame that arrives in pieces (40_codec R107, 41_session R121, R122, R126). -/
namespace Sys2Proof.Machine
open Sys2Proof.Config

/-- RECEIVE after the reads it asked for, where the bytes then held decode to a frame (41 R121, R126). -/
theorem exec_receive_frame {s : State} {n : Nat} {chunks : List (List Byte)} {later : List RxAnswer} {f : Frame} {c : Nat}
    (hs : Started s n) (h : ReadsTo s chunks later) (hd : dec s.cfg.decodeOrder (bufAfter s chunks) = .frame f c) :
    exec .receive s = .next
      (finish { code := .ok, frame := some f, consumed := some (BitVec.ofNat 9 c) }
        (afterReads s n chunks later ((bufAfter s chunks).drop c))) := by
  have hrecv := receiveFrame_outcome s n chunks later hs h
  rw [hd] at hrecv
  have hexec : exec .receive s = execReceive s := rfl
  rw [hexec, execReceive, hrecv]
  rfl

/-- Bytes that are followed by more than what follows an encoding are a proper prefix of it, and incomplete (40 R107). -/
theorem dec_incomplete_of_append_eq (o : DecodeOrder) {cmd tgt : Byte} {pl p more rest : List Byte} (hl : pl.length ≤ MAX_N)
    (h : p ++ more = enc cmd tgt pl ++ rest) (hlt : rest.length < more.length) : dec o p = .incomplete := by
  obtain ⟨hprefix, -⟩ := properPrefixIncomplete o cmd tgt pl hl
  have hlen := congrArg List.length h
  simp only [List.length_append] at hlen
  obtain ⟨tail, htail⟩ : p <+: enc cmd tgt pl :=
    List.prefix_of_prefix_length_le ⟨more, h⟩ (List.prefix_append _ _) (by omega)
  refine hprefix p tail htail.symm ?_
  rintro rfl
  rw [List.append_nil] at htail
  rw [htail] at hlen
  omega

/-- Where the last chunk alone is longer than the bytes after the frame, so is every end of the stream. -/
theorem length_lt_flatten_drop {chunks : List (List Byte)} {m k : Nat} (hk : k < chunks.length)
    (h : ∀ front last, chunks = front ++ [last] → m < last.length) : m < (chunks.drop k).flatten.length := by
  obtain ⟨front, last, rfl⟩ := List.eq_nil_or_concat' chunks |>.resolve_left (List.ne_nil_of_length_pos (by omega))
  have hlast := h front last rfl
  rw [List.length_append, List.length_singleton] at hk
  rw [List.drop_append_of_le_length (by omega), List.flatten_append, List.length_append]
  simp only [List.flatten_singleton]
  omega

/-- Settles O28: before the last chunk only a proper prefix of the encoding is held, so every chunk is asked for; with it
the encoding is whole. -/
theorem receiveReassemblesAnyChunking : Obligations.ReceiveReassemblesAnyChunking := by
  intro s n chunks later cmd tgt pl rest hs hl hsizes hrx hbytes hlast
  have hsplit (k : Nat) : (s.rxbuf ++ (chunks.take k).flatten) ++ (chunks.drop k).flatten = enc cmd tgt pl ++ rest := by
    rw [List.append_assoc, ← List.flatten_append, List.take_append_drop, hbytes]
  have hreads : ReadsTo s chunks later :=
    ⟨hsizes, hrx, fun k hk => dec_incomplete_of_append_eq _ hl (hsplit k) (length_lt_flatten_drop hk hlast)⟩
  have hbuf : bufAfter s chunks = enc cmd tgt pl ++ rest := hbytes
  have hdec := codecRoundTrip s.cfg.decodeOrder cmd tgt pl rest hl
  have hdrop : (enc cmd tgt pl ++ rest).drop (5 + pl.length) = rest :=
    List.drop_left' (by rw [enc_length, Nat.add_comm])
  rw [exec_receive_frame hs hreads (hbuf ▸ hdec), hbuf, hdrop]
  rfl

end Sys2Proof.Machine
end

section
/-! PROOFS. Operations at their write (41_session R120, 20_memory R54 (b)): how an operation that starts goes on with the TX
port's answer. -/
namespace Sys2Proof.Machine
open Sys2Proof.Config

/-- An operation that starts and has a frame to send begins with the write of that frame (41 R120). -/
theorem exec_begins_with_sendFrame {i : Instr} {s : State} (h : sentBytes i ≠ []) (hp : s.phase ≠ .rxWait) :
    ∃ cmd tgt pl rest, sentBytes i = enc cmd tgt pl ∧ exec i s = (sendFrame cmd tgt pl s).andThen rest := by
  cases hh : handshakeFields i with
  | some fields => exact ⟨_, _, _, _, sentBytes_handshake hh, by rw [exec_handshake hh, handshake, sendThen, if_neg hp]⟩
  | none =>
    cases hq : queryFields i with
    | some fields => exact ⟨_, _, _, _, sentBytes_query hq, by rw [exec_query hq, query, sendThen, if_neg hp]⟩
    | none =>
      cases hs : sendFields i with
      | some fields => exact ⟨_, _, _, _, sentBytes_send hs, by rw [exec_send hs, sendOnly]⟩
      | none => exact absurd (by simp only [sentBytes, hh, hq, hs]) h

/-- Settles O24: the write comes first, and what follows it is not run where it fails. -/
theorem writeFailureEndsOperation : Obligations.WriteFailureEndsOperation := by
  intro i s p later hi hp htx hle
  obtain ⟨cmd, tgt, pl, rest, hsent, hexec⟩ := exec_begins_with_sendFrame hi hp
  have hcount : min p (pl.length + 5) = p := by
    rw [hsent, enc_length] at hle
    exact Nat.min_eq_left hle
  rw [hexec, sendFrame_ioErr _ _ _ _ _ _ htx, hcount, hsent]
  rfl

/-- Settles O23: an operation that awaits no reply has only its write to make. -/
theorem sendCompletes : Obligations.SendCompletes := by
  intro i s later hi htx
  obtain ⟨⟨cmd, tgt, pl⟩, e⟩ := Option.ne_none_iff_exists'.mp hi
  rw [exec_send e, sendOnly, sendFrame_ok _ _ _ _ _ htx, ← sentBytes_send e]
  rfl

/-- Settles O26: by the three things the TX port can do. -/
theorem sendLeavesReceiveSide : Obligations.SendLeavesReceiveSide := by
  intro i s t hi h
  obtain ⟨⟨cmd, tgt, pl⟩, e⟩ := Option.ne_none_iff_exists'.mp hi
  rw [exec_send e, sendOnly] at h
  rcases htx : s.tx with _ | ⟨_ | p, later⟩
  · rw [sendFrame_noAnswer _ _ _ _ htx] at h
    cases h
    exact ⟨rfl, rfl, rfl, rfl, rfl, rfl⟩
  · rw [sendFrame_ok _ _ _ _ _ htx] at h
    cases h
    exact ⟨rfl, rfl, rfl, rfl, rfl, rfl⟩
  · rw [sendFrame_ioErr _ _ _ _ _ _ htx] at h
    cases h
    exact ⟨rfl, rfl, rfl, rfl, rfl, rfl⟩

end Sys2Proof.Machine
end

section
/-! PROOFS. Operations at their reads (41_session R121 to R128): where the receive ends by an error or waits, so does the
operation, whether it started now or goes on, from a request or from an arrival. -/
namespace Sys2Proof.Machine
open Sys2Proof.Config

/-- Settles O27: the response and the rest of the bytes are those of the decode after the last read. -/
theorem receiveReturnsDecodedFrame : Obligations.ReceiveReturnsDecodedFrame :=
  fun _ _ _ _ _ _ hs h hd => exec_receive_frame hs h hd

/-! ## Stages that hand nothing on -/

/-- The shared step ends the operation or blocks it, in state `t`: nothing of the operation comes after it. -/
def Stage.Stops {α : Type} (x : Stage α) (t : State) : Prop := x = .raised t ∨ x = .waits t

theorem Stage.Stops.andThen {α : Type} {x : Stage α} {t : State} (h : x.Stops t) (rest : α → State → Outcome) :
    x.andThen rest = .next t := by
  rcases h with rfl | rfl <;> rfl

theorem Stage.stops_or_done {α : Type} (x : Stage α) : (∃ t, x.Stops t) ∨ ∃ a u, x = .done a u := by
  cases x with
  | done a u => exact .inr ⟨a, u, rfl⟩
  | raised t => exact .inl ⟨t, .inl rfl⟩
  | waits t => exact .inl ⟨t, .inr rfl⟩

theorem awaitAck_stops {s t : State} (h : (receiveFrame s).Stops t) : (awaitAck s).Stops t := by
  unfold awaitAck
  rcases h with h | h <;> rw [h]
  · exact .inl rfl
  · exact .inr rfl

theorem queryReply_stops {s t : State} (h : (receiveFrame s).Stops t) : (queryReply s).Stops t := by
  unfold queryReply
  split
  · exact awaitAck_stops h
  · rcases h with h | h <;> rw [h]
    · exact .inl rfl
    · exact .inr rfl

/-! ## The receive of an operation at its reads -/

@[simp] theorem afterReads_cfg (s : State) (n : Nat) (chunks : List (List Byte)) (later : List RxAnswer) (buf : List Byte) :
    (afterReads s n chunks later buf).cfg = s.cfg := rfl

@[simp] theorem afterReads_rxbuf (s : State) (n : Nat) (chunks : List (List Byte)) (later : List RxAnswer)
    (buf : List Byte) : (afterReads s n chunks later buf).rxbuf = buf := rfl

section
variable {i : Instr} {s t : State} {n : Nat} (hr : Reading i s t n)
include hr

/-- Only an operation that receives stands at its reads. -/
theorem Reading.receives : receives i := by
  obtain ⟨-, ⟨-, ⟨hi, -⟩ | ⟨hi, -⟩⟩ | ⟨-, hi, -⟩⟩ := hr
  · exact .inl hi
  · exact .inr hi
  · exact hi

/-- The write before the reads is seen in the TX port and on the wire only. -/
theorem Reading.same : t.cfg = s.cfg ∧ t.scratch = s.scratch ∧ t.req = s.req := by
  obtain ⟨-, ⟨-, ⟨-, rfl⟩ | ⟨-, later, -, rfl⟩⟩ | ⟨-, -, rfl⟩⟩ := hr <;> exact ⟨rfl, rfl, rfl⟩

variable {chunks : List (List Byte)} {later : List RxAnswer} (h : ReadsTo t chunks later)
include h

/-- An operation at its reads takes the chunks its decodes ask for; where the loop then ends by an error or waits, so does
the operation. -/
theorem exec_reading_stops {v : State}
    (hv : (decodeThen (readLoop (READ_BOUND - chunks.length))
      (afterReads t n chunks later (bufAfter t chunks))).Stops v) : exec i s = .next v := by
  obtain ⟨u, hu, hstart, hreceive, hack, hquery⟩ := exec_reading hr
  have hrecv : (receiveFrame u).Stops v := by
    rcases hu with rfl | rfl
    · rwa [receiveFrame_readsTo _ n chunks later hstart h]
    · rw [receiveFrame_readsTo _ n chunks later hstart ⟨h.sizes, h.stream, h.demand⟩]
      rwa [← decodeThen_setPhase _ .tx] at hv
  rcases hr.receives with hi | hi | hi
  · rw [hreceive hi]
    exact hrecv.andThen _
  · rw [hack hi]
    exact (awaitAck_stops hrecv).andThen _
  · obtain ⟨⟨cmd, tgt, statusOf⟩, e⟩ := Option.ne_none_iff_exists'.mp hi
    rw [hquery _ _ _ e]
    exact (queryReply_stops hrecv).andThen _

/-- Where the bytes held are incomplete after the chunks, the loop goes on with the port's next answer (41 R128), and at
least one read is left for it (41 R130). -/
theorem exec_reading_incomplete (hd : dec s.cfg.decodeOrder (bufAfter t chunks) = .incomplete) :
    ∃ k, ∀ v, (readLoop (k + 1) (setPhase .rxWait (afterReads t n chunks later (bufAfter t chunks)))).Stops v →
      exec i s = .next v := by
  obtain ⟨hcfg, -, -⟩ := hr.same
  rw [← hcfg] at hd
  obtain ⟨k, hk⟩ := readsTo_left t chunks later h hd
  refine ⟨k, fun v hv => exec_reading_stops hr h ?_⟩
  rwa [decodeThen_eq, afterReads_cfg, afterReads_rxbuf, hd, hk]

end

/-- Settles O29: the decode after the last read raises the error, RXBUF cleared before it. -/
theorem framingErrorClearsBuffer : Obligations.FramingErrorClearsBuffer := by
  intro i s t n chunks later hr h
  obtain ⟨hcfg, hscratch, hreq⟩ := hr.same
  rw [← hcfg, ← hscratch, ← hreq]
  constructor
  all_goals
    intro hd
    refine exec_reading_stops hr h (.inl ?_)
    rw [decodeThen_eq, afterReads_cfg, afterReads_rxbuf, hd]
    rfl

/-- Settles O30: the read after the last chunk ends the operation, with nothing appended. -/
theorem streamEndKeepsBuffer : Obligations.StreamEndKeepsBuffer := by
  intro i s t n chunks later hr h hd
  obtain ⟨-, hscratch, hreq⟩ := hr.same
  obtain ⟨k, hstops⟩ := exec_reading_incomplete hr h hd
  rw [← hscratch, ← hreq]
  exact hstops _ (.inl (readLoop_ended k _ later rfl))

/-- Settles O31: likewise for a read that fails. -/
theorem readFailureKeepsBuffer : Obligations.ReadFailureKeepsBuffer := by
  intro i s t n chunks later hr h hd
  obtain ⟨-, hscratch, hreq⟩ := hr.same
  obtain ⟨k, hstops⟩ := exec_reading_incomplete hr h hd
  rw [← hscratch, ← hreq]
  exact hstops _ (.inl (readLoop_ioErr k _ later rfl))

/-- Settles O32: the read after the last chunk has no answer, and the operation is left where it stands. -/
theorem unansweredReadWaits : Obligations.UnansweredReadWaits := by
  intro i s t n chunks hr h hd
  obtain ⟨-, hscratch, -⟩ := hr.same
  obtain ⟨k, hstops⟩ := exec_reading_incomplete hr h hd
  rw [← hscratch]
  exact hstops _ (.inr (readLoop_noAnswer k _ rfl))

/-! ## A frame that arrives at a blocked operation -/

section
variable {j : Instr} {s : State} {more : List Byte} (hb : Blocked s j more)
include hb

/-- A frame that arrives at a blocked operation that receives is put in its stream, and the operation goes on. -/
theorem Blocked.exec_wire {i : Instr} (hi : wireFields i ≠ none) (hj : receives j) :
    exec i s = exec j (deliver (encode i) s) := by
  obtain ⟨⟨cmd, tgt, pl, c⟩, e⟩ := Option.ne_none_iff_exists'.mp hi
  rw [Machine.exec_wire e, ← encode_wire e]
  rcases arrive_cases (encode i) s with ⟨j', rest, -, hreq, -, h⟩ | ⟨hno, -⟩
  · cases hb.request.symm.trans hreq
    exact h
  · exact absurd hj (hno hb.phase j more hb.request)

/-- A blocked operation stands at its reads, whatever bytes have arrived. -/
theorem Blocked.reading (hj : receives j) (bs : List Byte) :
    Reading j (deliver bs s) (deliver bs s) s.reads :=
  ⟨.inr ⟨hb.phase, rfl, hb.held⟩, .inr ⟨hb.phase, hj, rfl⟩⟩

/-- Bytes that arrive at a blocked operation and fit SCRATCH are one read's. -/
theorem Blocked.readsTo {bs : List Byte} (hne : bs ≠ []) (hl : bs.length ≤ s.cfg.scratchSize) :
    ReadsTo (deliver bs s) [bs] [] where
  sizes := by simpa using ⟨hne, hl⟩
  stream := by simp [hb.stream]
  demand k hk := by
    obtain rfl : k = 0 := by simpa using hk
    simpa using hb.held

end

theorem encode_wire_ne_nil {i : Instr} (hi : wireFields i ≠ none) : encode i ≠ [] := by
  obtain ⟨⟨cmd, tgt, pl, c⟩, e⟩ := Option.ne_none_iff_exists'.mp hi
  rw [encode_wire e]
  exact List.cons_ne_nil _ _

/-- Settles O59: the blocked operation stands at its reads with the frame as its one chunk, and fails or waits there. -/
theorem arrivingBytesFailOrWait : Obligations.ArrivingBytesFailOrWait := by
  intro i j s more hi hj hb hl
  have hr := hb.reading hj (encode i)
  have hreads := hb.readsTo (encode_wire_ne_nil hi) hl
  have hbuf : bufAfter (deliver (encode i) s) [encode i] = s.rxbuf ++ encode i := by simp [bufAfter]
  have herr := framingErrorClearsBuffer j _ _ s.reads [encode i] [] hr hreads
  have hwait := unansweredReadWaits j _ _ s.reads [encode i] hr hreads
  rw [hbuf] at herr hwait
  have hmore : dropRequest (deliver (encode i) s).req = more := dropRequest_of_decodeRequest hb.request
  rw [hmore] at herr
  rw [hb.exec_wire hi hj]
  refine ⟨fun hd => ?_, fun hd => ?_, fun hd => ?_⟩
  · rw [herr.1 hd, afterArrival, hb.stream]
    rfl
  · rw [herr.2 hd, afterArrival, hb.stream]
    rfl
  · rw [hwait hd, afterArrival, hb.stream, ← hb.phase]
    rfl

end Sys2Proof.Machine
end

section
/-! PROOFS. The next states of every host operation but DECODE, ill-formed ones too: the codes it ends with (41_session
R129), the reads it counts (R130), and what RECEIVE leaves alone (R121). -/
namespace Sys2Proof.Machine
open Sys2Proof.Config

/-! ## How an operation goes, by its response's code -/

/-- The next states of a host operation that is not DECODE: blocked on its write; ended by a response of its own, which has
another code than E_INCOMPLETE; left by its receive, ended by an error or blocked. Beside `Runs`, it speaks of the code of a
response in place of its fields, and asks nothing of the payload's length. -/
inductive RunsNotDecode (i : Instr) (s : State) : State → Prop
  | blockedTx : RunsNotDecode i s (setPhase .tx s)
  | answered {w u : State} {r : Resp} (hw : AfterWrite i s w) (hu : BeforeAnswer w u) (hr : r.code ≠ .incomplete) :
    RunsNotDecode i s (finish r u)
  | stopped {w t : State} (hw : AfterWrite i s w) (h : (receiveFrame w).Stops t) : RunsNotDecode i s t

/-- What an operation does with the frame of its reply: it ends with another code than E_INCOMPLETE, or stops. -/
def AnswersFrame (answer : Frame → State → Outcome) : Prop :=
  ∀ f v t, answer f v = .next t → ∃ r : Resp, r.code ≠ .incomplete ∧ t = finish r v

theorem statusReply_answersFrame (statusOf : Byte → Option (BitVec 1)) :
    AnswersFrame fun f v => statusReply statusOf f (setPhase .stDec v) := by
  intro f v t h
  simp only [statusReply] at h
  split at h
  · cases h
  · split at h <;> cases h <;> exact ⟨_, by simp, rfl⟩

section
variable {i : Instr} {s t : State}

theorem awaitAck_runsNotDecode {w : State} {answer : Frame → State → Outcome} (hw : AfterWrite i s w)
    (hanswer : AnswersFrame answer) (h : (awaitAck w).andThen answer = .next t) : RunsNotDecode i s t := by
  rcases (receiveFrame w).stops_or_done with ⟨u, hr⟩ | ⟨r, u, hr⟩
  · rw [(awaitAck_stops hr).andThen] at h
    cases h
    exact .stopped hw hr
  · unfold awaitAck at h
    rw [hr] at h
    dsimp only at h
    cases hv : ackVerdict r.1 <;> rw [hv] at h
    · cases h
      exact .answered (u := u) hw (.received hr) (by simp)
    · cases h
      exact .answered (u := u) hw (.received hr) (by simp)
    · obtain ⟨resp, hcode, rfl⟩ := hanswer _ _ _ h
      exact .answered (u := u) hw (.received hr) hcode

theorem queryReply_runsNotDecode {w : State} {answer : Frame → State → Outcome} (hw : AfterWrite i s w)
    (hanswer : AnswersFrame answer) (h : (queryReply w).andThen answer = .next t) : RunsNotDecode i s t := by
  rcases (receiveFrame w).stops_or_done with ⟨u, hr⟩ | ⟨r, u, hr⟩
  · rw [(queryReply_stops hr).andThen] at h
    cases h
    exact .stopped hw hr
  · unfold queryReply at h
    split at h
    · exact awaitAck_runsNotDecode hw hanswer h
    · rw [hr] at h
      obtain ⟨resp, hcode, rfl⟩ := hanswer _ _ _ h
      exact .answered hw (.received hr) hcode

theorem sendFrame_runsNotDecode {cmd tgt : Byte} {pl : List Byte} {rest : State → Outcome}
    (hsent : sentBytes i = enc cmd tgt pl) (hrest : ∀ w, AfterWrite i s w → rest w = .next t → RunsNotDecode i s t)
    (h : (sendFrame cmd tgt pl s).andThen (fun _ => rest) = .next t) : RunsNotDecode i s t := by
  rcases htx : s.tx with _ | ⟨_ | p, later⟩
  · rw [sendFrame_noAnswer _ _ _ _ htx] at h
    cases h
    exact .blockedTx
  · rw [sendFrame_ok _ _ _ _ _ htx, ← hsent] at h
    exact hrest _ (.written htx (List.prefix_refl _)) h
  · rw [sendFrame_ioErr _ _ _ _ _ _ htx, ← hsent] at h
    cases h
    exact .answered (.written htx (List.take_prefix _ _)) .asIs nofun

theorem sendThen_runsNotDecode {cmd tgt : Byte} {pl : List Byte} {reply : State → Outcome}
    (hsent : sentBytes i = enc cmd tgt pl) (hreply : ∀ w, AfterWrite i s w → reply w = .next t → RunsNotDecode i s t)
    (h : sendThen cmd tgt pl reply s = .next t) : RunsNotDecode i s t := by
  unfold sendThen at h
  split at h
  · exact hreply s .none h
  · exact sendFrame_runsNotDecode hsent hreply h

theorem execReceive_runsNotDecode (h : execReceive s = .next t) : RunsNotDecode i s t := by
  unfold execReceive at h
  rcases (receiveFrame s).stops_or_done with ⟨u, hr⟩ | ⟨r, u, hr⟩
  · rw [hr.andThen] at h
    cases h
    exact .stopped .none hr
  · rw [hr] at h
    cases h
    exact .answered .none (.received hr) nofun

/-- Every next state of a host operation but DECODE is one that `RunsNotDecode` names. -/
theorem exec_runsNotDecode (hi : wireFields i = none) (hd : i ≠ .decode) (h : exec i s = .next t) :
    RunsNotDecode i s t := by
  rcases instr_kinds i with ⟨cmd, tgt, pl, rfl⟩ | rfl | rfl | hk | hk | hk | hk
  · cases h
    exact .answered (u := s) .none .asIs nofun
  · exact absurd rfl hd
  · exact execReceive_runsNotDecode h
  · obtain ⟨⟨cmd, tgt, pl⟩, e⟩ := Option.ne_none_iff_exists'.mp hk
    rw [exec_handshake e] at h
    refine sendThen_runsNotDecode (sentBytes_handshake e) (fun w hw => awaitAck_runsNotDecode hw fun f v t ht => ?_) h
    cases ht
    exact ⟨_, by simp, rfl⟩
  · obtain ⟨⟨cmd, tgt, statusOf⟩, e⟩ := Option.ne_none_iff_exists'.mp hk
    rw [exec_query e] at h
    exact sendThen_runsNotDecode (sentBytes_query e)
      (fun w hw => queryReply_runsNotDecode hw (statusReply_answersFrame statusOf)) h
  · obtain ⟨⟨cmd, tgt, pl⟩, e⟩ := Option.ne_none_iff_exists'.mp hk
    rw [exec_send e] at h
    refine sendFrame_runsNotDecode (sentBytes_send e) (fun w hw hanswer => ?_) h
    cases hanswer
    exact .answered hw .asIs nofun
  · exact absurd hi hk

end

/-- DECODE issues no read (40 R105). -/
theorem ne_decode_of_receives {i : Instr} (h : receives i) : i ≠ .decode := by
  rintro rfl
  simp [receives, handshakeFields, queryFields] at h

/-! ## The codes -/

/-- An operation that ended has another code than E_INCOMPLETE. -/
def NotIncomplete (t : State) : Prop := t.phase = .idle → t.resp.map Resp.code ≠ some .incomplete

theorem receiveFrame_stops_notIncomplete {w t : State} (h : (receiveFrame w).Stops t) : NotIncomplete t := by
  have hends := receiveFrame_ends w
  rcases h with h | h <;> rw [h] at hends
  · obtain ⟨-, -, code, hcode, hresp⟩ := hends
    rintro - hinc
    rw [hresp] at hinc
    cases hinc
    simp [recvCodes] at hcode
  · obtain ⟨hp, -, -⟩ := hends
    intro hidle
    simp [hp] at hidle

theorem RunsNotDecode.notIncomplete {i : Instr} {s t : State} (h : RunsNotDecode i s t) : NotIncomplete t := by
  cases h with
  | blockedTx => exact fun hidle => absurd hidle (by simp)
  | answered _ _ hr => exact fun _ h => hr (Option.some.inj h)
  | stopped _ h => exact receiveFrame_stops_notIncomplete h

/-- Settles O34: an arrival in RX_WAIT only waits, or goes on as a host operation, which is not DECODE. -/
theorem onlyDecodeReportsIncomplete : Obligations.OnlyDecodeReportsIncomplete := by
  intro i s t hd hi h
  change NotIncomplete t
  cases hw : wireFields i with
  | none => exact (exec_runsNotDecode hw hd h).notIncomplete
  | some fields =>
    have hp : s.phase = .rxWait := hi.resolve_left (by simp [hw])
    rw [exec_wire hw] at h
    rcases arrive_cases _ s with ⟨j, rest, -, -, hj, e⟩ | ⟨-, e⟩ <;> rw [e] at h
    · exact (exec_runsNotDecode (wireFields_of_receives hj) (ne_decode_of_receives hj) h).notIncomplete
    · cases h
      intro hidle
      simp [hp] at hidle

/-! ## The reads -/

/-- Where the receive ends or waits, at most READ_BOUND reads are counted, and it waits only without an answer. -/
theorem MachineInv.receive_stops {w t : State} (h : MachineInv w) (hr : (receiveFrame w).Stops t) :
    t.reads ≤ READ_BOUND ∧ (t.phase = .rxWait → t.rx = []) := by
  obtain ⟨-, -, hreads, hwait⟩ := h.bounded_receiveFrame
  have hends := receiveFrame_ends w
  rcases hr with hr | hr <;> rw [hr] at hreads hwait hends
  · obtain ⟨hp, -⟩ := hends
    exact ⟨hreads, by simp [hp]⟩
  · obtain ⟨-, -, hrx⟩ := hwait
    exact ⟨hreads, fun _ => hrx⟩

/-- Settles O35: the count of reads is bounded wherever an operation ends or blocks, and only a receive blocks in RX_WAIT. -/
theorem receiveReadBound : Obligations.ReceiveReadBound := by
  intro i s t hinv hi h
  cases exec_runsNotDecode (wireFields_of_receives hi) (ne_decode_of_receives hi) h with
  | blockedTx => exact ⟨hinv.readBound, by simp⟩
  | answered hw hu => exact ⟨((hinv.afterWrite hw).beforeAnswer hu).readBound, by simp⟩
  | stopped hw hr => exact (hinv.afterWrite hw).receive_stops hr

/-! ## The frame of RECEIVE -/

/-- Settles O36: what a receive leaves alone, and the three ways it ends. -/
theorem receiveFrameCondition : Obligations.ReceiveFrameCondition := by
  intro s t h
  have hexec : exec .receive s = execReceive s := rfl
  rw [hexec, execReceive] at h
  have hkeeps := receiveFrame_keeps s
  have hends := receiveFrame_ends s
  cases hr : receiveFrame s <;> rw [hr] at h hkeeps hends <;> cases h
  · obtain ⟨-, -, -, hreq, -⟩ := hends
    exact ⟨hkeeps.cfg, hkeeps.tx, hkeeps.wire, hkeeps.line,
      .inl ⟨rfl, congrArg dropRequest hreq, Option.some_ne_none _⟩⟩
  · obtain ⟨hp, hreq, code, -, hresp⟩ := hends
    exact ⟨hkeeps.cfg, hkeeps.tx, hkeeps.wire, hkeeps.line, .inl ⟨hp, hreq, by simp [hresp]⟩⟩
  · exact ⟨hkeeps.cfg, hkeeps.tx, hkeeps.wire, hkeeps.line, .inr hends⟩

end Sys2Proof.Machine
end

section
/-! PROOFS. The handshake (42_ack.md): how an operation that checks its reply is settled by the frame its receive finds
(R142 to R144), what a frame that arrives does to a blocked operation (R141), and what the operations that await a reply
leave alone (R140, R147). -/
namespace Sys2Proof.Machine
open Sys2Proof.Config

/-- Settles O25: the write comes first, and without an answer nothing follows it. -/
theorem unansweredWriteWaits : Obligations.UnansweredWriteWaits := by
  intro i s hi hp htx
  obtain ⟨cmd, tgt, pl, rest, -, hexec⟩ := exec_begins_with_sendFrame hi hp
  rw [hexec, sendFrame_noAnswer _ _ _ _ htx]
  rfl

/-! ## The check of a reply -/

/-- The code with which a handshake ends on a reply (42 R142, R143, R144). -/
def replyCode (f : Frame) : Code :=
  if f.cmd ≠ CMD_ACKNAK then .unexpectedResponse else if f.pl.head? = some ACK_BYTE then .ok else .nak

theorem replyCode_unexpected {f : Frame} (h : f.cmd ≠ CMD_ACKNAK) : replyCode f = .unexpectedResponse := if_pos h

theorem replyCode_negative {f : Frame} (hcmd : f.cmd = CMD_ACKNAK) (hpl : f.pl.head? ≠ some ACK_BYTE) :
    replyCode f = .nak := by
  rw [replyCode, if_neg (not_not.mpr hcmd), if_neg hpl]

theorem replyCode_positive {f : Frame} (h : positive f) : replyCode f = .ok := by
  rw [replyCode, if_neg (not_not.mpr h.1), if_pos h.2]

/-- Where the length field is right, the second check is one of the first payload byte, absent or not (42 R143). -/
theorem negative_iff {f : Frame} (hf : frameSound f = true) :
    (f.n.toNat = 0 ∨ byteAt f.pl 0 ≠ ACK_BYTE) ↔ f.pl.head? ≠ some ACK_BYTE := by
  have hlen : f.pl.length = f.n.toNat := by simpa [frameSound] using hf
  rw [← hlen]
  cases f.pl <;> simp [byteAt]

/-- The wait for an acknowledgement, by the frame its receive finds: a reply that passes the checks is handed on, any other
ends the operation with the code of its failure and the frame. -/
theorem awaitAck_done {u v : State} {f : Frame} {c : Nat} (h : receiveFrame u = .done (f, c) v) :
    awaitAck u =
      if replyCode f = .ok then .done f (setPhase .ackChk v)
      else .raised (finish { code := replyCode f, frame := some f } v) := by
  have hneg := negative_iff (frameSound_of_receiveFrame h).1
  unfold awaitAck ackVerdict replyCode
  rw [h]
  by_cases hcmd : f.cmd = CMD_ACKNAK <;> by_cases hpl : f.pl.head? = some ACK_BYTE <;> simp [hneg, hcmd, hpl]

section
variable {i : Instr} {s t : State} {n : Nat} {chunks : List (List Byte)} {later : List RxAnswer} {f : Frame} {c : Nat}
  (hr : Reading i s t n) (h : ReadsTo t chunks later) (hd : dec s.cfg.decodeOrder (bufAfter t chunks) = .frame f c)
include hr h hd

/-- An operation at its reads, where the bytes held after them decode to a frame: its receive hands that frame on, and the
operation's answer leaves the state after the reads with the frame's bytes dropped (41 R126). -/
theorem exec_reading_frame :
    ∃ u v, u.cfg = s.cfg ∧ receiveFrame u = .done (f, c) v ∧
      (∀ r, finish r v = finish r (afterReads t n chunks later ((bufAfter t chunks).drop c))) ∧
      (handshakeFields i ≠ none → exec i s =
        (awaitAck u).andThen fun f v => .next (respond none (some f) none none v)) ∧
      (∀ cmd tgt statusOf, queryFields i = some (cmd, tgt, statusOf) → exec i s =
        (queryReply u).andThen fun f v => statusReply statusOf f (setPhase .stDec v)) := by
  obtain ⟨hcfg, -, -⟩ := hr.same
  obtain ⟨u, hu, hstart, -, hack, hquery⟩ := exec_reading hr
  rw [← hcfg] at hd ⊢
  rcases hu with rfl | rfl
  · have hrecv := receiveFrame_outcome _ n chunks later hstart h
    rw [hd] at hrecv
    exact ⟨_, _, rfl, hrecv, fun _ => rfl, hack, hquery⟩
  · have hrecv := receiveFrame_outcome (setPhase .tx t) n chunks later hstart ⟨h.sizes, h.stream, h.demand⟩
    have hbuf : bufAfter (setPhase .tx t) chunks = bufAfter t chunks := rfl
    rw [hbuf, setPhase_cfg, hd] at hrecv
    exact ⟨setPhase .tx t, _, rfl, hrecv, fun _ => rfl, hack, hquery⟩

/-- An operation that checks its reply ends on a reply that fails a check, with that failure's code and the frame. -/
theorem exec_reading_rejects (hi : checksReply i s) (hf : replyCode f ≠ .ok) :
    exec i s = .next
      (finish { code := replyCode f, frame := some f } (afterReads t n chunks later ((bufAfter t chunks).drop c))) := by
  obtain ⟨u, v, hcfg, hrecv, hfinish, hack, hquery⟩ := exec_reading_frame hr h hd
  have hwait := awaitAck_done hrecv
  rw [if_neg hf, hfinish] at hwait
  rcases hi with hi | ⟨hi, hcheck⟩
  · rw [hack hi, hwait]
    rfl
  · obtain ⟨⟨cmd, tgt, statusOf⟩, e⟩ := Option.ne_none_iff_exists'.mp hi
    rw [hquery _ _ _ e, queryReply, hcfg, if_pos hcheck, hwait]
    rfl

/-- A handshake ends on every reply, with the reply's code and the frame. -/
theorem exec_reading_settles (hi : handshakeFields i ≠ none) :
    exec i s = .next
      (finish { code := replyCode f, frame := some f } (afterReads t n chunks later ((bufAfter t chunks).drop c))) := by
  by_cases hf : replyCode f = .ok
  · obtain ⟨u, v, -, hrecv, hfinish, hack, -⟩ := exec_reading_frame hr h hd
    rw [hack hi, awaitAck_done hrecv, if_pos hf, hf, ← hfinish]
    rfl
  · exact exec_reading_rejects hr h hd (.inl hi) hf

end

/-- Settles O37: a positive reply's code is OK. -/
theorem handshakeAcceptsPositive : Obligations.HandshakeAcceptsPositive := by
  intro i s t n chunks later f c hi hr h hd hf
  obtain ⟨-, hscratch, hreq⟩ := hr.same
  rw [exec_reading_settles hr h hd hi, replyCode_positive hf, ← hscratch, ← hreq]
  rfl

/-- Settles O38: the check of the command id. -/
theorem unexpectedReplyRejected : Obligations.UnexpectedReplyRejected := by
  intro i s t n chunks later f c hi hr h hd hcmd
  obtain ⟨-, hscratch, hreq⟩ := hr.same
  have hcode := replyCode_unexpected hcmd
  rw [exec_reading_rejects hr h hd hi (by rw [hcode]; nofun), hcode, ← hscratch, ← hreq]
  rfl

/-- Settles O39: the check of the first payload byte. -/
theorem negativeReplyRejected : Obligations.NegativeReplyRejected := by
  intro i s t n chunks later f c hi hr h hd hcmd hpl
  obtain ⟨-, hscratch, hreq⟩ := hr.same
  have hcode := replyCode_negative hcmd hpl
  rw [exec_reading_rejects hr h hd hi (by rw [hcode]; nofun), hcode, ← hscratch, ← hreq]
  rfl

/-! ## A frame that arrives at a blocked operation -/

/-- Settles O57: a wire row is the arrival of its bytes (log 7). -/
theorem arrivalGoesOnWithBlockedOperation : Obligations.ArrivalGoesOnWithBlockedOperation := by
  intro i s hi hp
  obtain ⟨⟨cmd, tgt, pl, c⟩, e⟩ := Option.ne_none_iff_exists'.mp hi
  obtain ⟨-, harrive⟩ := stepTakesArrivingBytes
  obtain ⟨-, hblocked⟩ := harrive (encode i) s
  rw [exec_wire e, ← encode_wire e]
  exact hblocked hp

/-- The bytes held after the one read that takes an arriving frame. -/
theorem bufAfter_deliver (bs : List Byte) (s : State) : bufAfter (deliver bs s) [bs] = s.rxbuf ++ bs := by
  simp [bufAfter]

/-- The state after the one read that takes an arriving frame, in the terms of the receive. -/
theorem Blocked.afterReads_eq {j : Instr} {s : State} {more : List Byte} (hb : Blocked s j more) (i : Instr)
    (buf : List Byte) : afterReads (deliver (encode i) s) s.reads [encode i] [] buf = afterArrival s i buf := by
  rw [afterArrival, ← hb.stream]
  rfl

/-- An operation that ends on an arriving frame takes its request off the port. -/
theorem Blocked.finish_afterArrival {j : Instr} {s : State} {more : List Byte} (hb : Blocked s j more) (i : Instr)
    (buf : List Byte) (r : Resp) :
    finish r (afterArrival s i buf) = { afterArrival s i buf with phase := .idle, req := more, resp := some r } := by
  rw [← dropRequest_of_decodeRequest hb.request]
  rfl

/-- A well-formed row's frame has a payload that fits its length byte, and the checksum byte of R100. -/
theorem wellFormed_wire {i : Instr} {cmd tgt : Byte} {pl : List Byte} {c : Byte} (hi : wireFields i = some (cmd, tgt, pl, c))
    (hwf : wellFormed i = true) : pl.length ≤ MAX_N ∧ c = csum cmd tgt (lenByte pl) pl := by
  cases i <;> simp only [wireFields, checked, Option.some.injEq, Prod.mk.injEq, reduceCtorEq] at hi <;>
    obtain ⟨rfl, rfl, rfl, rfl⟩ := hi <;>
    simp [wellFormed, payloadFits_iff, checksumRight_iff, MAX_N] at hwf ⊢ <;> tauto

/-- With nothing held, a well-formed row's bytes decode to its own fields, and nothing is left of them (40 R106). -/
theorem dec_encode_wire (o : DecodeOrder) {i : Instr} {cmd tgt : Byte} {pl held : List Byte} {c : Byte}
    (hi : wireFields i = some (cmd, tgt, pl, c)) (hwf : wellFormed i = true) (hheld : held = []) :
    dec o (held ++ encode i) = .frame { cmd := cmd, tgt := tgt, n := BitVec.ofNat 8 pl.length, pl := pl } (5 + pl.length) ∧
      (held ++ encode i).drop (5 + pl.length) = [] := by
  obtain ⟨hl, rfl⟩ := wellFormed_wire hi hwf
  have henc : held ++ encode i = enc cmd tgt pl ++ [] := by rw [hheld, encode_wire hi, List.append_nil]; rfl
  rw [henc]
  exact ⟨codecRoundTrip o cmd tgt pl [] hl, by simp [Nat.add_comm]⟩

/-- A blocked RECEIVE ends on an arriving frame that makes what is held a frame. -/
theorem Blocked.exec_receive {i : Instr} {s : State} {more : List Byte} (hb : Blocked s .receive more)
    (hi : wireFields i ≠ none) (hl : (encode i).length ≤ s.cfg.scratchSize) {f : Frame} {c : Nat}
    (hd : dec s.cfg.decodeOrder (s.rxbuf ++ encode i) = .frame f c) :
    exec i s = .next (finish { code := .ok, frame := some f, consumed := some (BitVec.ofNat 9 c) }
      (afterArrival s i ((s.rxbuf ++ encode i).drop c))) := by
  obtain ⟨hstart, -⟩ := hb.reading (.inl rfl) (encode i)
  rw [← bufAfter_deliver] at hd
  rw [hb.exec_wire hi (.inl rfl), exec_receive_frame hstart (hb.readsTo (encode_wire_ne_nil hi) hl) hd, bufAfter_deliver,
    hb.afterReads_eq]

/-- A blocked handshake ends on an arriving frame that makes what is held a frame. -/
theorem Blocked.exec_handshake {i j : Instr} {s : State} {more : List Byte} (hb : Blocked s j more)
    (hi : wireFields i ≠ none) (hj : handshakeFields j ≠ none) (hl : (encode i).length ≤ s.cfg.scratchSize) {f : Frame}
    {c : Nat} (hd : dec s.cfg.decodeOrder (s.rxbuf ++ encode i) = .frame f c) :
    exec i s = .next (finish { code := replyCode f, frame := some f } (afterArrival s i ((s.rxbuf ++ encode i).drop c))) := by
  have hrecv : receives j := .inr (.inl hj)
  rw [← bufAfter_deliver] at hd
  rw [hb.exec_wire hi hrecv, exec_reading_settles (hb.reading hrecv (encode i))
    (hb.readsTo (encode_wire_ne_nil hi) hl) hd hj, bufAfter_deliver, hb.afterReads_eq]

/-- Settles O48: the arriving frame is the receive's one chunk; a well-formed one is decoded as it was laid out. -/
theorem arrivingFrameAnswersReceive : Obligations.ArrivingFrameAnswersReceive := by
  intro i s more hi hb hl
  refine ⟨fun f c hd => ?_, fun cmd tgt pl c hfields hwf hempty => ?_⟩
  · rw [hb.exec_receive hi hl hd, hb.finish_afterArrival]
  · obtain ⟨hdec, hdrop⟩ := dec_encode_wire s.cfg.decodeOrder hfields hwf hempty
    rw [hb.exec_receive hi hl hdec, hdrop, hb.finish_afterArrival]

/-- A well-formed row with the acknowledge command id is ACK, "A" first, or ACKNAK, "A" not first (42 R142, R143). -/
theorem wellFormed_acknowledgement {i : Instr} {tgt : Byte} {pl : List Byte} {c : Byte}
    (hi : wireFields i = some (CMD_ACKNAK, tgt, pl, c)) (hwf : wellFormed i = true) :
    (∃ rest, i = .ack tgt rest c) ∨ i = .acknak tgt pl c := by
  cases i with
  | ack => cases hi; exact .inl ⟨_, rfl⟩
  | acknak => cases hi; exact .inr rfl
  | frame => cases hi; simp [wellFormed, generic] at hwf
  | _ => simp [wireFields, checked, CMD_ACKNAK, CMD_POWER, CMD_PANEL] at hi

/-- Settles O49: the reply's code, and what it is for the well-formed rows. -/
theorem arrivingReplySettlesHandshake : Obligations.ArrivingReplySettlesHandshake := by
  intro i j s more hi hj hb hl
  refine ⟨fun f c hd => ?_, fun cmd tgt pl c hfields hwf hempty => ?_⟩
  · rw [hb.exec_handshake hi hj hl hd, hb.finish_afterArrival]
    rfl
  · obtain ⟨hdec, hdrop⟩ := dec_encode_wire s.cfg.decodeOrder hfields hwf hempty
    refine ⟨replyCode { cmd := cmd, tgt := tgt, n := BitVec.ofNat 8 pl.length, pl := pl }, ?_, ?_, ?_, ?_⟩
    · rw [hb.exec_handshake hi hj hl hdec, hdrop, hb.finish_afterArrival]
    · rintro ⟨rest, rfl⟩
      cases hfields
      exact replyCode_positive ⟨rfl, rfl⟩
    · rintro rfl
      cases hfields
      exact replyCode_negative rfl (by simpa using (Bool.and_eq_true_iff.mp hwf).2)
    · intro hack hnak
      refine replyCode_unexpected ?_
      rintro rfl
      exact (wellFormed_acknowledgement hfields hwf).elim (fun ⟨rest, h⟩ => hack rest h) hnak

/-! ## The frame of the operations that await a reply -/

/-- A write uses the TX port's answers from the front and adds to the wire; the parameters and the line are as before. -/
theorem AfterWrite.frame {i : Instr} {s w : State} (h : AfterWrite i s w) :
    w.cfg = s.cfg ∧ w.line = s.line ∧ w.tx <:+ s.tx ∧ s.wire <+: w.wire := by
  cases h with
  | none => exact ⟨rfl, rfl, List.suffix_refl _, List.prefix_refl _⟩
  | written htx _ => exact ⟨rfl, rfl, htx ▸ List.suffix_cons _ _, List.prefix_append _ _⟩

/-- After its write, an operation that is not DECODE leaves the TX port, the wire and the line alone. -/
theorem RunsNotDecode.keeps {i : Instr} {s t : State} (h : RunsNotDecode i s t) : ∃ w, AfterWrite i s w ∧ Keeps w t := by
  cases h with
  | blockedTx => exact ⟨s, .none, rfl, rfl, rfl, rfl, List.suffix_refl _⟩
  | answered hw hu => exact ⟨_, hw, hu.keeps.trans ⟨rfl, rfl, rfl, rfl, List.suffix_refl _⟩⟩
  | @stopped w _ hw hr =>
    refine ⟨w, hw, ?_⟩
    have hkeeps := receiveFrame_keeps w
    rcases hr with hr | hr <;> rwa [hr] at hkeeps

/-- An operation that is not DECODE ends, or it waits for its write with nothing else changed, or for its read. -/
theorem RunsNotDecode.ends_or_blocks {i : Instr} {s t : State} (h : RunsNotDecode i s t) :
    (t.phase = .idle ∧ t.req = dropRequest s.req ∧ t.resp ≠ none) ∨ t = { s with phase := .tx } ∨
      (t.phase = .rxWait ∧ t.req = s.req ∧ t.resp = s.resp) := by
  cases h with
  | blockedTx => exact .inr (.inl rfl)
  | answered hw hu => exact .inl ⟨rfl, by rw [finish_req, hu.req_eq, hw.req_resp.1], Option.some_ne_none _⟩
  | @stopped w _ hw hr =>
    obtain ⟨hreq, hresp⟩ := hw.req_resp
    have hends := receiveFrame_ends w
    rw [← hreq, ← hresp]
    rcases hr with hr | hr <;> rw [hr] at hends
    · obtain ⟨hp, hreq, code, -, hresp⟩ := hends
      exact .inl ⟨hp, hreq, by simp [hresp]⟩
    · exact .inr (.inr hends)

/-- Settles O45: what the write and the receive after it leave alone, and how they end. -/
theorem awaitingOpsFrameCondition : Obligations.AwaitingOpsFrameCondition := by
  intro i s t hi h
  have hruns := exec_runsNotDecode (wireFields_of_receives (.inr hi)) (ne_decode_of_receives (.inr hi)) h
  obtain ⟨w, hw, hkeeps⟩ := hruns.keeps
  rw [hkeeps.cfg, hkeeps.line, hkeeps.tx, hkeeps.wire]
  obtain ⟨hcfg, hline, htx, hwire⟩ := hw.frame
  exact ⟨hcfg, hline, htx, hwire, hruns.ends_or_blocks⟩

/-! ## The state table of the handshake -/

section
variable (cmd tgt : Byte) (pl : List Byte)

/-- The state table leads from the one state to the other in some number of transitions. -/
abbrev FsmLeads : Fsm → Fsm → Prop := Relation.ReflTransGen fun m m' => fsmStep cmd tgt pl m = m'

variable {cmd tgt pl}

theorem FsmLeads.exists_fsmRun {m m' : Fsm} (h : FsmLeads cmd tgt pl m m') : ∃ n, fsmRun cmd tgt pl n m = m' := by
  induction h using Relation.ReflTransGen.head_induction_on with
  | refl => exact ⟨0, rfl⟩
  | head hstep _ ih =>
    obtain ⟨n, hn⟩ := ih
    exact ⟨n + 1, by rw [fsmRun, hstep, hn]⟩

@[simp] theorem setPhase_setPhase (p q : Phase) (s : State) : setPhase p (setPhase q s) = setPhase p s := rfl

/-- The transition into DONE and the one out of it end the operation. -/
theorem fsmLeads_finish {m : Fsm} {r : Resp} {s : State} (h : fsmStep cmd tgt pl m = fsmDone r s) :
    FsmLeads cmd tgt pl m { st := finish r s, held := none } :=
  .head h (.single rfl)

/-- The table's state where a receive has ended: in ACK_CHK with the frame, or with the operation ended or waiting. -/
def fsmAfter : Stage (Frame × Nat) → Fsm
  | .done r u => { st := setPhase .ackChk u, held := some r.1 }
  | .raised u => { st := u, held := none }
  | .waits u => { st := u, held := none }

/-- The rows of RX_DEC do what a decode of the read loop does. -/
theorem decodeThen_fsmLeads {more : State → Stage (Frame × Nat)} (s : State)
    (hmore : FsmLeads cmd tgt pl { st := setPhase .rxWait s, held := none } (fsmAfter (more (setPhase .rxWait s)))) :
    FsmLeads cmd tgt pl { st := setPhase .rxDec s, held := none } (fsmAfter (decodeThen more s)) := by
  rw [decodeThen_eq]
  cases hd : dec s.cfg.decodeOrder s.rxbuf with
  | incomplete => exact .head (by simp [fsmStep, hd]) hmore
  | invalidHeader => exact fsmLeads_finish (by simp [fsmStep, hd])
  | invalidChecksum => exact fsmLeads_finish (by simp [fsmStep, hd])
  | frame f c => exact .single (by simp [fsmStep, hd, fsmAfter])

/-- The rows of RX_WAIT and RX_DEC do what the read loop does. -/
theorem readLoop_fsmLeads (k : Nat) : ∀ s : State, s.phase = .rxWait →
    FsmLeads cmd tgt pl { st := s, held := none } (fsmAfter (readLoop k s)) := by
  induction k with
  | zero => exact fun s _ => .refl
  | succ k ih =>
    intro s hp
    unfold readLoop
    rw [readTurn_eq]
    rcases hrx : s.rx with _ | ⟨⟨b, bs⟩ | _ | _, later⟩ <;> dsimp only
    · exact .refl
    · exact .head (by simp [fsmStep, hp, rxRead, hrx, fifoAppend, fillScratch, afterChunk])
        (decodeThen_fsmLeads (afterChunk _ _ s) (ih _ rfl))
    · exact fsmLeads_finish (by simp [fsmStep, hp, rxRead, hrx])
    · exact fsmLeads_finish (by simp [fsmStep, hp, rxRead, hrx])

/-- The rows of ACK_CHK do what the check of the reply and the response after it do. -/
theorem awaitAck_fsmLeads {w t : State}
    (h : (awaitAck w).andThen (fun f v => .next (respond none (some f) none none v)) = .next t) :
    FsmLeads cmd tgt pl (fsmAfter (receiveFrame w)) { st := t, held := none } := by
  unfold awaitAck at h
  cases hr : receiveFrame w with
  | raised u => rw [hr] at h; cases h; exact .refl
  | waits u => rw [hr] at h; cases h; exact .refl
  | done r u =>
    rw [hr] at h
    dsimp only at h
    cases hv : ackVerdict r.1 <;> rw [hv] at h <;> cases h <;>
      exact fsmLeads_finish (s := setPhase .ackChk u) (by simp [fsmAfter, fsmStep, hv])

/-- The rows of RX_WAIT and RX_DEC do what `RECEIVE_FRAME` does, from its outstanding read or from its first decode. -/
theorem receiveFrame_fsmLeads (s : State) :
    FsmLeads cmd tgt pl { st := if s.phase = .rxWait then s else setPhase .rxDec { s with reads := 0 }, held := none }
      (fsmAfter (receiveFrame s)) := by
  unfold receiveFrame
  split_ifs with hp
  · exact readLoop_fsmLeads _ s hp
  · exact decodeThen_fsmLeads { s with reads := 0 } (readLoop_fsmLeads _ _ rfl)

/-- From TX on, the rows of the table do what a handshake does that starts. -/
theorem handshake_fsmLeads {s t : State} (hp : s.phase ≠ .rxWait) (h : handshake cmd tgt pl s = .next t) :
    FsmLeads cmd tgt pl { st := setPhase .tx s, held := none } { st := t, held := none } := by
  rw [handshake, sendThen, if_neg hp] at h
  rcases htx : s.tx with _ | ⟨_ | p, later⟩
  · rw [sendFrame_noAnswer _ _ _ _ htx] at h
    cases h
    exact .refl
  · rw [sendFrame_ok _ _ _ _ _ htx] at h
    refine .head ?_ ((receiveFrame_fsmLeads _).trans (awaitAck_fsmLeads h))
    simp [fsmStep, txWriteAll, htx]
  · rw [sendFrame_ioErr _ _ _ _ _ _ htx] at h
    cases h
    exact fsmLeads_finish (s := { s with phase := .tx, tx := later, wire := _ })
      (by simp [fsmStep, txWriteAll, htx, setPhase])

end

/-- Settles O46: from IDLE and TX the table does what the write and the reply after it do, from RX_WAIT what the reply
does. -/
theorem fsmRefinesHandshake : Obligations.FsmRefinesHandshake := by
  intro i cmd tgt pl s t hi hp h
  rw [exec_handshake hi] at h
  suffices hleads : FsmLeads cmd tgt pl { st := s, held := none } { st := t, held := none } by
    obtain ⟨n, hn⟩ := hleads.exists_fsmRun
    exact ⟨n, by rw [hn]⟩
  simp only [restingPhase, decide_eq_true_eq] at hp
  rcases hp with hp | hp | hp
  · exact .head (by simp [fsmStep, hp]) (handshake_fsmLeads (by simp [hp]) h)
  · have hs : setPhase .tx s = s := by rw [← hp]; rfl
    simpa only [hs] using handshake_fsmLeads (by simp [hp]) h
  · rw [handshake, sendThen, if_pos hp] at h
    have hrecv := receiveFrame_fsmLeads (cmd := cmd) (tgt := tgt) (pl := pl) s
    rw [if_pos hp] at hrecv
    exact hrecv.trans (awaitAck_fsmLeads h)

end Sys2Proof.Machine
end

section
/-! PROOFS. The status queries (43_dispatch.md section 1): the two status decodes (R167, R168), and how a query whose reply
passes the check, where there is one, is settled by that reply (R165, 60_exceptions R204). -/
namespace Sys2Proof.Machine
open Sys2Proof.Config

/-! ## The status decodes -/

/-- A power status is one of two bytes (43 R167). -/
theorem powerStatus_eq_none {b : Byte} (hon : b ≠ ST_POWER_ON) (hoff : b ≠ ST_POWER_OFF) : powerStatus b = none := by
  rw [powerStatus, if_neg hon, if_neg hoff]

/-- A panel status is one of two bytes (43 R168). -/
theorem panelStatus_eq_none {b : Byte} (hoff : b ≠ ST_PANEL_OFF) (hon : b ≠ ST_PANEL_ON) : panelStatus b = none := by
  rw [panelStatus, if_neg hoff, if_neg hon]

theorem powerBit_eq_none {b : Byte} (hon : b ≠ ST_POWER_ON) (hoff : b ≠ ST_POWER_OFF) : powerBit b = none := by
  rw [powerBit, powerStatus_eq_none hon hoff, Option.map_none]

theorem panelBit_eq_none {b : Byte} (hoff : b ≠ ST_PANEL_OFF) (hon : b ≠ ST_PANEL_ON) : panelBit b = none := by
  rw [panelBit, panelStatus_eq_none hoff hon, Option.map_none]

/-- Settles O42: the two meanings of each decode by evaluation, and no other byte has one. -/
theorem statusDecodesAsymmetric : Obligations.StatusDecodesAsymmetric :=
  ⟨⟨rfl, rfl, rfl, rfl, fun _ h0 h1 => ⟨powerStatus_eq_none h0 h1, powerBit_eq_none h0 h1⟩⟩,
    ⟨rfl, rfl, rfl, rfl, fun _ h0 h1 => ⟨panelStatus_eq_none h0 h1, panelBit_eq_none h0 h1⟩⟩⟩

/-- The two decodes have the same invalid bytes. -/
theorem statusOf_eq_none {j : Instr} {cmd tgt b : Byte} {statusOf : Byte → Option (BitVec 1)}
    (hj : queryFields j = some (cmd, tgt, statusOf)) (h0 : b ≠ 0x00) (h1 : b ≠ 0x01) : statusOf b = none := by
  cases j with
  | aQueryPower => cases hj; exact powerBit_eq_none h0 h1
  | aQueryPanel => cases hj; exact panelBit_eq_none h0 h1
  | _ => cases hj

/-! ## The answer of a query, by its reply -/

/-- A byte that is there is read without the default. -/
theorem byteAt_eq_of_getElem? {bs : List Byte} {k : Nat} {b : Byte} (h : bs[k]? = some b) : byteAt bs k = b := by
  rw [byteAt, List.getD_eq_getElem?_getD, h, Option.getD_some]

/-- The answer of a query sees of the state it ends in only what ending an operation leaves. -/
theorem statusReply_congr (statusOf : Byte → Option (BitVec 1)) (f : Frame) {u v : State}
    (h : ∀ r, finish r u = finish r v) : statusReply statusOf f u = statusReply statusOf f v := by
  simp only [statusReply, raise, respond, h]

section
variable {statusOf : Byte → Option (BitVec 1)} {f : Frame} {s : State}

/-- A reply without a payload byte 2 is the fault (60 R204). -/
theorem statusReply_short (hn : f.n.toNat < STATUS_OFFSET + 1) : statusReply statusOf f s = .fault (.shortStatus f) :=
  if_pos hn

variable {b : Byte} (hn : STATUS_OFFSET < f.n.toNat) (hb : f.pl[STATUS_OFFSET]? = some b)
include hn hb

/-- A reply whose payload byte 2 is a status ends the query with that status. -/
theorem statusReply_valid {v : BitVec 1} (hv : statusOf b = some v) :
    statusReply statusOf f s = .next (finish { code := .ok, frame := some f, status := some v } s) := by
  rw [statusReply, if_neg (by omega), byteAt_eq_of_getElem? hb, hv]
  rfl

/-- A reply whose payload byte 2 is no status ends the query with that byte. -/
theorem statusReply_invalid (hv : statusOf b = none) :
    statusReply statusOf f s = .next (finish { code := .invalidStatus, frame := some f, badByte := some b } s) := by
  rw [statusReply, if_neg (by omega), byteAt_eq_of_getElem? hb, hv]
  rfl

end

/-! ## A query at its reads -/

/-- The reply of a query, where it passes the check that is asked of it, is handed on; only PHASE tells whether there was
a check. -/
theorem queryReply_done {u v : State} {f : Frame} {c : Nat} (h : receiveFrame u = .done (f, c) v)
    (hf : u.cfg.queryAckCheck = true → positive f) :
    ∃ w, queryReply u = .done f w ∧ ∀ r, finish r w = finish r v := by
  by_cases hcheck : u.cfg.queryAckCheck = true
  · refine ⟨setPhase .ackChk v, ?_, fun r => finish_setPhase r .ackChk v⟩
    rw [queryReply, if_pos hcheck, awaitAck_done h, if_pos (replyCode_positive (hf hcheck))]
  · refine ⟨v, ?_, fun _ => rfl⟩
    rw [queryReply, if_neg hcheck, h]

section
variable {i : Instr} {s t : State} {n : Nat} {chunks : List (List Byte)} {later : List RxAnswer}

/-- The end of an operation after its reads, with SCRATCH and the request port those before its write. -/
theorem Reading.finish_afterReads (hr : Reading i s t n) (buf : List Byte) (r : Resp) :
    finish r (afterReads t n chunks later buf) =
      { t with
        rxbuf := buf, scratch := scratchAfter chunks s.scratch, phase := .idle, req := dropRequest s.req,
        reads := n + chunks.length, rx := later, resp := some r } := by
  obtain ⟨-, hscratch, hreq⟩ := hr.same
  rw [← hscratch, ← hreq]
  rfl

/-- A query at its reads, where the bytes held after them decode to a reply that passes the check, where there is one, is
answered by the status decode of that reply, its bytes dropped from RXBUF. -/
theorem exec_reading_query {f : Frame} {c : Nat} {cmd tgt : Byte} {statusOf : Byte → Option (BitVec 1)}
    (hr : Reading i s t n) (h : ReadsTo t chunks later) (hd : dec s.cfg.decodeOrder (bufAfter t chunks) = .frame f c)
    (hi : queryFields i = some (cmd, tgt, statusOf)) (hf : s.cfg.queryAckCheck = true → positive f) :
    exec i s = statusReply statusOf f (afterReads t n chunks later ((bufAfter t chunks).drop c)) := by
  obtain ⟨u, v, hcfg, hrecv, hfinish, -, hquery⟩ := exec_reading_frame hr h hd
  obtain ⟨w, hreply, hw⟩ := queryReply_done hrecv (hcfg ▸ hf)
  rw [hquery _ _ _ hi, hreply]
  refine statusReply_congr statusOf f fun r => ?_
  rw [finish_setPhase, hw, hfinish]

end

/-- Settles O40: the power decode of payload byte 2. -/
theorem queryPowerReportsStatus : Obligations.QueryPowerReportsStatus := by
  intro tgt s t n chunks later f c hr h hd hf ended
  have hended (r : Resp) : finish r (afterReads t n chunks later ((bufAfter t chunks).drop c)) = ended r :=
    hr.finish_afterReads _ r
  rw [exec_reading_query hr h hd rfl hf]
  simp only [← hended]
  exact ⟨statusReply_short, fun hn hb => statusReply_valid hn hb rfl, fun hn hb => statusReply_valid hn hb rfl,
    fun _ hn hb hon hoff => statusReply_invalid hn hb (powerBit_eq_none hon hoff)⟩

/-- Settles O41: the panel decode of payload byte 2, the bytes the other way round. -/
theorem queryPanelReportsStatus : Obligations.QueryPanelReportsStatus := by
  intro tgt s t n chunks later f c hr h hd hf ended
  have hended (r : Resp) : finish r (afterReads t n chunks later ((bufAfter t chunks).drop c)) = ended r :=
    hr.finish_afterReads _ r
  rw [exec_reading_query hr h hd rfl hf]
  simp only [← hended]
  exact ⟨statusReply_short, fun hn hb => statusReply_valid hn hb rfl, fun hn hb => statusReply_valid hn hb rfl,
    fun _ hn hb hoff hon => statusReply_invalid hn hb (panelBit_eq_none hoff hon)⟩

/-! ## A reply that arrives at a blocked query -/

section
variable {i j : Instr} {s : State} {more : List Byte} {f : Frame} {c : Nat} (hb : Blocked s j more)
  (hi : wireFields i ≠ none) (hl : (encode i).length ≤ s.cfg.scratchSize)
  (hd : dec s.cfg.decodeOrder (s.rxbuf ++ encode i) = .frame f c)
include hb hi hl hd

/-- A blocked query that checks its reply ends on one that fails a check, with that failure's code and the frame. -/
theorem Blocked.exec_query_rejects (hj : queryFields j ≠ none) (hcheck : s.cfg.queryAckCheck = true)
    (hf : replyCode f ≠ .ok) :
    exec i s = .next (finish { code := replyCode f, frame := some f } (afterArrival s i ((s.rxbuf ++ encode i).drop c))) := by
  have hrecv : receives j := .inr (.inr hj)
  rw [← bufAfter_deliver] at hd
  rw [hb.exec_wire hi hrecv, exec_reading_rejects (hb.reading hrecv (encode i))
    (hb.readsTo (encode_wire_ne_nil hi) hl) hd (.inr ⟨hj, hcheck⟩) hf, bufAfter_deliver, hb.afterReads_eq]

/-- A blocked query is answered by the status decode of an arriving reply that passes the check, where there is one. -/
theorem Blocked.exec_query_accepts {cmd tgt : Byte} {statusOf : Byte → Option (BitVec 1)}
    (hj : queryFields j = some (cmd, tgt, statusOf)) (hf : s.cfg.queryAckCheck = true → positive f) :
    exec i s = statusReply statusOf f (afterArrival s i ((s.rxbuf ++ encode i).drop c)) := by
  have hrecv : receives j := .inr (.inr (by rw [hj]; nofun))
  rw [← bufAfter_deliver] at hd
  rw [hb.exec_wire hi hrecv, exec_reading_query (hb.reading hrecv (encode i))
    (hb.readsTo (encode_wire_ne_nil hi) hl) hd hj hf, bufAfter_deliver, hb.afterReads_eq]

end

/-- Settles O58: the arriving frame is the reply; it fails the check, or its payload byte 2 is read as the query's status. -/
theorem arrivingReplySettlesQuery : Obligations.ArrivingReplySettlesQuery := by
  intro i j s more f c hi hj hb hl hd ended
  have hended (r : Resp) : finish r (afterArrival s i ((s.rxbuf ++ encode i).drop c)) = ended r :=
    hb.finish_afterArrival i _ r
  simp only [← hended]
  refine ⟨fun hcheck hcmd => ?_, fun hcheck hcmd hpl => ?_, fun hf => ?_⟩
  · have hcode := replyCode_unexpected hcmd
    rw [hb.exec_query_rejects hi hl hd hj hcheck (by rw [hcode]; nofun), hcode]
  · have hcode := replyCode_negative hcmd hpl
    rw [hb.exec_query_rejects hi hl hd hj hcheck (by rw [hcode]; nofun), hcode]
  · obtain ⟨⟨cmd, tgt, statusOf⟩, e⟩ := Option.ne_none_iff_exists'.mp hj
    rw [hb.exec_query_accepts hi hl hd e hf]
    refine ⟨statusReply_short, fun b hn hbyte => ⟨?power, ?panel, fun h0 h1 => ?invalid⟩⟩
    case invalid => exact statusReply_invalid hn hbyte (statusOf_eq_none e h0 h1)
    all_goals
      rintro t rfl hvalid
      cases e
      refine statusReply_valid hn hbyte ?_
      rcases hvalid with rfl | rfl <;> rfl

end Sys2Proof.Machine
end

section
/-! PROOFS. Exceptions and waits (60_exceptions.md): the entry of an error (R201), the only stops of a meaning and of a step
(R203, R204), a frame that arrives with no read outstanding (R207), and what survives a wait (R214). -/
namespace Sys2Proof.Machine
open Sys2Proof.Config

/-! ## The entry of an error, and a frame with no read outstanding -/

/-- Settles O56: `raise` is its definition, written out. -/
theorem errorEntry : Obligations.ErrorEntry := fun _ _ _ => rfl

/-- Settles O47: a wire row is the arrival of its frame, and outside RX_WAIT an arrival only extends the stream. -/
theorem arrivingFrameWaitsInStream : Obligations.ArrivingFrameWaitsInStream := by
  intro i s cmd tgt pl c hi hp
  obtain ⟨-, harrive⟩ := stepTakesArrivingBytes
  obtain ⟨hwaits, -⟩ := harrive (frameBytes cmd tgt pl c) s
  rw [exec_wire hi]
  exact hwaits hp

/-! ## A blocked operation whose port does not answer -/

/-- An operation in RX_WAIT ends or waits on where its receive does. -/
theorem exec_stops_of_receiveFrame {i : Instr} {s t : State} (hi : receives i) (hp : s.phase = .rxWait)
    (h : (receiveFrame s).Stops t) : exec i s = .next t := by
  rcases hi with rfl | hk | hk
  · exact h.andThen _
  · obtain ⟨⟨cmd, tgt, pl⟩, e⟩ := Option.ne_none_iff_exists'.mp hk
    rw [exec_handshake e, handshake, sendThen, if_pos hp]
    exact (awaitAck_stops h).andThen _
  · obtain ⟨⟨cmd, tgt, statusOf⟩, e⟩ := Option.ne_none_iff_exists'.mp hk
    rw [exec_query e, query, sendThen, if_pos hp]
    exact (queryReply_stops h).andThen _

/-- A receive whose outstanding read has no answer waits on as it stands (41 R127). -/
theorem receiveFrame_noAnswer {s : State} (hp : s.phase = .rxWait) (hrx : s.rx = []) : receiveFrame s = .waits s := by
  rw [receiveFrame, if_pos hp]
  exact readLoop_noAnswer _ s hrx

/-- Settles O6: the step is the operation, which stands at its write or at its read and finds no answer. -/
theorem blockedOperationWaits : Obligations.BlockedOperationWaits := by
  intro s i rest hok hline hreq
  rw [step_request hok hline hreq]
  refine ⟨fun hp htx hsent => ?_, fun hp hrx hi => ?_⟩
  · rw [unansweredWriteWaits i s hsent (by rw [hp]; nofun) htx, ← hp]
  · exact exec_stops_of_receiveFrame hi hp (.inr (receiveFrame_noAnswer hp hrx))

/-! ## The stops of a meaning -/

/-- The outcome has a next state, or is the fault of a short reply of which `P` holds. -/
inductive NextOrShort (P : Frame → Prop) : Outcome → Prop
  | next (t : State) : NextOrShort P (.next t)
  | short {f : Frame} (h : P f) : NextOrShort P (.fault (.shortStatus f))

theorem NextOrShort.ne_refused {P : Frame → Prop} {o : Outcome} (h : NextOrShort P o) {r : Refusal} : o ≠ .refused r := by
  cases h <;> nofun

theorem NextOrShort.of_fault {P : Frame → Prop} {r : Fault} (h : NextOrShort P (.fault r)) :
    ∃ f, r = .shortStatus f ∧ P f := by
  cases h with
  | short h => exact ⟨_, rfl, h⟩

theorem NextOrShort.imp {P Q : Frame → Prop} {o : Outcome} (h : NextOrShort P o) (hPQ : ∀ f, P f → Q f) :
    NextOrShort Q o := by
  cases h with
  | next t => exact .next t
  | short h => exact .short (hPQ _ h)

theorem andThen_nextOrShort {P : Frame → Prop} {α : Type} {x : Stage α} {rest : α → State → Outcome}
    (hrest : ∀ a u, x = .done a u → NextOrShort P (rest a u)) : NextOrShort P (x.andThen rest) := by
  cases x with
  | done a u => exact hrest a u rfl
  | raised t => exact .next t
  | waits t => exact .next t

theorem afterWrite_of_sendFrame {i : Instr} {cmd tgt : Byte} {pl : List Byte} {a : Unit} {s w : State}
    (hsent : sentBytes i = enc cmd tgt pl) (h : sendFrame cmd tgt pl s = .done a w) : AfterWrite i s w := by
  rcases htx : s.tx with _ | ⟨_ | p, later⟩
  · rw [sendFrame_noAnswer _ _ _ _ htx] at h
    cases h
  · rw [sendFrame_ok _ _ _ _ _ htx, ← hsent] at h
    cases h
    exact .written htx (List.prefix_refl _)
  · rw [sendFrame_ioErr _ _ _ _ _ _ htx] at h
    cases h

theorem sendThen_nextOrShort {P : Frame → Prop} {i : Instr} {cmd tgt : Byte} {pl : List Byte} {reply : State → Outcome}
    {s : State} (hsent : sentBytes i = enc cmd tgt pl) (hreply : ∀ w, AfterWrite i s w → NextOrShort P (reply w)) :
    NextOrShort P (sendThen cmd tgt pl reply s) := by
  unfold sendThen
  split
  · exact hreply s .none
  · exact andThen_nextOrShort fun _ w h => hreply w (afterWrite_of_sendFrame hsent h)

theorem positive_of_replyCode {f : Frame} (h : replyCode f = .ok) : positive f := by
  unfold replyCode at h
  split_ifs at h with hcmd hpl
  exact ⟨not_not.mp hcmd, hpl⟩

/-- A query is handed the frame of its receive, and one that has passed the check, where there is one (43 R165). -/
theorem queryReply_eq_done {w v : State} {f : Frame} (h : queryReply w = .done f v) :
    (∃ c u, receiveFrame w = .done (f, c) u) ∧ (w.cfg.queryAckCheck = true → positive f) := by
  rcases (receiveFrame w).stops_or_done with ⟨t, hr⟩ | ⟨⟨f', c⟩, u, hr⟩
  · rcases queryReply_stops hr with e | e <;> cases e.symm.trans h
  · have hf : w.cfg.queryAckCheck = true → positive f' := by
      intro hcheck
      rw [queryReply, if_pos hcheck, awaitAck_done hr] at h
      split_ifs at h with hcode
      exact positive_of_replyCode hcode
    obtain ⟨v', e, -⟩ := queryReply_done hr hf
    cases e.symm.trans h
    exact ⟨⟨c, u, hr⟩, hf⟩

/-- The frame a receive hands over stands, encoded, at the front of the bytes held and waiting in the stream. -/
theorem enc_prefix_of_receiveFrame {w u : State} {f : Frame} {c : Nat} (h : receiveFrame w = .done (f, c) u) :
    enc f.cmd f.tgt f.pl <+: w.rxbuf ++ streamBytes w.rx := by
  obtain ⟨buf, hd, hprefix⟩ := receiveFrame_decodedFrom h
  obtain ⟨hbuf, -, -⟩ := decAcceptsOnlyEncodings _ _ _ _ hd
  exact (hbuf ▸ List.prefix_append _ _).trans hprefix

/-- The status decode of a query's reply stops on a short reply only. -/
theorem statusReply_nextOrShort (statusOf : Byte → Option (BitVec 1)) (f : Frame) (s : State) :
    NextOrShort (fun f' => f' = f ∧ f.n.toNat < STATUS_OFFSET + 1) (statusReply statusOf f s) := by
  unfold statusReply
  split
  · exact .short ⟨rfl, ‹_›⟩
  · split <;> exact .next _

/-- Further bytes behind those that hold a short reply do not matter. -/
theorem ShortReply.mono {s : State} {more more' : List Byte} {f : Frame} (h : ShortReply s more f) (hm : more <+: more') :
    ShortReply s more' f := by
  obtain ⟨hn, hf, hbytes⟩ := h
  exact ⟨hn, hf, hbytes.trans ((List.prefix_append_right_inj _).mpr hm)⟩

/-- A host operation stops on a query's short reply only. -/
theorem exec_request_nextOrShort {i : Instr} (hi : wireFields i = none) (s : State) :
    NextOrShort (fun f => queryFields i ≠ none ∧ ShortReply s [] f) (exec i s) := by
  rcases instr_kinds i with ⟨cmd, tgt, pl, rfl⟩ | rfl | rfl | hk | hk | hk | hk
  · exact .next _
  · change NextOrShort _ (execDecode s)
    rw [execDecode_eq]
    split <;> exact .next _
  · exact andThen_nextOrShort fun _ _ _ => .next _
  · obtain ⟨⟨cmd, tgt, pl⟩, e⟩ := Option.ne_none_iff_exists'.mp hk
    rw [exec_handshake e]
    exact sendThen_nextOrShort (sentBytes_handshake e) fun _ _ => andThen_nextOrShort fun _ _ _ => .next _
  · obtain ⟨⟨cmd, tgt, statusOf⟩, e⟩ := Option.ne_none_iff_exists'.mp hk
    rw [exec_query e]
    refine sendThen_nextOrShort (sentBytes_query e) fun w hw => andThen_nextOrShort fun f v hf => ?_
    refine (statusReply_nextOrShort statusOf f _).imp ?_
    rintro _ ⟨rfl, hn⟩
    obtain ⟨⟨c, u, hr⟩, hpos⟩ := queryReply_eq_done hf
    have hbytes := enc_prefix_of_receiveFrame hr
    refine ⟨hk, hn, ?_, ?_⟩
    · cases hw <;> exact hpos
    · rw [List.append_nil]
      cases hw <;> exact hbytes
  · obtain ⟨⟨cmd, tgt, pl⟩, e⟩ := Option.ne_none_iff_exists'.mp hk
    rw [exec_send e]
    exact andThen_nextOrShort fun _ _ _ => .next _
  · exact absurd hi hk

/-- The front request is a status query, blocked in RX_WAIT. -/
def QueryWaits (s : State) : Prop :=
  s.phase = .rxWait ∧ ∃ j rest, decodeRequest s.req = .instr j rest ∧ queryFields j ≠ none

/-- An arrival stops on the short reply of a blocked query only, which the arriving bytes may complete. -/
theorem arrive_nextOrShort (bs : List Byte) (s : State) :
    NextOrShort (fun f => ShortReply s bs f ∧ QueryWaits s) (arrive bs s) := by
  rcases arrive_cases bs s with ⟨j, rest, hp, hreq, hj, e⟩ | ⟨-, e⟩ <;> rw [e]
  · refine (exec_request_nextOrShort (wireFields_of_receives hj) _).imp ?_
    rintro f ⟨hquery, hn, hf, hbytes⟩
    refine ⟨⟨hn, hf, ?_⟩, hp, j, rest, hreq, hquery⟩
    simpa using hbytes
  · exact .next _

/-- A meaning stops on a short reply only: a query's own, or that of the query its frame answers. -/
theorem exec_nextOrShort (i : Instr) (s : State) :
    NextOrShort (fun f => (queryFields i ≠ none ∧ ShortReply s [] f) ∨
      (wireFields i ≠ none ∧ ShortReply s (encode i) f ∧ QueryWaits s)) (exec i s) := by
  cases hw : wireFields i with
  | none => exact (exec_request_nextOrShort hw s).imp fun _ => .inl
  | some fields =>
    rw [exec_wire hw, ← encode_wire hw]
    exact (arrive_nextOrShort (encode i) s).imp fun _ h => .inr ⟨nofun, h⟩

/-! ## The stops of a step -/

/-- A request is rejected as illegal only for an op-code without a row (30_encoding R79). -/
theorem decodeRequest_illegalOp {bs : List Byte} {op : Byte} (h : decodeRequest bs = .rejected (.illegalOp op)) :
    ∃ fields, bs = op :: fields ∧ op ∉ assignedOps := by
  unfold decodeRequest at h
  split at h
  · cases h
  · rename_i op' fields
    split at h
    · rename_i hrow
      cases h
      exact ⟨fields, rfl, (lookup_requestRows_eq_none_iff op).mp hrow⟩
    · split at h
      · split at h <;> cases h
      · cases h

/-- Everything a step can be: a refusal of the configuration or of the op-code, an arrival, the front request's operation,
or nothing. -/
inductive StepIs (s : State) : Outcome → Prop
  | badConfig (hcfg : s.cfg.ok = false) : StepIs s (.refused .configOutsideSpec)
  | arrival (hok : s.cfg.ok = true) {bs rest : List Byte} (hline : s.line = bs ++ rest) :
    StepIs s (arrive bs { s with line := rest })
  | request (hok : s.cfg.ok = true) (hline : s.line = []) {i : Instr} {rest : List Byte}
    (hreq : decodeRequest s.req = .instr i rest) : StepIs s (exec i s)
  | illegalOp {op : Byte} (hreq : decodeRequest s.req = .rejected (.illegalOp op)) : StepIs s (.refused (.illegalOp op))
  | idle : StepIs s (.next s)

theorem step_is (s : State) : StepIs s (step s) := by
  unfold step
  split_ifs with hcfg hline
  · exact .badConfig hcfg
  · have hok : s.cfg.ok = true := by simpa using hcfg
    split
    · rename_i i rest hw
      obtain ⟨cmd, tgt, pl, c, hi, hl⟩ := decodeWire_instr hw
      rw [exec_wire hi]
      exact .arrival hok hl
    · exact .arrival hok (List.append_nil _).symm
  · have hok : s.cfg.ok = true := by simpa using hcfg
    split
    · exact .request hok (not_not.mp hline) ‹_›
    · exact .idle
    · exact .illegalOp ‹_›
    · exact .idle

/-- Settles O7: a meaning stops on a short reply only, and a step where the meaning it runs does or where it runs none. -/
theorem stopsAreTheSpecsOwn : Obligations.StopsAreTheSpecsOwn := by
  refine ⟨fun i s r h => ?_, fun i s r h => ?_, fun s r h => ?_, fun s r h => ?_⟩
  · exact (exec_nextOrShort i s).ne_refused h
  · exact (h ▸ exec_nextOrShort i s).of_fault
  · have hstep := step_is s
    generalize step s = o at h hstep
    cases hstep with
    | badConfig => cases h
    | illegalOp => cases h
    | idle => cases h
    | arrival hok hline =>
      obtain ⟨f, hr, hshort, hp, j, rest, hreq, hj⟩ := (h ▸ arrive_nextOrShort _ _).of_fault
      exact ⟨hok, f, j, rest, hr, hline ▸ hshort.mono (List.prefix_append _ _), hreq, hj, fun _ => hp⟩
    | @request hok hline i rest hreq =>
      obtain ⟨-, hi⟩ := wellFormed_of_decodeRequest hreq
      obtain ⟨f, hr, hj, hshort⟩ := (h ▸ exec_request_nextOrShort hi s).of_fault
      exact ⟨hok, f, i, rest, hr, hline.symm ▸ hshort, hreq, hj, fun hne => absurd hline hne⟩
  · have hstep := step_is s
    generalize step s = o at h hstep
    cases hstep with
    | badConfig hcfg =>
      cases h
      exact .inl ⟨rfl, hcfg⟩
    | illegalOp hreq =>
      cases h
      obtain ⟨fields, e, hop⟩ := decodeRequest_illegalOp hreq
      exact .inr ⟨_, fields, rfl, e, hop⟩
    | idle => cases h
    | arrival => exact absurd h (arrive_nextOrShort _ _).ne_refused
    | request hok hline hreq => exact absurd h (exec_nextOrShort _ s).ne_refused

/-! ## What survives a wait -/

theorem readLoop_data (k : Nat) (s : State) {b : Byte} {bs : List Byte} {later : List RxAnswer}
    (h : s.rx = .data b bs :: later) :
    readLoop (k + 1) s = decodeThen (readLoop k) (afterChunk ((b :: bs).take s.cfg.scratchSize)
      (arriving ((b :: bs).drop s.cfg.scratchSize) ++ later) s) := by
  rw [readLoop, readTurn_eq, h]

theorem decodeThen_incomplete {more : State → Stage (Frame × Nat)} {s : State}
    (h : dec s.cfg.decodeOrder s.rxbuf = .incomplete) : decodeThen more s = more (setPhase .rxWait s) := by
  rw [decodeThen_eq, h]

/-- A decode waits only where it finds incomplete input. -/
theorem decodeThen_eq_waits {more : State → Stage (Frame × Nat)} {s t : State} (h : decodeThen more s = .waits t) :
    dec s.cfg.decodeOrder s.rxbuf = .incomplete ∧ more (setPhase .rxWait s) = .waits t := by
  rw [decodeThen_eq] at h
  cases hd : dec s.cfg.decodeOrder s.rxbuf <;> rw [hd] at h
  · exact ⟨rfl, h⟩
  all_goals cases h

/-- The loop that waited goes on with later answers as it does with them behind those it had. -/
theorem readLoop_resumed (more : List RxAnswer) (k : Nat) :
    ∀ s t : State, 1 ≤ s.cfg.scratchSize → dec s.cfg.decodeOrder s.rxbuf = .incomplete →
      READ_BOUND ≤ k + s.rxbuf.length → readLoop k s = .waits t →
      readLoop READ_BOUND { t with rx := more } = readLoop k { s with rx := s.rx ++ more } := by
  induction k with
  | zero =>
    intro s t _ hd hk _
    have := dec_incomplete_length hd
    have : READ_BOUND = 260 := rfl
    omega
  | succ k ih =>
    intro s t h1 hd hk h
    rcases readTurn_cases s with ⟨hrx, -⟩ | ⟨b, bs, later, hrx, -⟩ | ⟨later, hrx, -⟩ | ⟨later, hrx, -⟩
    · rw [readLoop_noAnswer k s hrx] at h
      cases h
      rw [hrx]
      exact readLoop_bound_irrelevant _ _ { s with rx := more } h1 hd (Nat.le_add_right _ _) hk
    · rw [readLoop_data k s hrx] at h
      obtain ⟨hd', h'⟩ := decodeThen_eq_waits h
      have hc : 1 ≤ ((b :: bs).take s.cfg.scratchSize).length := by
        rw [List.length_take, List.length_cons]
        omega
      have hk' : READ_BOUND ≤ k + (s.rxbuf ++ (b :: bs).take s.cfg.scratchSize).length := by
        rw [List.length_append]
        omega
      rw [readLoop_data k { s with rx := s.rx ++ more } (congrArg (· ++ more) hrx), List.append_eq, ← List.append_assoc,
        decodeThen_incomplete (by exact hd')]
      exact ih (setPhase .rxWait (afterChunk _ _ s)) t h1 hd' hk' h'
    · rw [readLoop_ended k s later hrx] at h
      cases h
    · rw [readLoop_ioErr k s later hrx] at h
      cases h

theorem MachineInv.scratchSize_pos {s : State} (hinv : MachineInv s) : 1 ≤ s.cfg.scratchSize := by
  have hok := hinv.config
  simp only [Params.ok, Bool.and_eq_true, decide_eq_true_eq] at hok
  exact hok.1

/-- A receive that waited goes on with later answers as it does with them behind those it had (41 R127). -/
theorem MachineInv.receiveFrame_resumed {w t : State} (hinv : MachineInv w) (more : List RxAnswer)
    (h : receiveFrame w = .waits t) :
    receiveFrame { t with rx := more } = receiveFrame { w with rx := w.rx ++ more } := by
  have h1 := hinv.scratchSize_pos
  have hends := receiveFrame_ends w
  rw [h] at hends
  obtain ⟨hp, -, -⟩ := hends
  unfold receiveFrame at h ⊢
  rw [if_pos hp]
  split_ifs at h ⊢ with hw
  · exact readLoop_resumed more _ w t h1 (hinv.waiting hw) (Nat.le_add_right _ _) h
  · obtain ⟨hd, h⟩ := decodeThen_eq_waits h
    rw [readLoop_resumed more READ_BOUND (setPhase .rxWait { w with reads := 0 }) t h1 hd (Nat.le_add_right _ _) h]
    exact (decodeThen_incomplete (s := { w with rx := w.rx ++ more, reads := 0 }) hd).symm

/-- An operation, or the part of it from its reads on, that is left in RX_WAIT and answered later goes on as if it had had
those answers from the start. -/
def SurvivesWait (op : State → Outcome) : Prop :=
  ∀ (s t : State) (more : List RxAnswer), MachineInv s → op s = .next t → t.phase = .rxWait →
    op { t with rx := more } = op { s with rx := s.rx ++ more }

/-- What waits only where its receive does, and else depends on the receive and the parameters only, survives a wait. -/
theorem survivesWait_of_receive {op : State → Outcome}
    (hcongr : ∀ {u v : State}, u.cfg = v.cfg → receiveFrame u = receiveFrame v → op u = op v)
    (hwaits : ∀ {s t : State}, op s = .next t → t.phase = .rxWait → receiveFrame s = .waits t) : SurvivesWait op := by
  intro s t more hinv h hp
  have hr := hwaits h hp
  have hkeeps := receiveFrame_keeps s
  rw [hr] at hkeeps
  exact hcongr hkeeps.cfg (hinv.receiveFrame_resumed more hr)

theorem receiveFrame_raised_phase {w t : State} (h : receiveFrame w = .raised t) : t.phase = .idle := by
  have hends := receiveFrame_ends w
  rw [h] at hends
  exact hends.1

/-- What answers the frame of a reply is left in RX_WAIT only by its receive. -/
theorem waits_of_andThen_reply {w t : State} {x : Stage Frame} {answer : Frame → State → Outcome} (hx : ReplyEnds w x)
    (hanswer : AnswersFrame answer) (h : x.andThen answer = .next t) (hp : t.phase = .rxWait) :
    receiveFrame w = .waits t := by
  cases hx with
  | failed hr =>
    cases h
    simp [receiveFrame_raised_phase hr] at hp
  | blocked hr =>
    cases h
    exact hr
  | rejected =>
    cases h
    simp at hp
  | accepted =>
    obtain ⟨r, -, rfl⟩ := hanswer _ _ _ h
    simp at hp

theorem execReceive_survivesWait : SurvivesWait execReceive := by
  refine survivesWait_of_receive (fun _ h => by rw [execReceive, execReceive, h]) fun {s t} h hp => ?_
  unfold execReceive at h
  cases hr : receiveFrame s <;> rw [hr] at h <;> cases h
  · simp at hp
  · simp [receiveFrame_raised_phase hr] at hp
  · rfl

theorem awaitAck_congr {u v : State} (h : receiveFrame u = receiveFrame v) : awaitAck u = awaitAck v := by
  rw [awaitAck, awaitAck, h]

theorem queryReply_congr {u v : State} (hcfg : u.cfg = v.cfg) (h : receiveFrame u = receiveFrame v) :
    queryReply u = queryReply v := by
  rw [queryReply, queryReply, hcfg, awaitAck_congr h, h]

/-- The write of an operation comes before its wait, and an operation in RX_WAIT makes none. -/
theorem sendThen_survivesWait (cmd tgt : Byte) (pl : List Byte) {reply : State → Outcome} (hreply : SurvivesWait reply) :
    SurvivesWait (sendThen cmd tgt pl reply) := by
  intro s t more hinv h hp
  unfold sendThen at h ⊢
  rw [if_pos hp]
  split_ifs at h ⊢ with hs
  · exact hreply s t more hinv h hp
  · rcases txWriteAll_cases (enc cmd tgt pl) s with ⟨htx, -⟩ | ⟨later, htx, -⟩ | ⟨p, later, htx, -⟩
    · rw [sendFrame_noAnswer _ _ _ _ htx] at h
      cases h
      simp at hp
    · rw [sendFrame_ok _ _ _ _ _ htx] at h
      rw [sendFrame_ok cmd tgt pl { s with rx := s.rx ++ more } later htx]
      refine hreply _ t more ?_ h hp
      exact InBounds.machineInv ⟨hinv.config, hinv.rxbuf, hinv.scratch, hinv.readBound⟩ (.inr rfl) hinv.response
    · rw [sendFrame_ioErr _ _ _ _ _ _ htx] at h
      cases h
      simp at hp

/-- Settles O33: the write aside, an operation that waits is its receive, and that goes on. -/
theorem waitingChangesNothing : Obligations.WaitingChangesNothing := by
  intro i s t more hinv hi
  suffices h : SurvivesWait (exec i) from h s t more hinv
  rcases hi with rfl | hk | hk
  · exact execReceive_survivesWait
  · obtain ⟨⟨cmd, tgt, pl⟩, e⟩ := Option.ne_none_iff_exists'.mp hk
    rw [funext (exec_handshake e)]
    refine sendThen_survivesWait cmd tgt pl (survivesWait_of_receive (fun _ h => by rw [awaitAck_congr h]) ?_)
    refine fun h hp => waits_of_andThen_reply (awaitAck_replyEnds _) (fun f v t ht => ?_) h hp
    cases ht
    exact ⟨_, by simp, rfl⟩
  · obtain ⟨⟨cmd, tgt, statusOf⟩, e⟩ := Option.ne_none_iff_exists'.mp hk
    rw [funext (exec_query e)]
    refine sendThen_survivesWait cmd tgt [] (survivesWait_of_receive (fun hcfg h => by rw [queryReply_congr hcfg h]) ?_)
    exact fun h hp => waits_of_andThen_reply (queryReply_replyEnds _) (statusReply_answersFrame statusOf) h hp

end Sys2Proof.Machine
end

section
/-! PROOFS. What the checksum cannot see (70 R240), and the block after a reset (70 R230). -/
namespace Sys2Proof.Machine
open Sys2Proof.Config

/-! ## The checksum's blind spots -/

/-- The checksum is the sum of the covered bytes, reduced once (40 R100). -/
theorem csum_eq_ofNat_sumBytes (cmd tgt n : Byte) (pl : List Byte) :
    csum cmd tgt n pl = BitVec.ofNat 8 (sumBytes (cmd :: tgt :: n :: pl)) := by
  simp [csum, sumBytes, Nat.add_assoc]

/-- Two checksums agree exactly where the sums of the covered bytes do, mod 256. -/
theorem csum_eq_csum_iff {cmd tgt n cmd' tgt' n' : Byte} {pl pl' : List Byte} :
    csum cmd tgt n pl = csum cmd' tgt' n' pl' ↔
      sumBytes (cmd :: tgt :: n :: pl) % 256 = sumBytes (cmd' :: tgt' :: n' :: pl') % 256 := by
  rw [csum_eq_ofNat_sumBytes, csum_eq_ofNat_sumBytes, ← BitVec.toNat_inj, BitVec.toNat_ofNat, BitVec.toNat_ofNat]

/-- The sum does not see the order of the bytes. -/
theorem sumBytes_eq_of_perm {bs bs' : List Byte} (h : bs.Perm bs') : sumBytes bs = sumBytes bs' :=
  (h.map BitVec.toNat).sum_eq

/-- Settles O15: a permutation keeps the sum, the checksum is the sum mod 256, and a decode looks at the checksum alone. -/
theorem checksumMissesCorruption : Obligations.ChecksumMissesCorruption := by
  refine ⟨fun cmd tgt n cmd' tgt' n' pl pl' h => ?_, fun cmd tgt n cmd' tgt' n' pl pl' h => ?_,
    fun o cmd tgt n cmd' tgt' pl pl' hl h => ?_⟩
  · exact csum_eq_csum_iff.mpr (congrArg (· % 256) (sumBytes_eq_of_perm h))
  · exact csum_eq_csum_iff.mpr h
  · have hdec := dec_frameBytes o cmd' tgt' (csum cmd tgt n pl) [] hl
    rwa [List.append_nil, if_pos (csum_eq_csum_iff.mpr h), frameLen_eq, Nat.add_comm] at hdec

/-! ## After a reset -/

/-- With nothing on the line and no whole request on the port, the block waits (20_memory R57). -/
theorem step_incomplete {s : State} (hok : s.cfg.ok = true) (hline : s.line = [])
    (hreq : decodeRequest s.req = .rejected .incomplete) : step s = .next s := by
  simp [step, hok, hline, hreq]

/-- Settles O1: each field after a reset by its own equation, and an empty port holds no whole request. -/
theorem resetLeavesCleanBlock : Obligations.ResetLeavesCleanBlock := by
  refine ⟨⟨rfl, rfl, rfl, rfl⟩, fun s => by simp, fun s hok hline => ?_⟩
  have hreq : decodeRequest (applyReset s).req = .rejected .incomplete := by
    rw [applyReset_req]
    rfl
  exact step_incomplete (by simpa using hok) (by simpa using hline) hreq

end Sys2Proof.Machine
end

section
/-! PROOFS. The state after a reset meets the machine's invariant (70 R230, 10_state R37). -/
namespace Sys2Proof.Machine
open Sys2Proof.Config

/-- The reference parameters lie in R7's ranges, an empty RXBUF in every bound, and SCRATCH is laid out at its full
length. -/
theorem inBounds_reset : InBounds State.reset where
  config := by decide
  rxbuf := Nat.zero_le _
  scratch := List.length_replicate
  readBound := Nat.zero_le _

/-- Settles O2: the block is in bounds, it is idle, and no response is there that could be unsound. -/
theorem resetMeetsInvariant : Obligations.ResetMeetsInvariant := by
  have hidle : State.reset.phase = .idle := rfl
  have hresp : State.reset.resp = none := rfl
  exact inBounds_reset.machineInv (.inl hidle) fun r hr => by simp [hresp] at hr

end Sys2Proof.Machine
end
